-- ==== Sys2Proof/Word.lean ====
section
/-! DEFINITION. The bit vectors the spec names: a byte of `MEM` (R31), a 32-bit register, command word
or binary32 pattern (R21, R61, R80), a 24-bit random word (R100) and an 8-bit context number (R61). -/

namespace Sys2Proof

/-- One byte of `MEM` (R31: "each byte 8 bits"). -/
abbrev Byte := BitVec 8

/-- A 32-bit value: an operand register (R21), a command word (R61) or a binary32 pattern (R80). -/
abbrev Word := BitVec 32

/-- One random word of the sequence `RND` (R100: "24-bit unsigned word"). -/
abbrev Draw := BitVec 24

/-- The `CTX` field of a command word (R61: bits 15:8), used as an unsigned 8-bit index (R70). -/
abbrev CtxNum := BitVec 8

end Sys2Proof
end

