-- ==== Sys2Proof/Machine/Narrow.lean ====
section
/-! DEFINITION. The integer operations of R87 to R90: exact integers are narrowed by saturation or by wrapping,
and by nothing else (R92). The SFC has no flags (R25), so nothing here reports an overflow. -/

namespace Sys2Proof.Machine

/-- `CLAMP_n(k)`: saturation to the signed `n`-bit range (R87), `n >= 1`. -/
def clamp (n : Nat) (k : Int) : Int :=
  if 2 ^ (n - 1) - 1 < k then 2 ^ (n - 1) - 1
  else if k < -2 ^ (n - 1) then -2 ^ (n - 1)
  else k

/-- `WRAP_n(k) = k mod 2^n` (R88), the `n`-bit pattern of an integer. -/
def wrap (n : Nat) (k : Int) : Nat := (k % 2 ^ n).toNat

/-- `sext_n(v)` (R11): the signed integer congruent to `v` modulo `2^n`, `n >= 1`. -/
def sext (n v : Nat) : Int :=
  if v % 2 ^ n < 2 ^ (n - 1) then (v % 2 ^ n : Nat) else (v % 2 ^ n : Nat) - 2 ^ n

/-- `SATADD16(a, b) = CLAMP_16(a + b)` (R89). -/
def satAdd16 (a b : Int) : Int := clamp 16 (a + b)

/-- `ASR8(c) = floor(c / 256)` (R90). -/
def asr8 (c : Int) : Int := c / 256

end Sys2Proof.Machine
end

