-- ==== Sys2Proof/Syntax.lean ====
section
/-! DEFINITION. The 22 commands of R67, one constructor per row of the opcode map, and the values that the
fields `OPC`, `DM` and `W` of a command word name (R62 to R64). -/

namespace Sys2Proof

/-- The commands of the SFC (R67). A command carries the only operand its word holds, the `CTX` field
(R70), where the opcode map lets that field be anything: used by `*.TRI`, `*.SHP` and `DCLR`, ignored by
`F2I16`, `F2I24` and `*.RECT` (R65). -/
inductive Instr where
  /-- `F2I16`, float to 16-bit, no dither (R121). -/
  | f2i16 (ctx : CtxNum)
  /-- `F2I24`, float to 24-in-32, no dither (R125). -/
  | f2i24 (ctx : CtxNum)
  /-- `F2I16.RECT`, float to 16-bit, rectangular dither (R122). -/
  | f2i16Rect (ctx : CtxNum)
  /-- `F2I24.RECT`, float to 24-in-32, rectangular dither (R126). -/
  | f2i24Rect (ctx : CtxNum)
  /-- `F2I16.TRI`, float to 16-bit, triangular dither (R123). -/
  | f2i16Tri (ctx : CtxNum)
  /-- `F2I24.TRI`, float to 24-in-32, triangular dither (R127). -/
  | f2i24Tri (ctx : CtxNum)
  /-- `F2I16.SHP`, float to 16-bit, noise-shaped dither (R124). -/
  | f2i16Shp (ctx : CtxNum)
  /-- `F2I24.SHP`, float to 24-in-32, noise-shaped dither (R128). -/
  | f2i24Shp (ctx : CtxNum)
  /-- `FMRG16`, float to 16-bit, saturating merge (R140). -/
  | fmrg16
  /-- `FMRG24`, float to 24-in-32, wrapping merge (R141). -/
  | fmrg24
  /-- `I2F16`, 16-bit to float (R129). -/
  | i2f16
  /-- `I2F24`, 24-in-32 to float (R130). -/
  | i2f24
  /-- `FILL8`, strided fill with a byte (R150). -/
  | fill8
  /-- `FILL16`, strided fill with a 16-bit value (R151). -/
  | fill16
  /-- `FILL32`, strided fill with a 32-bit value (R152). -/
  | fill32
  /-- `CPY16`, strided copy of 16-bit elements (R153). -/
  | cpy16
  /-- `CPY32`, strided copy of 32-bit elements (R154). -/
  | cpy32
  /-- `MCPY16`, strided merge-copy of 16-bit elements, wrapping (R155). -/
  | mcpy16
  /-- `MCPY32`, strided merge-copy of 32-bit elements, wrapping (R156). -/
  | mcpy32
  /-- `MCPYC16`, contiguous 16-bit merge-copy (R142). -/
  | mcpyc16
  /-- `MCPYC32`, contiguous 32-bit merge-copy (R143). -/
  | mcpyc32
  /-- `DCLR`, clear one dither context (R111). -/
  | dclr (ctx : CtxNum)
deriving DecidableEq, Repr

/-- The operation classes of the field `OPC` (R62). -/
inductive OpClass where
  | f2i | fmrg | i2f | fill | cpy | mcpy | mcpyc | dclr
deriving DecidableEq, Repr

/-- The dither modes of the field `DM` (R64). -/
inductive DitherMode where
  | none | rect | tri | shp
deriving DecidableEq, Repr

/-- The element widths of the field `W` (R63); the code 3 is reserved and names none. -/
inductive WidthCode where
  | one | two | four
deriving DecidableEq, Repr

/-- The two integer containers of the converters and the float merges (R43). -/
inductive Container where
  /-- the 16-bit container -/
  | int16
  /-- the 24-bit sample left-justified in a 32-bit slot -/
  | int24
deriving DecidableEq, Repr

/-- The operand registers (R21), each under the name the spec gives it. -/
inductive OperandReg where
  | src | dst | cnt | dstride | sstride | val
deriving DecidableEq, Repr

end Sys2Proof
end

