-- ==== Sys2Proof/Decode.lean ====
section
/-! DEFINITION. The command word (R61 to R68): its fields, the decoder that reads a command from them and
names what makes a word reserved, the encoder, and the opcode map of R67 as rows of a match and a mask. -/

namespace Sys2Proof

/-- `ZERO`, bits 31:16 (R61). -/
def fieldZero (c : Word) : BitVec 16 := c.extractLsb' 16 16

/-- `CTX`, bits 15:8 (R61). -/
def fieldCtx (c : Word) : CtxNum := c.extractLsb' 8 8

/-- `OPC`, bits 7:4 (R61). -/
def fieldOpc (c : Word) : BitVec 4 := c.extractLsb' 4 4

/-- `DM`, bits 3:2 (R61). -/
def fieldDm (c : Word) : BitVec 2 := c.extractLsb' 2 2

/-- `W`, bits 1:0 (R61). -/
def fieldW (c : Word) : BitVec 2 := c.extractLsb' 0 2

/-- The class an `OPC` value names (R62); 0 and 9 to 15 are reserved. -/
def opClass? (b : BitVec 4) : Option OpClass :=
  if b = 1 then some .f2i else if b = 2 then some .fmrg else if b = 3 then some .i2f
  else if b = 4 then some .fill else if b = 5 then some .cpy else if b = 6 then some .mcpy
  else if b = 7 then some .mcpyc else if b = 8 then some .dclr else none

/-- The dither mode a `DM` value names (R64). -/
def ditherMode (b : BitVec 2) : DitherMode :=
  if b = 0 then .none else if b = 1 then .rect else if b = 2 then .tri else .shp

/-- The element width a `W` value names (R63); 3 is reserved. -/
def widthCode? (b : BitVec 2) : Option WidthCode :=
  if b = 0 then some .one else if b = 1 then some .two else if b = 2 then some .four else none

/-- Why a command word is reserved (R68), in the order in which the decoder looks. -/
inductive Reserved where
  /-- bits 31:16 are not all zero (R66) -/
  | zeroField
  /-- `OPC` is 0 or 9 to 15 (R62) -/
  | opClass
  /-- `W` is 3, or a width its class does not have (R63) -/
  | width
  /-- `DM` is not 0 outside the class `F2I` (R64) -/
  | ditherMode
  /-- `CTX` is not 0 in a command that has no context field (R65) -/
  | context
deriving DecidableEq, Repr

/-- The command of class `F2I` of a mode and a width (R63, R64, R67). -/
def decodeF2I (m : DitherMode) (w : WidthCode) (c : CtxNum) : Except Reserved Instr :=
  match m, w with
  | .none, .two => .ok (.f2i16 c)
  | .none, .four => .ok (.f2i24 c)
  | .rect, .two => .ok (.f2i16Rect c)
  | .rect, .four => .ok (.f2i24Rect c)
  | .tri, .two => .ok (.f2i16Tri c)
  | .tri, .four => .ok (.f2i24Tri c)
  | .shp, .two => .ok (.f2i16Shp c)
  | .shp, .four => .ok (.f2i24Shp c)
  | .none, .one => .error .width
  | .rect, .one => .error .width
  | .tri, .one => .error .width
  | .shp, .one => .error .width

/-- The command of a class without dither and of a width (R63, R67). For `DCLR` the width field must be 0 and
the context field is an operand; everywhere else here the context field must be 0 (R65). -/
def decodePlain (k : OpClass) (w : WidthCode) (c : CtxNum) : Except Reserved Instr :=
  let noContext (i : Instr) : Except Reserved Instr := if c = 0 then .ok i else .error .context
  match k, w with
  | .fmrg, .two => noContext .fmrg16
  | .fmrg, .four => noContext .fmrg24
  | .i2f, .two => noContext .i2f16
  | .i2f, .four => noContext .i2f24
  | .fill, .one => noContext .fill8
  | .fill, .two => noContext .fill16
  | .fill, .four => noContext .fill32
  | .cpy, .two => noContext .cpy16
  | .cpy, .four => noContext .cpy32
  | .mcpy, .two => noContext .mcpy16
  | .mcpy, .four => noContext .mcpy32
  | .mcpyc, .two => noContext .mcpyc16
  | .mcpyc, .four => noContext .mcpyc32
  | .dclr, .one => .ok (.dclr c)
  | _, _ => .error .width

/-- The decoder (R61: "the word alone determines the command"): the command of a word, or what makes the
word reserved (R68). -/
def decode (c : Word) : Except Reserved Instr :=
  if fieldZero c = 0 then
    match opClass? (fieldOpc c), widthCode? (fieldW c) with
    | none, _ => .error .opClass
    | some _, none => .error .width
    | some .f2i, some w => decodeF2I (ditherMode (fieldDm c)) w (fieldCtx c)
    | some k, some w => if fieldDm c = 0 then decodePlain k w (fieldCtx c) else .error .ditherMode
  else .error .zeroField

/-- The opcode byte `OPB` of a command (R67). -/
def opcodeByte : Instr → BitVec 8
  | .f2i16 _ => 0x11
  | .f2i24 _ => 0x12
  | .f2i16Rect _ => 0x15
  | .f2i24Rect _ => 0x16
  | .f2i16Tri _ => 0x19
  | .f2i24Tri _ => 0x1A
  | .f2i16Shp _ => 0x1D
  | .f2i24Shp _ => 0x1E
  | .fmrg16 => 0x21
  | .fmrg24 => 0x22
  | .i2f16 => 0x31
  | .i2f24 => 0x32
  | .fill8 => 0x40
  | .fill16 => 0x41
  | .fill32 => 0x42
  | .cpy16 => 0x51
  | .cpy32 => 0x52
  | .mcpy16 => 0x61
  | .mcpy32 => 0x62
  | .mcpyc16 => 0x71
  | .mcpyc32 => 0x72
  | .dclr _ => 0x80

/-- The context field a command's word carries: its operand, or 0 where the field must be 0 (R65). -/
def contextField : Instr → CtxNum
  | .f2i16 c => c
  | .f2i24 c => c
  | .f2i16Rect c => c
  | .f2i24Rect c => c
  | .f2i16Tri c => c
  | .f2i24Tri c => c
  | .f2i16Shp c => c
  | .f2i24Shp c => c
  | .fmrg16 => 0
  | .fmrg24 => 0
  | .i2f16 => 0
  | .i2f24 => 0
  | .fill8 => 0
  | .fill16 => 0
  | .fill32 => 0
  | .cpy16 => 0
  | .cpy32 => 0
  | .mcpy16 => 0
  | .mcpy32 => 0
  | .mcpyc16 => 0
  | .mcpyc32 => 0
  | .dclr c => c

/-- The dither context a command uses (the "used" rows of R67; R65: "used by `F2I*.TRI`, `F2I*.SHP` and `DCLR`"); `none` where
the field is ignored or must be 0. -/
def usedContext : Instr → Option CtxNum
  | .f2i16 _ => none
  | .f2i24 _ => none
  | .f2i16Rect _ => none
  | .f2i24Rect _ => none
  | .f2i16Tri c => some c
  | .f2i24Tri c => some c
  | .f2i16Shp c => some c
  | .f2i24Shp c => some c
  | .fmrg16 => none
  | .fmrg24 => none
  | .i2f16 => none
  | .i2f24 => none
  | .fill8 => none
  | .fill16 => none
  | .fill32 => none
  | .cpy16 => none
  | .cpy32 => none
  | .mcpy16 => none
  | .mcpy32 => none
  | .mcpyc16 => none
  | .mcpyc32 => none
  | .dclr c => some c

/-- The encoder: the word of a command, the concatenation of `ZERO`, `CTX` and the opcode byte (R61), which
is `match + 256 * c` (R67). -/
def encode (i : Instr) : Word := (0 : BitVec 16) ++ contextField i ++ opcodeByte i

/-- A row of the opcode map (R67). -/
structure OpcodeRow where
  /-- the row's mnemonic -/
  mnemonic : String
  /-- the row's `match` column -/
  pattern : Word
  /-- the row's `mask` column -/
  mask : Word
deriving DecidableEq, Repr

/-- The opcode map of R67, as it is printed there. -/
def opcodeRows : List OpcodeRow :=
  [ ⟨"F2I16", 0x00000011, 0xFFFF00FF⟩, ⟨"F2I24", 0x00000012, 0xFFFF00FF⟩,
    ⟨"F2I16.RECT", 0x00000015, 0xFFFF00FF⟩, ⟨"F2I24.RECT", 0x00000016, 0xFFFF00FF⟩,
    ⟨"F2I16.TRI", 0x00000019, 0xFFFF00FF⟩, ⟨"F2I24.TRI", 0x0000001A, 0xFFFF00FF⟩,
    ⟨"F2I16.SHP", 0x0000001D, 0xFFFF00FF⟩, ⟨"F2I24.SHP", 0x0000001E, 0xFFFF00FF⟩,
    ⟨"FMRG16", 0x00000021, 0xFFFFFFFF⟩, ⟨"FMRG24", 0x00000022, 0xFFFFFFFF⟩,
    ⟨"I2F16", 0x00000031, 0xFFFFFFFF⟩, ⟨"I2F24", 0x00000032, 0xFFFFFFFF⟩,
    ⟨"FILL8", 0x00000040, 0xFFFFFFFF⟩, ⟨"FILL16", 0x00000041, 0xFFFFFFFF⟩,
    ⟨"FILL32", 0x00000042, 0xFFFFFFFF⟩, ⟨"CPY16", 0x00000051, 0xFFFFFFFF⟩,
    ⟨"CPY32", 0x00000052, 0xFFFFFFFF⟩, ⟨"MCPY16", 0x00000061, 0xFFFFFFFF⟩,
    ⟨"MCPY32", 0x00000062, 0xFFFFFFFF⟩, ⟨"MCPYC16", 0x00000071, 0xFFFFFFFF⟩,
    ⟨"MCPYC32", 0x00000072, 0xFFFFFFFF⟩, ⟨"DCLR", 0x00000080, 0xFFFF00FF⟩ ]

/-- A word is the command of a row when `c AND mask = match` (R67). -/
def OpcodeRow.covers (r : OpcodeRow) (c : Word) : Bool := c &&& r.mask == r.pattern

/-- The mnemonic of a command, spelled as in R67. -/
def mnemonic : Instr → String
  | .f2i16 _ => "F2I16"
  | .f2i24 _ => "F2I24"
  | .f2i16Rect _ => "F2I16.RECT"
  | .f2i24Rect _ => "F2I24.RECT"
  | .f2i16Tri _ => "F2I16.TRI"
  | .f2i24Tri _ => "F2I24.TRI"
  | .f2i16Shp _ => "F2I16.SHP"
  | .f2i24Shp _ => "F2I24.SHP"
  | .fmrg16 => "FMRG16"
  | .fmrg24 => "FMRG24"
  | .i2f16 => "I2F16"
  | .i2f24 => "I2F24"
  | .fill8 => "FILL8"
  | .fill16 => "FILL16"
  | .fill32 => "FILL32"
  | .cpy16 => "CPY16"
  | .cpy32 => "CPY32"
  | .mcpy16 => "MCPY16"
  | .mcpy32 => "MCPY32"
  | .mcpyc16 => "MCPYC16"
  | .mcpyc32 => "MCPYC32"
  | .dclr _ => "DCLR"

/-- What the decoder reads from an instruction whose `nbits` low bits are those of `w`, every other bit
being 0. A command is one 32-bit word that the host writes to `CMD` (R61); it stands in no memory, so there
is no byte order to lay it out in. -/
def decodeTableWord (nbits w : Nat) : Option Instr :=
  match decode (BitVec.ofNat 32 (w % 2 ^ nbits)) with
  | .ok i => some i
  | .error _ => none

end Sys2Proof
end

