-- ==== Sys2Proof/Config.lean ====
section
/-! DEFINITION. What is fixed for a run and is not state: the constants of R5 and R84, the size of the address
space (R31), the open sequence `RND` (R8), and the values this model names where the spec leaves one open
(each with its entry of the assumption log). -/

namespace Sys2Proof.Config

/-- `K16`, 32767.0, the scale of the 16-bit width (R5, R84). -/
def k16 : Word := 0x46FFFE00

/-- `K24`, 8388607.0, the scale of the 24-bit width (R5, R84). -/
def k24 : Word := 0x4AFFFFFE

/-- `C0`, 2.033 (R84). -/
def c0 : Word := 0x40021CAC

/-- `C1`, 2.165 (R84). -/
def c1 : Word := 0x400A8F5C

/-- `C2`, 1.959 (R84). -/
def c2 : Word := 0x3FFAC083

/-- `C3`, 1.590 (R84). -/
def c3 : Word := 0x3FCB851F

/-- `C4`, 0.6149 (R84). -/
def c4 : Word := 0x3F1D6A16

/-- The number of addresses of `MEM` (R31, R40: "2^32 addresses, one 8-bit byte at each"). -/
def addressSpace : Nat := 2 ^ 32

/-- `RND` (R8, R100): any infinite sequence of 24-bit words. FREE VALUE, assumption log 1: the constant has
no body, so a claim about it holds for every sequence. -/
opaque rnd : Nat → Draw

/-- What an address of `MEM` that nothing has written reads as. DESIGN CHOICE, assumption log 2: R33 leaves
the contents at power-up unspecified. -/
def unwrittenByte : Byte := 0

/-- The number of dither contexts of the block that `State.reset` describes. DESIGN CHOICE, assumption
log 3: `NCH` is open (R8, 1 to 256); 4 is the value of the spec's own decode vectors. -/
def resetContexts : Nat := 4

/-- The history size `N` of the block that `State.reset` describes (R6: the value taken is 8). -/
def resetHistory : Nat := 8

/-- `SFC_BASE` of the block that `State.reset` describes. DESIGN CHOICE, assumption log 16: the base is open (R8),
and 0 stands for any. -/
def resetBase : Nat := 0

end Sys2Proof.Config
end

