-- ==== Sys2Proof/Machine/State.lean ====
section
/-! DEFINITION. The state of the SFC and of what stands around it, as plain data: every piece of state of R20,
the parameters of a run that a claim must be able to vary (R8, R32), the accesses the outside world is about
to make, and the reasons a step stops. `State.reset` is the block right after reset (R33). -/

namespace Sys2Proof.Machine

/-- `MEM` (R31) as the list of its bytes that do not read as `Config.unwrittenByte`, addresses strictly
rising. -/
abbrev Memory := List Host.Cell

/-- One dither context `DS[c]` (R26). The history size `N` (R7) is the length of `err`. -/
structure DitherCtx where
  /-- `DS[c].prev`, a binary32 pattern: the `r` of the last sample of a triangular or noise-shaped command -/
  prev : Word
  /-- `DS[c].err[0..N-1]`, binary32 patterns, a circular buffer of quantization errors -/
  err : List Word
  /-- `DS[c].idx`, the position of the newest error, below `N` -/
  idx : Nat
deriving DecidableEq, Repr

/-- A run of addresses that the host has given the block; `Owned` (R8) is the union of such runs. -/
structure Extent where
  /-- the lowest address -/
  base : Nat
  /-- how many bytes -/
  size : Nat
deriving DecidableEq, Repr

/-- Which stream of a command a contract violation names (R171: "which stream"). -/
inductive StreamId where
  | source | destination
deriving DecidableEq, Repr

/-- One action of the host between commands. An access to the register window (R60) names an address of the host's
address space and a width in bytes, so that the accesses R60 does not allow can be written down too. -/
inductive HostEvent where
  /-- a write of `width` bytes to the register window, at an address of the host's -/
  | write (addr width : Nat) (value : Word)
  /-- a read of `width` bytes from the register window, at an address of the host's -/
  | read (addr width : Nat)
  /-- the host stores a byte in `MEM`, which it owns (R31) -/
  | memWrite (addr : Word) (value : Byte)
  /-- the host reads a byte of `MEM` -/
  | memRead (addr : Word)
  /-- the host says which bytes it gives the block from the next command on (R8, `Owned`) -/
  | own (extents : List Extent)
  /-- reset, applied while no command runs (R190) -/
  | reset
deriving DecidableEq, Repr

/-- Something another agent does while the next command runs (R54, R180, R190). -/
inductive Overlap where
  /-- an agent that is no SFC, a bus master or a host thread, reads a byte of `MEM` (R54) -/
  | memRead (addr : Word)
  /-- another agent, another SFC instance included, writes a byte of `MEM` (R54, R180) -/
  | memWrite (addr : Word) (value : Byte)
  /-- another SFC instance reads a byte of `MEM` (R180) -/
  | instanceRead (addr : Word)
  /-- another command that uses dither context `c` is in flight -/
  | context (c : CtxNum)
  /-- the platform applies reset during the command -/
  | reset
deriving DecidableEq, Repr

/-- The state. The first ten fields are the state R20 gives the machine; `rndKnown`, `owned` and `sfcBase` are
parameters of a run (R8), not state of the block (R32), and stand here so that a claim about every `State` is a
claim about every value of them; `host`, `during` and `readData` are the model's own: the outside world's actions
still to come and what the host's last read returned. -/
structure State where
  /-- `x[0]`, `SRC` (R21) -/
  src : Word
  /-- `x[1]`, `DST` (R21) -/
  dst : Word
  /-- `x[2]`, `CNT` (R21) -/
  cnt : Word
  /-- `x[3]`, `DSTRIDE` (R21) -/
  dstride : Word
  /-- `x[4]`, `SSTRIDE` (R21) -/
  sstride : Word
  /-- `x[5]`, `VAL` (R21) -/
  val : Word
  /-- `CMD` (R23): `some c` from the host's write of `c` until the command completes, `none` between
  commands, when the register "holds nothing" -/
  cmd : Option Word
  /-- `DS[0]` to `DS[NCH-1]` (R26); `NCH` (R8) is the length of the list -/
  dither : List DitherCtx
  /-- `rnd_idx` (R30), the number of random words drawn since reset -/
  rndIdx : Nat
  /-- `MEM` (R31) -/
  mem : Memory
  /-- the leading words of `RND` (R8) this run assumes; the words after them are `Config.rnd`, which is open
  (assumption log 1) -/
  rndKnown : List Draw
  /-- `Owned` (R8, R48): the bytes the host has given the block for the current command -/
  owned : List Extent
  /-- `SFC_BASE` (R8, R60): where the register window stands in the host's address space -/
  sfcBase : Nat
  /-- the host's actions still to come, the next one first (R32: "the sequence of register writes the host
  performs") -/
  host : List HostEvent
  /-- what other agents do while the next command runs (R54) -/
  during : List Overlap
  /-- what the host's last read returned (R22, R60) -/
  readData : Word
deriving DecidableEq, Repr

/-- Why the machine stops: the contract violations of R171, each with the information a model records. All
are raised by a command or by the `CMD` write that issues it. Each is safe: the source calls the use
undefined, so stopping proves nothing false about what the hardware does then (R171). -/
inductive Fault where
  /-- kind 1, raised by the `CMD` write: the word is reserved (R68); safe -/
  | illegalCommand (word : Word)
  /-- kind 2, raised by `F2I*.TRI`, `F2I*.SHP`, `DCLR`: `CTX >= NCH` (R65); safe -/
  | badContext (ctx : CtxNum)
  /-- kind 3, raised by commands with a register stride: it is below the element width (R45); safe -/
  | strideTooSmall (stream : StreamId) (stride : Nat)
  /-- kind 4, raised by commands with elements wider than a byte: a base or a register stride is no multiple
  of the width (R46); safe -/
  | misaligned (stream : StreamId) (value : Nat)
  /-- kind 5, raised by every command but `DCLR`: a stream would end beyond 2^32 (R47); safe -/
  | addressWrap (stream : StreamId)
  /-- kind 6, raised by every command but `DCLR`: a byte of an element is not in `Owned` (R48); safe -/
  | outOfExtent (addr : Nat)
  /-- kind 7, raised by `F2I*` and `FMRG*`: a sample is an infinity or a NaN, or a floating operation
  overflows, at the element named (R91); safe -/
  | nonFinite (element : Nat)
  /-- kind 8, raised by the environment: another agent touches a stream or the context of the running
  command (R54); safe -/
  | concurrentAccess
deriving DecidableEq, Repr

/-- What the model does not accept at all. -/
inductive Refusal where
  /-- raised by `exec` for an instruction without a meaning; none is left; safe -/
  | notModelled (mnemonic : String)
  /-- raised by a host access to the register window that is narrower than a word, misaligned or beyond
  offset `0x18` (R60: "a model refuses it"), or wider than a word or below the base (assumption log 11); safe -/
  | windowAccess (addr width : Nat)
  /-- raised by a reset during a command (R190: "a model refuses it"); safe -/
  | resetDuringCommand
deriving DecidableEq, Repr

/-- A dither context right after reset, with a history of `n` entries (R33: all fields zero). -/
def DitherCtx.zero (n : Nat) : DitherCtx where
  prev := 0
  err := List.replicate n 0
  idx := 0

/-- A block of `nch` dither contexts with a history of `n` entries and its window at `base`, right after reset (R33),
idle, with nothing known of `RND`, nothing written to `MEM`, and nothing about to happen. `Owned` is all addresses, as R48 lets a
model take it (assumption log 4). -/
def State.resetOf (nch n base : Nat) : State where
  src := 0
  dst := 0
  cnt := 0
  dstride := 0
  sstride := 0
  val := 0
  cmd := none
  dither := List.replicate nch (DitherCtx.zero n)
  rndIdx := 0
  mem := []
  rndKnown := []
  owned := [⟨0, Config.addressSpace⟩]
  sfcBase := base
  host := []
  during := []
  readData := 0

/-- The machine right after reset (R33, R191). -/
def State.reset : State :=
  State.resetOf Config.resetContexts Config.resetHistory Config.resetBase

end Sys2Proof.Machine
end

