-- ==== Sys2Proof/Machine/Ops.lean ====
section
/-! DEFINITION. The named operations over the state: `MEM` one byte at a time and in elements (R42), the
operand registers (R22), the dither contexts (R26), the random draw (R100), reset (R190), and the element
loop (R51). There is no operation that takes an exception: the SFC has no trap entry (R176) and no trap
return (R177); a contract violation ends the run as a fault (R171). -/

namespace Sys2Proof.Machine

/-- What a step answers. -/
abbrev Result := Host.Outcome State Fault Refusal

/-- Goes on with a next state; a fault or a refusal stays. -/
def andThen (r : Result) (f : State → Result) : Result :=
  match r with
  | .next s => f s
  | .fault e => .fault e
  | .refused e => .refused e

/-! ### `MEM` -/

/-- One byte of `MEM` (R31). The list is sorted, so the search stops where the address would stand. -/
def Memory.readByte (m : Memory) (a : Nat) : Byte :=
  match m with
  | [] => Config.unwrittenByte
  | (b, v) :: rest =>
    if a < b then Config.unwrittenByte else if a = b then v else Memory.readByte rest a

/-- Puts a byte before a list, unless it is the byte an unlisted address reads as. -/
def Memory.cell (a : Nat) (v : Byte) (rest : Memory) : Memory :=
  if v = Config.unwrittenByte then rest else (a, v) :: rest

/-- Stores one byte, keeping the canonical form. -/
def Memory.writeByte (m : Memory) (a : Nat) (v : Byte) : Memory :=
  match m with
  | [] => Memory.cell a v []
  | (b, w) :: rest =>
    if a < b then Memory.cell a v ((b, w) :: rest)
    else if a = b then Memory.cell a v rest
    else (b, w) :: Memory.writeByte rest a v

/-- `MemRead(addr, n)` (R42): the `n` bytes from `addr` as a little-endian number. -/
def Memory.read (m : Memory) (a : Nat) : Nat → Nat
  | 0 => 0
  | n + 1 => (Memory.readByte m a).toNat + 256 * Memory.read m (a + 1) n

/-- `MemWrite(addr, n, v)` (R42): the low `8n` bits of `v`, little-endian, at `addr` to `addr + n - 1`. -/
def Memory.write (m : Memory) (a : Nat) : Nat → Nat → Memory
  | 0, _ => m
  | n + 1, v => Memory.write (Memory.writeByte m a (BitVec.ofNat 8 v)) (a + 1) n (v / 256)

/-- The canonical form of a memory whose addresses start at `lo` or above. -/
def Memory.wfFrom (lo : Nat) : Memory → Bool
  | [] => true
  | (a, v) :: rest =>
    lo ≤ a && a < Config.addressSpace && v != Config.unwrittenByte && Memory.wfFrom (a + 1) rest

/-- The canonical form: addresses strictly rising and below 2^32 (R31), and no entry equal to what an unlisted
address reads as. -/
def Memory.wf (m : Memory) : Bool := Memory.wfFrom 0 m

/-- One element read from `MEM` (R49). -/
def State.load (s : State) (a n : Nat) : Nat := Memory.read s.mem a n

/-- One element written to `MEM` (R49). -/
def State.store (s : State) (a n v : Nat) : State := { s with mem := Memory.write s.mem a n v }

/-! ### Operand registers -/

/-- Reads an operand register (R22). -/
def State.readReg (s : State) : OperandReg → Word
  | .src => s.src
  | .dst => s.dst
  | .cnt => s.cnt
  | .dstride => s.dstride
  | .sstride => s.sstride
  | .val => s.val

/-- Writes an operand register; only the host does (R11, R22). -/
def State.writeReg (s : State) (r : OperandReg) (v : Word) : State :=
  match r with
  | .src => { s with src := v }
  | .dst => { s with dst := v }
  | .cnt => { s with cnt := v }
  | .dstride => { s with dstride := v }
  | .sstride => { s with sstride := v }
  | .val => { s with val := v }

/-! ### Dither contexts and draws -/

/-- Dither context `DS[c]` (R26). Commands read it only after the check `c < NCH` (R133); beyond it the zero
context stands in. -/
def State.context (s : State) (c : CtxNum) : DitherCtx :=
  s.dither.getD c.toNat (DitherCtx.zero 0)

/-- Writes dither context `DS[c]`. -/
def State.setContext (s : State) (c : CtxNum) (d : DitherCtx) : State :=
  { s with dither := s.dither.set c.toNat d }

/-- `RND[k]` (R8): a word this run assumes, or past those the open sequence. -/
def State.rnd (s : State) (k : Nat) : Draw := s.rndKnown.getD k (Config.rnd k)

/-- What `DRAW()` returns (R100). -/
def State.nextDraw (s : State) : Draw := s.rnd s.rndIdx

/-- What `DRAW()` leaves: `rnd_idx <- rnd_idx + 1` (R100). -/
def State.drawn (s : State) : State := { s with rndIdx := s.rndIdx + 1 }

/-- A context at its reset value, its history size kept (R33, R111). -/
def DitherCtx.cleared (d : DitherCtx) : DitherCtx := DitherCtx.zero d.err.length

/-- Reset (R190): every piece of state at the value of R33; `MEM`, the parameters of the run and what the
outside world is about to do are not touched. -/
def State.applyReset (s : State) : State :=
  { s with
    src := 0
    dst := 0
    cnt := 0
    dstride := 0
    sstride := 0
    val := 0
    cmd := none
    dither := s.dither.map DitherCtx.cleared
    rndIdx := 0 }

/-! ### The element loop -/

/-- Processes `n` elements from element `i` on, in ascending order, each wholly before the next (R51). -/
def forElements (element : Nat → State → Result) : Nat → Nat → State → Result
  | 0, _, s => .next s
  | n + 1, i, s => andThen (element i s) (forElements element n (i + 1))

end Sys2Proof.Machine
end

