-- ==== Sys2Proof/Machine/Operands.lean ====
section
/-! DEFINITION. The operands of a command: where its elements stand (R44), which streams it has (R52), and
the checks it makes before it touches memory, in their order (R133, R173). -/

namespace Sys2Proof.Machine

/-! ### Element addresses, as mathematical integers without wrap (R44) -/

/-- Element `i` of a source stream of stride `w` fixed: `SRC + w * i`. -/
def srcFixed (w : Nat) (s : State) (i : Nat) : Nat := s.src.toNat + w * i

/-- Element `i` of a source stream whose stride is `SSTRIDE`. -/
def srcStrided (s : State) (i : Nat) : Nat := s.src.toNat + i * s.sstride.toNat

/-- Element `i` of a destination stream of stride `w` fixed: `DST + w * i`. -/
def dstFixed (w : Nat) (s : State) (i : Nat) : Nat := s.dst.toNat + w * i

/-- Element `i` of a destination stream whose stride is `DSTRIDE`. -/
def dstStrided (s : State) (i : Nat) : Nat := s.dst.toNat + i * s.dstride.toNat

/-! ### Streams -/

/-- A stream (R44); its count is the command's `CNT`. -/
structure Stream where
  /-- source or destination -/
  which : StreamId
  /-- the address of element 0 -/
  base : Nat
  /-- the distance in bytes between the starts of consecutive elements -/
  stride : Nat
  /-- the stride comes from a register (R45, R46: only then is it checked) -/
  fromRegister : Bool
  /-- the element width in bytes -/
  width : Nat
deriving DecidableEq, Repr

/-- The address of element `i` (R44). -/
def Stream.element (st : Stream) (i : Nat) : Nat := st.base + i * st.stride

/-- The source stream at `SRC` whose stride is its element width. -/
def fixedSource (s : State) (w : Nat) : Stream := ⟨.source, s.src.toNat, w, false, w⟩

/-- The source stream at `SRC` with the stride of `SSTRIDE`. -/
def stridedSource (s : State) (w : Nat) : Stream := ⟨.source, s.src.toNat, s.sstride.toNat, true, w⟩

/-- The destination stream at `DST` whose stride is its element width. -/
def fixedDest (s : State) (w : Nat) : Stream := ⟨.destination, s.dst.toNat, w, false, w⟩

/-- The destination stream at `DST` with the stride of `DSTRIDE`. -/
def stridedDest (s : State) (w : Nat) : Stream := ⟨.destination, s.dst.toNat, s.dstride.toNat, true, w⟩

/-- The streams of a command, the source stream first (R52). -/
def streamsOf (i : Instr) (s : State) : List Stream :=
  match i with
  | .f2i16 _ => [fixedSource s 4, stridedDest s 2]
  | .f2i24 _ => [fixedSource s 4, stridedDest s 4]
  | .f2i16Rect _ => [fixedSource s 4, stridedDest s 2]
  | .f2i24Rect _ => [fixedSource s 4, stridedDest s 4]
  | .f2i16Tri _ => [fixedSource s 4, stridedDest s 2]
  | .f2i24Tri _ => [fixedSource s 4, stridedDest s 4]
  | .f2i16Shp _ => [fixedSource s 4, stridedDest s 2]
  | .f2i24Shp _ => [fixedSource s 4, stridedDest s 4]
  | .fmrg16 => [fixedSource s 4, stridedDest s 2]
  | .fmrg24 => [fixedSource s 4, stridedDest s 4]
  | .i2f16 => [stridedSource s 2, fixedDest s 4]
  | .i2f24 => [stridedSource s 4, fixedDest s 4]
  | .fill8 => [stridedDest s 1]
  | .fill16 => [stridedDest s 2]
  | .fill32 => [stridedDest s 4]
  | .cpy16 => [stridedSource s 2, stridedDest s 2]
  | .cpy32 => [stridedSource s 4, stridedDest s 4]
  | .mcpy16 => [stridedSource s 2, stridedDest s 2]
  | .mcpy32 => [stridedSource s 4, stridedDest s 4]
  | .mcpyc16 => [fixedSource s 2, fixedDest s 2]
  | .mcpyc32 => [fixedSource s 4, fixedDest s 4]
  | .dclr _ => []

/-! ### The checks of R133 -/

/-- An address lies in `Owned` (R48). -/
def ownedByte (owned : List Extent) (a : Nat) : Bool :=
  owned.any fun e => e.base ≤ a && a < e.base + e.size

/-- Check 2: a used context number names a context (R65). -/
def contextViolation (i : Instr) (s : State) : Option Fault :=
  match usedContext i with
  | none => none
  | some c => if c.toNat < s.dither.length then none else some (.badContext c)

/-- Check 4 on one stream: a register stride is at least the element width (R45). -/
def strideViolation (st : Stream) : Option Fault :=
  if st.fromRegister && decide (st.stride < st.width) then some (.strideTooSmall st.which st.stride)
  else none

/-- Check 5 on one stream: the base, then a register stride, is a multiple of the element width (R46). -/
def alignViolation (st : Stream) : Option Fault :=
  if st.base % st.width ≠ 0 then some (.misaligned st.which st.base)
  else if st.fromRegister && decide (st.stride % st.width ≠ 0) then some (.misaligned st.which st.stride)
  else none

/-- Check 6 on one stream: the last element ends at or below 2^32 (R47). -/
def wrapViolation (cnt : Nat) (st : Stream) : Option Fault :=
  if Config.addressSpace < st.base + (cnt - 1) * st.stride + st.width then some (.addressWrap st.which)
  else none

/-- Check 7 on one element: the first byte of it that is not in `Owned`. -/
def elementExtent (owned : List Extent) (a width : Nat) : Option Fault :=
  (List.range width).findSome? fun j =>
    if ownedByte owned (a + j) then none else some (.outOfExtent (a + j))

/-- Check 7 on one stream: the first byte of an element that is not in `Owned` (R48). -/
def extentViolation (owned : List Extent) (cnt : Nat) (st : Stream) : Option Fault :=
  (List.range cnt).findSome? fun i => elementExtent owned (st.element i) st.width

/-- Checks 4 to 7 of R133, in that order, each over the streams with the source stream first (R173). -/
def operandViolation (owned : List Extent) (cnt : Nat) (streams : List Stream) : Option Fault :=
  ((streams.findSome? strideViolation).or (streams.findSome? alignViolation)).or
    ((streams.findSome? (wrapViolation cnt)).or (streams.findSome? (extentViolation owned cnt)))

/-- A command over its streams (R133): the context check, then nothing at all for `CNT = 0`, then the operand
checks, then the elements. -/
def runCommand (i : Instr) (element : Nat → State → Result) (s : State) : Result :=
  match contextViolation i s with
  | some f => .fault f
  | none =>
    if s.cnt = 0 then .next s
    else
      match operandViolation s.owned s.cnt.toNat (streamsOf i s) with
      | some f => .fault f
      | none => forElements element s.cnt.toNat 0 s

/-- A byte of an element of the stream stands at address `a`; used for what another agent touches (R54). -/
def Stream.covers (st : Stream) (cnt a : Nat) : Bool :=
  (List.range cnt).any fun i => st.element i ≤ a && a < st.element i + st.width

end Sys2Proof.Machine
end

