-- ==== Sys2Proof/Machine/Buffer.lean ====
section
/-! DEFINITION. The interleaved buffer commands (R150 to R159): strided fill, strided copy and strided
merge-copy. None interprets the elements it moves and none saturates (R158). -/

namespace Sys2Proof.Machine

/-- One element of a fill of width `w`: the low `8w` bits of `VAL` (R150 to R152). -/
def fillElement (w : Nat) (i : Nat) (s : State) : Result :=
  .next (s.store (dstStrided s i) w (s.val.toNat % 2 ^ (8 * w)))

/-- `FILL8` (R150). -/
def execFill8 (s : State) : Result := runCommand .fill8 (fillElement 1) s

/-- `FILL16` (R151). -/
def execFill16 (s : State) : Result := runCommand .fill16 (fillElement 2) s

/-- `FILL32` (R152). -/
def execFill32 (s : State) : Result := runCommand .fill32 (fillElement 4) s

/-- One element of a copy of width `w` (R153, R154). -/
def copyElement (w : Nat) (i : Nat) (s : State) : Result :=
  .next (s.store (dstStrided s i) w (s.load (srcStrided s i) w))

/-- `CPY16` (R153). -/
def execCpy16 (s : State) : Result := runCommand .cpy16 (copyElement 2) s

/-- `CPY32` (R154). -/
def execCpy32 (s : State) : Result := runCommand .cpy32 (copyElement 4) s

/-- One element of a strided merge-copy of width `w`: `WRAP(d + a)` (R155, R156). -/
def mergeCopyStrided (w : Nat) (i : Nat) (s : State) : Result :=
  let a := s.load (srcStrided s i) w
  let d := s.load (dstStrided s i) w
  .next (s.store (dstStrided s i) w (wrap (8 * w) (d + a)))

/-- `MCPY16` (R155). -/
def execMcpy16 (s : State) : Result := runCommand .mcpy16 (mergeCopyStrided 2) s

/-- `MCPY32` (R156). -/
def execMcpy32 (s : State) : Result := runCommand .mcpy32 (mergeCopyStrided 4) s

end Sys2Proof.Machine
end

