-- ==== Sys2Proof/Machine/Binary32.lean ====
section
/-! DEFINITION. Binary32 arithmetic on 32-bit patterns, exactly as R80 to R83 define it: the value of a finite
pattern is an integer times a power of two, every operation computes its exact result as such a number (a
quotient of two for `fdiv`) and rounds once, to nearest with ties to even. Then `ROUND` (R85). -/

namespace Sys2Proof.Machine

/-- The sign `s = b[31]` (R80): true for a negative pattern. -/
def signBit (b : Word) : Bool := b.getLsbD 31

/-- The exponent field `E = b[30:23]` (R80). -/
def expField (b : Word) : Nat := (b.extractLsb' 23 8).toNat

/-- The fraction field `T = b[22:0]` (R80). -/
def fracField (b : Word) : Nat := (b.extractLsb' 0 23).toNat

/-- A pattern is finite when it is no infinity and no NaN (R80, R91: `E = 255` is not finite). -/
def isFinite (b : Word) : Bool := expField b != 255

/-- The significand of a finite pattern as an integer: `T` for a zero or subnormal, `2^23 + T` for a normal
value (R80). -/
def significand (b : Word) : Nat :=
  if expField b = 0 then fracField b else 2 ^ 23 + fracField b

/-- The power of two that scales the significand: -149 for a zero or subnormal, `E - 150` for a normal value
(R80). -/
def scale (b : Word) : Int :=
  if expField b = 0 then -149 else (expField b : Int) - 150

/-- The significand with the sign of the pattern. -/
def signedSig (b : Word) : Int :=
  if signBit b then -(significand b : Int) else significand b

/-- `f32(b)`, the value of a finite pattern (R80), as a rational number. The operations below do not compute
with it; statements about them are made in terms of it. -/
def value (b : Word) : ℚ := signedSig b * (2 : ℚ) ^ scale b

/-- `-b`: the pattern with its sign inverted. -/
def fneg (b : Word) : Word := b ^^^ 0x80000000

/-- `num / den` to the nearest integer, a tie going to the even one (R81). -/
def divHalfEven (num den : Nat) : Nat :=
  let q := num / den
  let r := num % den
  if 2 * r < den then q
  else if den < 2 * r then q + 1
  else if q % 2 = 0 then q else q + 1

/-- `floor(log2(num / den * 2^exp))` for positive `num` and `den` (R81). -/
def floorLog2 (num den : Nat) (exp : Int) : Int :=
  let k : Int := (Nat.log2 num : Int) - (Nat.log2 den : Int)
  let atLeast : Bool := if 0 ≤ k then den * 2 ^ k.toNat ≤ num else den ≤ num * 2 ^ (-k).toNat
  (if atLeast then k else k - 1) + exp

/-- `|q| / 2^ulp` to the nearest integer, ties to even, for `|q| = num / den * 2^exp`: the `n` of R81. -/
def roundToUlp (num den : Nat) (exp ulp : Int) : Nat :=
  if ulp ≤ exp then divHalfEven (num * 2 ^ (exp - ulp).toNat) den
  else divHalfEven num (den * 2 ^ (ulp - exp).toNat)

/-- The pattern of `n * 2^ulp` without its sign, for `n <= 2^24` where `n < 2^23` only at the smallest `ulp`,
-149. Below `2^23` it is the subnormal `T = n`; from `2^23` on, `E = ulp + 150` and `T = n - 2^23`; for
`n = 2^24` the sum carries into the next exponent (R81: "the normal value 2^(e+1)"). From 2^128 on it is the
infinity. -/
def magnitudeBits (n : Nat) (ulp : Int) : Nat :=
  let m := (ulp + 149).toNat * 2 ^ 23 + n
  if 255 * 2 ^ 23 ≤ m then 255 * 2 ^ 23 else m

/-- `rnd32(q)` for `q = ± num / den * 2^exp`, not zero (R81). An overflow gives the infinity's pattern, which
no rule goes on with (R91). -/
def rnd32 (neg : Bool) (num den : Nat) (exp : Int) : Word :=
  let e := max (floorLog2 num den exp) (-126)
  let ulp := e - 23
  let mag := magnitudeBits (roundToUlp num den exp ulp) ulp
  BitVec.ofNat 32 (if neg then 2 ^ 31 + mag else mag)

/-- A zero with the given sign. -/
def zeroOf (neg : Bool) : Word := if neg then 0x80000000 else 0

/-- `fmul(a, b)` (R82). -/
def fmul (a b : Word) : Word :=
  let neg := signBit a != signBit b
  if significand a * significand b = 0 then zeroOf neg
  else rnd32 neg (significand a * significand b) 1 (scale a + scale b)

/-- `fdiv(a, b)`, `b` not zero (R82). -/
def fdiv (a b : Word) : Word :=
  let neg := signBit a != signBit b
  if significand a = 0 then zeroOf neg
  else rnd32 neg (significand a) (significand b) (scale a - scale b)

/-- The exact sum of two finite values as an integer times `2^(min (scale a) (scale b))`. -/
def exactSum (a b : Word) : Int :=
  let e := min (scale a) (scale b)
  signedSig a * (2 ^ (scale a - e).toNat : Nat) + signedSig b * (2 ^ (scale b - e).toNat : Nat)

/-- `fadd(a, b)` (R82): an exact sum of zero is -0 when both operands are -0 and +0 otherwise. -/
def fadd (a b : Word) : Word :=
  let m := exactSum a b
  if m = 0 then zeroOf (a = 0x80000000 ∧ b = 0x80000000)
  else rnd32 (m < 0) m.natAbs 1 (min (scale a) (scale b))

/-- `fsub(a, b) = fadd(a, -b)` (R82). -/
def fsub (a b : Word) : Word := fadd a (fneg b)

/-- The binary32 value nearest `m * 2^exp`, +0 for `m = 0`. -/
def ofScaled (m : Int) (exp : Int) : Word :=
  if m = 0 then 0 else rnd32 (m < 0) m.natAbs 1 exp

/-- `i2f(k)` (R83). -/
def i2f (k : Int) : Word := ofScaled k 0

/-- `floor(m / 2^k)` plus one or nothing, by the size of the rest and, on a tie, the parity (R85). -/
def roundShift (m : Int) (k : Nat) : Int :=
  let unit : Int := (2 ^ k : Nat)
  let n := m / unit
  let d := m % unit
  if 2 * d < unit then n
  else if unit < 2 * d then n + 1
  else if n % 2 = 0 then n else n + 1

/-- `ROUND(f)` for a finite pattern (R85): the nearest integer, a tie going to the even one. -/
def roundToInt (b : Word) : Int :=
  if 0 ≤ scale b then signedSig b * (2 ^ (scale b).toNat : Nat)
  else roundShift (signedSig b) (-scale b).toNat

/-- The result of an operation, or nothing where it is not finite (R91: the command then raises
`NonFinite`). -/
def finite? (b : Word) : Option Word := if isFinite b then some b else none

end Sys2Proof.Machine
end

