-- ==== Sys2Proof/Machine/Dither.lean ====
section
/-! DEFINITION. The dither sources and the per-channel state machine (R101 to R110), and the command `DCLR`
(R111). A generator takes the scaled sample `x` and answers the rounded value that is not yet clamped, or
nothing where a floating operation is not finite (R91). -/

namespace Sys2Proof.Machine

/-- The rectangular variate `u(w) = w * 2^-24` (R101). -/
def uniform (w : Draw) : Word := ofScaled w.toNat (-24)

/-- The triangular base variate `r(w) = (w - 2^23) * 2^-23` (R102). -/
def triangular (w : Draw) : Word := ofScaled ((w.toNat : Int) - 2 ^ 23) (-23)

/-- `e(k)`, the `k`-th newest error: `err[(idx - k) mod N]` (R106), `k <= 4 < N`. -/
def DitherCtx.tap (d : DitherCtx) (k : Nat) : Word :=
  d.err.getD ((d.idx + d.err.length - k) % d.err.length) 0

/-- The filtered error `fe` of R106: five products rounded singly, summed left to right. -/
def noiseFilter (d : DitherCtx) : Option Word := do
  let t0 ← finite? (fmul (d.tap 0) Config.c0)
  let t1 ← finite? (fmul (d.tap 1) Config.c1)
  let t2 ← finite? (fmul (d.tap 2) Config.c2)
  let t3 ← finite? (fmul (d.tap 3) Config.c3)
  let t4 ← finite? (fmul (d.tap 4) Config.c4)
  let f1 ← finite? (fsub t0 t1)
  let f2 ← finite? (fadd f1 t2)
  let f3 ← finite? (fsub f2 t3)
  finite? (fadd f3 t4)

/-- The position after `idx`, modulo `N` (R27, R107). -/
def DitherCtx.nextIdx (d : DitherCtx) : Nat := (d.idx + 1) % d.err.length

/-- `Q_NONE(x)` (R103). -/
def quantNone (x : Word) : Int := roundToInt x

/-- `Q_RECT(x)` with the draw `w` (R104). -/
def quantRect (x : Word) (w : Draw) : Option Int := do
  let xq ← finite? (fsub x (uniform w))
  some (roundToInt xq)

/-- `Q_TRI(x, c)` with the draw `w` on the context's value (R105). -/
def quantTri (x : Word) (w : Draw) (d : DitherCtx) : Option (Int × DitherCtx) := do
  let r := triangular w
  let diff ← finite? (fsub r d.prev)
  let xq ← finite? (fadd x diff)
  some (roundToInt xq, { d with prev := r })

/-- `Q_SHP(x, c)` with the draw `w` on the context's value (R107). -/
def quantShp (x : Word) (w : Draw) (d : DitherCtx) : Option (Int × DitherCtx) := do
  let r := triangular w
  let fe ← noiseFilter d
  let xe ← finite? (fsub x fe)
  let diff ← finite? (fsub r d.prev)
  let xq ← finite? (fadd xe diff)
  let y := roundToInt xq
  let newErr ← finite? (fsub (i2f y) xe)
  let j := d.nextIdx
  some (y, { prev := r, err := d.err.set j newErr, idx := j })

/-- `QUANT(x, DM, c)` (R108), with what it does to the context and to `rnd_idx` (R110). -/
def quantise (m : DitherMode) (c : CtxNum) (x : Word) (s : State) : Option (Int × State) :=
  match m with
  | .none => some (quantNone x, s)
  | .rect => do
    let y ← quantRect x s.nextDraw
    some (y, s.drawn)
  | .tri => do
    let (y, d) ← quantTri x s.nextDraw (s.context c)
    some (y, s.drawn.setContext c d)
  | .shp => do
    let (y, d) ← quantShp x s.nextDraw (s.context c)
    some (y, s.drawn.setContext c d)

/-- `DCLR ctx=c` (R111). -/
def execDclr (c : CtxNum) (s : State) : Result :=
  match contextViolation (.dclr c) s with
  | some f => .fault f
  | none => .next (s.setContext c (s.context c).cleared)

end Sys2Proof.Machine
end

