-- ==== Sys2Proof/Machine/Convert.lean ====
section
/-! DEFINITION. The format conversion commands (R120 to R130): float to integer in two widths and four dither
modes, and integer to float. -/

namespace Sys2Proof.Machine

/-- The floating sample of element `i`, `MemRead(SRC + 4*i, 4)`; nothing for an infinity or a NaN (R120). -/
def loadSample (i : Nat) (s : State) : Option Word :=
  finite? (BitVec.ofNat 32 (s.load (srcFixed 4 s i) 4))

/-- The scale of a container (R120: `K16` or `K24`). -/
def Container.factor : Container → Word
  | .int16 => Config.k16
  | .int24 => Config.k24

/-- The scaled sample `x = fmul(s, K)` of element `i`; nothing where it is not finite (R120). -/
def scaledSample (k : Container) (i : Nat) (s : State) : Option Word := do
  let b ← loadSample i s
  finite? (fmul b (Container.factor k))

/-- The width of a container in bytes (R43). -/
def Container.bytes : Container → Nat
  | .int16 => 2
  | .int24 => 4

/-- The bits a converter writes for the rounded value `y`: `WRAP_16(CLAMP_16(y))`, or
`WRAP_32(CLAMP_24(y) * 256)` (R120, R131). -/
def Container.pack (k : Container) (y : Int) : Nat :=
  match k with
  | .int16 => wrap 16 (clamp 16 y)
  | .int24 => wrap 32 (clamp 24 y * 256)

/-- One element of the float-to-integer loop (R120). -/
def convertElement (k : Container) (m : DitherMode) (c : CtxNum) (i : Nat) (s : State) : Result :=
  match scaledSample k i s with
  | none => .fault (.nonFinite i)
  | some x =>
    match quantise m c x s with
    | none => .fault (.nonFinite i)
    | some (y, t) => .next (t.store (dstStrided s i) (Container.bytes k) (Container.pack k y))

/-- `F2I16` (R121). -/
def execF2i16 (c : CtxNum) (s : State) : Result :=
  runCommand (.f2i16 c) (convertElement .int16 .none c) s

/-- `F2I16.RECT` (R122). -/
def execF2i16Rect (c : CtxNum) (s : State) : Result :=
  runCommand (.f2i16Rect c) (convertElement .int16 .rect c) s

/-- `F2I16.TRI` (R123). -/
def execF2i16Tri (c : CtxNum) (s : State) : Result :=
  runCommand (.f2i16Tri c) (convertElement .int16 .tri c) s

/-- `F2I16.SHP` (R124). -/
def execF2i16Shp (c : CtxNum) (s : State) : Result :=
  runCommand (.f2i16Shp c) (convertElement .int16 .shp c) s

/-- `F2I24` (R125). -/
def execF2i24 (c : CtxNum) (s : State) : Result :=
  runCommand (.f2i24 c) (convertElement .int24 .none c) s

/-- `F2I24.RECT` (R126). -/
def execF2i24Rect (c : CtxNum) (s : State) : Result :=
  runCommand (.f2i24Rect c) (convertElement .int24 .rect c) s

/-- `F2I24.TRI` (R127). -/
def execF2i24Tri (c : CtxNum) (s : State) : Result :=
  runCommand (.f2i24Tri c) (convertElement .int24 .tri c) s

/-- `F2I24.SHP` (R128). -/
def execF2i24Shp (c : CtxNum) (s : State) : Result :=
  runCommand (.f2i24Shp c) (convertElement .int24 .shp c) s

/-- The binary32 pattern a 16-bit container is converted to (R129). -/
def float16 (v : Nat) : Word := fdiv (i2f (sext 16 v)) Config.k16

/-- The binary32 pattern a 24-in-32 container is converted to (R130). -/
def float24 (v : Nat) : Word := fdiv (i2f (asr8 (sext 32 v))) Config.k24

/-- One element of `I2F16` (R129). -/
def floatElement16 (i : Nat) (s : State) : Result :=
  .next (s.store (dstFixed 4 s i) 4 (float16 (s.load (srcStrided s i) 2)).toNat)

/-- One element of `I2F24` (R130). -/
def floatElement24 (i : Nat) (s : State) : Result :=
  .next (s.store (dstFixed 4 s i) 4 (float24 (s.load (srcStrided s i) 4)).toNat)

/-- `I2F16` (R129). -/
def execI2f16 (s : State) : Result := runCommand .i2f16 floatElement16 s

/-- `I2F24` (R130). -/
def execI2f24 (s : State) : Result := runCommand .i2f24 floatElement24 s

end Sys2Proof.Machine
end

