-- ==== Sys2Proof/Machine/Merge.lean ====
section
/-! DEFINITION. The channel merge commands (R140 to R145): two float merges, the 16-bit one saturating and the
24-in-32 one wrapping, and two contiguous integer merge-copies. -/

namespace Sys2Proof.Machine

/-- The 16-bit pattern after merging the rounded sample `y` into the pattern `d`:
`WRAP_16(CLAMP_16(d + CLAMP_16(y)))` (R140). -/
def mergeInto16 (d : Nat) (y : Int) : Nat := wrap 16 (satAdd16 (sext 16 d) (clamp 16 y))

/-- The 32-bit pattern after merging the rounded sample `y` into the pattern `d`:
`WRAP_32(d + CLAMP_24(y) * 256)` (R141). -/
def mergeInto24 (d : Nat) (y : Int) : Nat := wrap 32 (d + clamp 24 y * 256)

/-- One element of `FMRG16` (R140). The incoming sample takes no dither (R145). -/
def mergeElement16 (i : Nat) (s : State) : Result :=
  match scaledSample .int16 i s with
  | none => .fault (.nonFinite i)
  | some x =>
    .next (s.store (dstStrided s i) 2 (mergeInto16 (s.load (dstStrided s i) 2) (roundToInt x)))

/-- One element of `FMRG24` (R141). -/
def mergeElement24 (i : Nat) (s : State) : Result :=
  match scaledSample .int24 i s with
  | none => .fault (.nonFinite i)
  | some x =>
    .next (s.store (dstStrided s i) 4 (mergeInto24 (s.load (dstStrided s i) 4) (roundToInt x)))

/-- `FMRG16` (R140). -/
def execFmrg16 (s : State) : Result := runCommand .fmrg16 mergeElement16 s

/-- `FMRG24` (R141). -/
def execFmrg24 (s : State) : Result := runCommand .fmrg24 mergeElement24 s

/-- One element of a contiguous merge-copy of width `w`: `MemWrite(DST + w*i, w, WRAP(d + a))` (R142,
R143). -/
def mergeCopyFixed (w : Nat) (i : Nat) (s : State) : Result :=
  let a := s.load (srcFixed w s i) w
  let d := s.load (dstFixed w s i) w
  .next (s.store (dstFixed w s i) w (wrap (8 * w) (d + a)))

/-- `MCPYC16` (R142). -/
def execMcpyc16 (s : State) : Result := runCommand .mcpyc16 (mergeCopyFixed 2) s

/-- `MCPYC32` (R143). -/
def execMcpyc32 (s : State) : Result := runCommand .mcpyc32 (mergeCopyFixed 4) s

end Sys2Proof.Machine
end

