-- ==== Sys2Proof/Machine/Dispatch.lean ====
section
/-! DEFINITION. One arm for each command of R67. -/

namespace Sys2Proof.Machine

/-- The meaning of a command (R67). -/
def exec (i : Instr) (s : State) : Host.Outcome State Fault Refusal :=
  match i with
  | .f2i16 c => Sys2Proof.Machine.execF2i16 c s
  | .f2i24 c => Sys2Proof.Machine.execF2i24 c s
  | .f2i16Rect c => Sys2Proof.Machine.execF2i16Rect c s
  | .f2i24Rect c => Sys2Proof.Machine.execF2i24Rect c s
  | .f2i16Tri c => Sys2Proof.Machine.execF2i16Tri c s
  | .f2i24Tri c => Sys2Proof.Machine.execF2i24Tri c s
  | .f2i16Shp c => Sys2Proof.Machine.execF2i16Shp c s
  | .f2i24Shp c => Sys2Proof.Machine.execF2i24Shp c s
  | .fmrg16 => Sys2Proof.Machine.execFmrg16 s
  | .fmrg24 => Sys2Proof.Machine.execFmrg24 s
  | .i2f16 => Sys2Proof.Machine.execI2f16 s
  | .i2f24 => Sys2Proof.Machine.execI2f24 s
  | .fill8 => Sys2Proof.Machine.execFill8 s
  | .fill16 => Sys2Proof.Machine.execFill16 s
  | .fill32 => Sys2Proof.Machine.execFill32 s
  | .cpy16 => Sys2Proof.Machine.execCpy16 s
  | .cpy32 => Sys2Proof.Machine.execCpy32 s
  | .mcpy16 => Sys2Proof.Machine.execMcpy16 s
  | .mcpy32 => Sys2Proof.Machine.execMcpy32 s
  | .mcpyc16 => Sys2Proof.Machine.execMcpyc16 s
  | .mcpyc32 => Sys2Proof.Machine.execMcpyc32 s
  | .dclr c => Sys2Proof.Machine.execDclr c s

end Sys2Proof.Machine
end

