-- ==== Sys2Proof/Machine/Bus.lean ====
section
/-! DEFINITION. What happens at the block's edge: the host's actions between commands (R22, R23, R60, R190),
the issue of a command (R23, R68), and what other agents do while it runs (R54). -/

namespace Sys2Proof.Machine

/-- The registers of the window (R60). -/
inductive WindowReg where
  | operand (r : OperandReg)
  | cmd
deriving DecidableEq, Repr

/-- The register at an offset of the window (R60: "`x[i]` stands at offset `4 * i`", `CMD` at `0x18`). -/
def windowReg? (offset : Nat) : Option WindowReg :=
  if offset = 0x00 then some (.operand .src)
  else if offset = 0x04 then some (.operand .dst)
  else if offset = 0x08 then some (.operand .cnt)
  else if offset = 0x0C then some (.operand .dstride)
  else if offset = 0x10 then some (.operand .sstride)
  else if offset = 0x14 then some (.operand .val)
  else if offset = 0x18 then some .cmd
  else none

/-- The register an access at a host address reaches with the window at `base`: whole, aligned 32-bit words
only (R60). -/
def windowAccess? (base addr width : Nat) : Option WindowReg :=
  if width = 4 ∧ base ≤ addr then windowReg? (addr - base) else none

/-- A host write to the register window (R60): an operand register stores the value; `CMD` takes the word
and holds it until its command completes (R23). -/
def windowWrite (addr width : Nat) (v : Word) (s : State) : Result :=
  match windowAccess? s.sfcBase addr width with
  | some (.operand r) => .next (s.writeReg r v)
  | some .cmd => .next { s with cmd := some v }
  | none => .refused (.windowAccess addr width)

/-- A host read from the register window (R60): an operand register gives its value, `CMD` gives 0. -/
def windowRead (addr width : Nat) (s : State) : Result :=
  match windowAccess? s.sfcBase addr width with
  | some (.operand r) => .next { s with readData := s.readReg r }
  | some .cmd => .next { s with readData := 0 }
  | none => .refused (.windowAccess addr width)

/-- One action of the host between commands. -/
def hostEvent (e : HostEvent) (s : State) : Result :=
  match e with
  | .write addr width v => windowWrite addr width v s
  | .read addr width => windowRead addr width s
  | .memWrite a v => .next { s with mem := Memory.writeByte s.mem a.toNat v }
  | .memRead a => .next { s with readData := (Memory.readByte s.mem a.toNat).setWidth 32 }
  | .own extents => .next { s with owned := extents }
  | .reset => .next s.applyReset

/-- The dither context that command `i` has in use while it runs. A command over streams uses none with `CNT = 0`,
where it completes at once (R133) and only the first two kinds of violation can arise (R173); `DCLR`, which has no
stream, does not read `CNT` (R111). -/
def contextInUse (i : Instr) (s : State) : Option CtxNum :=
  if s.cnt = 0 ∧ streamsOf i s ≠ [] then none else usedContext i

/-- Another agent's action is against the contract of command `i`: it touches a byte of a stream (R54), but for
another instance's read of a byte that the command only reads (R180: "unless both only read them"), or it uses the
command's context (R54). -/
def conflicts (i : Instr) (s : State) (o : Overlap) : Bool :=
  match o with
  | .memRead a => (streamsOf i s).any fun st => st.covers s.cnt.toNat a.toNat
  | .memWrite a _ => (streamsOf i s).any fun st => st.covers s.cnt.toNat a.toNat
  | .instanceRead a =>
    (streamsOf i s).any fun st => decide (st.which = .destination) && st.covers s.cnt.toNat a.toNat
  | .context c => contextInUse i s = some c
  | .reset => false

/-- What another agent's action that is no conflict leaves behind: the byte it writes, which does not belong to the
command (R54), so that it does not matter when in the command it lands. What a command in flight on another context
would do to that context is not in the spec; the model leaves every context as the running command leaves it
(DESIGN CHOICE, assumption log 22). -/
def applyOverlap (s : State) (o : Overlap) : State :=
  match o with
  | .memRead _ => s
  | .memWrite a v => { s with mem := Memory.writeByte s.mem a.toNat v }
  | .instanceRead _ => s
  | .context _ => s
  | .reset => s

/-- Takes the word out of `CMD` (R23: "`CMD` holds nothing afterwards") and the overlapping actions out of the
environment. -/
def State.retire (s : State) : State := { s with cmd := none, during := [] }

/-- The issued command and what overlaps it: the command's own answer first, then a conflict (R54; assumption
log 9). -/
def runIssued (i : Instr) (s : State) : Result :=
  andThen (exec i s.retire) fun t =>
    if s.during.any (conflicts i s) then .fault .concurrentAccess
    else .next (s.during.foldl applyOverlap t)

/-- The command of the word in `CMD` (R23): a reserved word is a violation (R68), a reset during a command is
not accepted (R190). -/
def issue (c : Word) (s : State) : Result :=
  match decode c with
  | .error _ => .fault (.illegalCommand c)
  | .ok i => if Overlap.reset ∈ s.during then .refused .resetDuringCommand else runIssued i s

end Sys2Proof.Machine
end

