-- ==== Sys2Proof/Machine/Step.lean ====
section
/-! DEFINITION. One step. The SFC fetches nothing (R24): its next command is the word the host's write left in
`CMD` (R23). -/

namespace Sys2Proof.Machine

/-- One step: the command in `CMD` runs to completion; with `CMD` empty, the host's next action happens; with
none to come, the block is idle and holds its state (R182). -/
def step (s : State) : Host.Outcome State Fault Refusal :=
  match s.cmd with
  | some c => issue c s
  | none =>
    match s.host with
    | [] => .next s
    | e :: rest => hostEvent e { s with host := rest }

/-- `s` with an instruction's bits in `CMD`, where the next step finds its command. -/
def State.withFetchWord (s : State) (nbits w : Nat) : State :=
  { s with cmd := some (BitVec.ofNat 32 (w % 2 ^ nbits)) }

end Sys2Proof.Machine
end

