-- ==== Sys2Proof/Machine/Program.lean ====
section
/-! DEFINITION. Host programs in the form of R71 and R72: statements, and the bus writes each stands for, as pairs of
an offset from `SFC_BASE` and a value. A program reaches the block only as those writes, which the host makes one
after another (`State.host`). -/

namespace Sys2Proof.Machine

/-- The offset of an operand register in the window (R60: "Register `x[i]` stands at offset `4 * i`"). -/
def OperandReg.offset : OperandReg → Nat
  | .src => 0x00
  | .dst => 0x04
  | .cnt => 0x08
  | .dstride => 0x0C
  | .sstride => 0x10
  | .val => 0x14

/-- One line of a host program. -/
inductive ProgramLine where
  /-- `SET <reg>, <value>` (R71) -/
  | set (r : OperandReg) (v : Word)
  /-- `<MNEMONIC>` or `<MNEMONIC> ctx=<c>` (R71); without `ctx=` the context number is 0 -/
  | command (i : Instr)
  /-- the operand-list form: a command followed by `name=value` pairs (R72) -/
  | withOperands (i : Instr) (operands : List (OperandReg × Word))
deriving DecidableEq, Repr

/-- A bus write: the offset from `SFC_BASE` and the value (R71). -/
abbrev BusWrite := Nat × Word

/-- The bus write of `SET` (R71). -/
def setWrite (r : OperandReg) (v : Word) : BusWrite := (OperandReg.offset r, v)

/-- The bus write of a command (R71): its word, to `CMD`. -/
def commandWrite (i : Instr) : BusWrite := (0x18, encode i)

/-- The bus writes of a line; an operand list is one `SET` per pair in the order written, then the command (R72). -/
def ProgramLine.writes : ProgramLine → List BusWrite
  | .set r v => [setWrite r v]
  | .command i => [commandWrite i]
  | .withOperands i operands => (operands.map fun p => setWrite p.1 p.2) ++ [commandWrite i]

/-- The encoding of a program: its bus writes in order (R71). -/
def programWrites (p : List ProgramLine) : List BusWrite := p.flatMap ProgramLine.writes

/-- The host's actions that make these bus writes, with the window at `base` (R8, R60). -/
def hostWrites (base : Nat) (writes : List BusWrite) : List HostEvent :=
  writes.map fun w => .write (base + w.1) 4 w.2

end Sys2Proof.Machine
end

