-- ==== Sys2Proof/WellFormed.lean ====
section
/-! DEFINITION. Which commands are well formed on a block of `nch` dither contexts. Every constructor's
field already fits its place in the command word (`CTX` has 8 bits), so the one condition the spec puts on a
command by itself is that a context number that is used names a context (R65). -/

namespace Sys2Proof

/-- A command is well formed on a block of `nch` contexts when the context it uses, if it uses one, is one
of them (R65: "`CTX < NCH` is required"). -/
def Instr.wellFormed (nch : Nat) (i : Instr) : Bool :=
  match usedContext i with
  | none => true
  | some c => c.toNat < nch

end Sys2Proof
end

