-- ==== Sys2Proof/Safety.lean ====
section
/-! DEFINITION. The terms claims are made in: when a use of a command is inside the contract (R45 to R48, R65),
the invariant of the states a run can be in (R27), and what a run without a violation is (R171). -/

namespace Sys2Proof.Machine

/-- A stream of `cnt >= 1` elements is inside the contract: a register stride is at least the element width
(R45), base and register stride are multiples of it (R46), the last element ends at or below 2^32 (R47), and
every byte of every element is in `Owned` (R48). -/
abbrev StreamLegal (owned : List Extent) (cnt : Nat) (st : Stream) : Prop :=
  (st.fromRegister = true → st.width ≤ st.stride) ∧
  st.base % st.width = 0 ∧
  (st.fromRegister = true → st.stride % st.width = 0) ∧
  st.base + (cnt - 1) * st.stride + st.width ≤ 2 ^ 32 ∧
  ∀ k < cnt, ∀ j < st.width, ownedByte owned (st.element k + j) = true

/-- A command is inside the contract on a state: the context it uses exists (R65) and, unless `CNT = 0`, each
of its streams is legal (R133). -/
abbrev Legal (i : Instr) (s : State) : Prop :=
  i.wellFormed s.dither.length = true ∧
  (s.cnt ≠ 0 → ∀ st ∈ streamsOf i s, StreamLegal s.owned s.cnt.toNat st)

/-- The address of destination element `k`, by the rule of each command (R52); `DCLR` stores nothing. -/
def destElement (i : Instr) (s : State) (k : Nat) : Nat :=
  match i with
  | .f2i16 _ => dstStrided s k
  | .f2i24 _ => dstStrided s k
  | .f2i16Rect _ => dstStrided s k
  | .f2i24Rect _ => dstStrided s k
  | .f2i16Tri _ => dstStrided s k
  | .f2i24Tri _ => dstStrided s k
  | .f2i16Shp _ => dstStrided s k
  | .f2i24Shp _ => dstStrided s k
  | .fmrg16 => dstStrided s k
  | .fmrg24 => dstStrided s k
  | .i2f16 => dstFixed 4 s k
  | .i2f24 => dstFixed 4 s k
  | .fill8 => dstStrided s k
  | .fill16 => dstStrided s k
  | .fill32 => dstStrided s k
  | .cpy16 => dstStrided s k
  | .cpy32 => dstStrided s k
  | .mcpy16 => dstStrided s k
  | .mcpy32 => dstStrided s k
  | .mcpyc16 => dstFixed 2 s k
  | .mcpyc32 => dstFixed 4 s k
  | .dclr _ => 0

/-- The width in bytes of a destination element (R52); 0 for `DCLR`, which stores nothing. -/
def destWidth : Instr → Nat
  | .f2i16 _ => 2
  | .f2i24 _ => 4
  | .f2i16Rect _ => 2
  | .f2i24Rect _ => 4
  | .f2i16Tri _ => 2
  | .f2i24Tri _ => 4
  | .f2i16Shp _ => 2
  | .f2i24Shp _ => 4
  | .fmrg16 => 2
  | .fmrg24 => 4
  | .i2f16 => 4
  | .i2f24 => 4
  | .fill8 => 1
  | .fill16 => 2
  | .fill32 => 4
  | .cpy16 => 2
  | .cpy32 => 4
  | .mcpy16 => 2
  | .mcpy32 => 4
  | .mcpyc16 => 2
  | .mcpyc32 => 4
  | .dclr _ => 0

/-- Address `a` is in no destination element of the command (R49: bytes between elements are not written). -/
abbrev Unstored (i : Instr) (s : State) (a : Nat) : Prop :=
  ∀ k < s.cnt.toNat, a < destElement i s k ∨ destElement i s k + destWidth i ≤ a

/-- `prev` lies in [-1, 1) (R27): a magnitude below 1.0, whose pattern is `0x3F800000`, or the pattern of
-1.0. -/
def prevInRange (b : Word) : Bool := b.toNat % 2 ^ 31 < 0x3F800000 || b == 0xBF800000

/-- The invariants of a context with a history of `n` entries (R27): `idx < n`, `prev` in [-1, 1), every error
finite. -/
def DitherCtx.wf (n : Nat) (d : DitherCtx) : Bool :=
  d.err.length == n && d.idx < n && prevInRange d.prev && d.err.all isFinite

/-- The history size is a power of two, at least 8 (R7). -/
def historySizeOk (n : Nat) : Bool := 8 ≤ n && n &&& (n - 1) == 0

/-- `N`, the history size of a block: the contexts of one block share it (R26). -/
def State.historySize (s : State) : Nat := (s.context 0).err.length

/-- The invariant of a state: `MEM` in canonical form, 1 to 256 contexts (R8), one history size for all of
them (R7), and each context as R27 says. -/
def State.inv (s : State) : Bool :=
  Memory.wf s.mem && 1 ≤ s.dither.length && s.dither.length ≤ 256 &&
  historySizeOk s.historySize && s.dither.all (DitherCtx.wf s.historySize)

/-- `k` steps from `s` end in `t` with no fault and no refusal on the way: a good run in the sense of R171. -/
def GoodRun (k : Nat) (s t : State) : Prop := Host.Core.run core k s = .next t

/-- `t` can be reached from `s` by a good run. -/
def Reaches (s t : State) : Prop := ∃ k, GoodRun k s t

/-- The code a model reports for a violation (R171). -/
def Fault.code : Fault → Nat
  | .illegalCommand _ => 1
  | .badContext _ => 2
  | .strideTooSmall _ _ => 3
  | .misaligned _ _ => 4
  | .addressWrap _ => 5
  | .outOfExtent _ => 6
  | .nonFinite _ => 7
  | .concurrentAccess => 8

end Sys2Proof.Machine
end

