-- ==== Sys2Proof/Certificates/Slice0/Obligations.lean ====
section
/-! DEFINITION. The statements about the SFC. Section by section: the command word, the block's edge and the
step, the checks before a command touches memory, what commands leave alone, what each command does, whole-machine
rules, and the arithmetic.

In all of them a state is any `State`: any number of contexts, any history size, any known or open `RND`, any
`Owned` (R8), unless a hypothesis says otherwise. Hypotheses on memory ask for its canonical form, which every
step keeps (`Obligations.StepKeepsInvariant`). -/

open Sys2Proof Sys2Proof.Machine

namespace Sys2Proof.Claims

/-- The state with `CNT = k`. -/
def withCount (s : State) (k : Nat) : State := { s with cnt := BitVec.ofNat 32 k }

/-- `t` is `s` but for memory: every register, context, draw and parameter is unchanged. -/
def MemoryOnly (s t : State) : Prop := t = { s with mem := t.mem }

/-- After the command from `s` to `t`, element `k` of the `w`-byte elements at `addr` holds `v k`, and every byte
outside those elements reads as before. -/
def StoresExactly (s t : State) (addr : State → Nat → Nat) (w : Nat) (v : Nat → Nat) : Prop :=
  (∀ k < s.cnt.toNat, t.load (addr s k) w = v k) ∧
  ∀ a, (∀ k < s.cnt.toNat, a < addr s k ∨ addr s k + w ≤ a) →
    Memory.readByte t.mem a = Memory.readByte s.mem a

/-- The same where element `k` is computed from what the first `k` elements left (R51): `u` is the state after
the same command with `CNT = k`, and element `k` holds `v u k`. -/
def StoresInOrder (i : Instr) (s t : State) (addr : State → Nat → Nat) (w : Nat) (v : State → Nat → Nat) :
    Prop :=
  (∀ k < s.cnt.toNat, ∃ u, exec i (withCount s k) = .next u ∧ t.load (addr s k) w = v u k) ∧
  ∀ a, (∀ k < s.cnt.toNat, a < addr s k ∨ addr s k + w ≤ a) →
    Memory.readByte t.mem a = Memory.readByte s.mem a

/-- The floating sample word of element `k` (R120). -/
def sampleWord (s : State) (k : Nat) : Word := BitVec.ofNat 32 (s.load (srcFixed 4 s k) 4)

/-- Sample `k` is finite and so is its product with the scale (R91). -/
def SampleFinite (factor : Word) (s : State) (k : Nat) : Prop :=
  isFinite (sampleWord s k) = true ∧ isFinite (fmul (sampleWord s k) factor) = true

/-- Every sample is finite and so is its product with the scale. -/
def SamplesFinite (factor : Word) (s : State) : Prop := ∀ k < s.cnt.toNat, SampleFinite factor s k

/-- No element of the destination, of `w` bytes, is stored over the sample of a later element. Streams that do
not overlap meet this, and so do the two in-place cases of R134. A command of one element meets it always, and
`Obligations.TwoHalvesMakeTheWhole` puts a command together from such commands whatever the overlap, so the other
overlapping streams (R51) are covered by the two together. -/
def SourceIntact (w : Nat) (s : State) : Prop :=
  ∀ k < s.cnt.toNat, ∀ j < k,
    dstStrided s j + w ≤ srcFixed 4 s k ∨ srcFixed 4 s k + 4 ≤ dstStrided s j

/-- The scaled sample `x` of element `k` (R120). -/
def scaled (factor : Word) (s : State) (k : Nat) : Word := fmul (sampleWord s k) factor

/-- The word of `RND` that sample `k` of a dithered command draws (R112). -/
def drawOf (s : State) (k : Nat) : Draw := s.rnd (s.rndIdx + k)

/-- `DS[c].prev` when sample `k` of a triangular command is processed (R105): at first the context's own, then
the variate of the sample before. -/
def prevBefore (s : State) (c : CtxNum) (k : Nat) : Word :=
  if k = 0 then (s.context c).prev else triangular (drawOf s (k - 1))

/-- The filtered error of R106, written out: `e(k)` stands at position `(idx - k) mod N`. -/
def filteredError (d : DitherCtx) : Word :=
  let e (k : Nat) : Word := d.err.getD ((d.idx + d.err.length - k) % d.err.length) 0
  fadd (fsub (fadd (fsub (fmul (e 0) Config.c0) (fmul (e 1) Config.c1)) (fmul (e 2) Config.c2))
    (fmul (e 3) Config.c3)) (fmul (e 4) Config.c4)

/-- Every intermediate result of the filter is finite. -/
def FilterFinite (d : DitherCtx) : Prop :=
  let e (k : Nat) : Word := d.err.getD ((d.idx + d.err.length - k) % d.err.length) 0
  let t0 := fmul (e 0) Config.c0
  let t1 := fmul (e 1) Config.c1
  let t2 := fmul (e 2) Config.c2
  let t3 := fmul (e 3) Config.c3
  let t4 := fmul (e 4) Config.c4
  ∀ f ∈ [t0, t1, t2, t3, t4, fsub t0 t1, fadd (fsub t0 t1) t2, fsub (fadd (fsub t0 t1) t2) t3,
    fadd (fsub (fadd (fsub t0 t1) t2) t3) t4], isFinite f = true

/-- `xe` of R107: the error-filtered, unperturbed sample. -/
def shapedSample (x : Word) (d : DitherCtx) : Word := fsub x (filteredError d)

/-- `y` of R107, the rounded perturbed sample before clamping. -/
def shapedValue (x : Word) (w : Draw) (d : DitherCtx) : Int :=
  roundToInt (fadd (shapedSample x d) (fsub (triangular w) d.prev))

/-- The context after one noise-shaped sample (R107). -/
def shapedContext (x : Word) (w : Draw) (d : DitherCtx) : DitherCtx where
  prev := triangular w
  err := d.err.set ((d.idx + 1) % d.err.length) (fsub (i2f (shapedValue x w d)) (shapedSample x d))
  idx := (d.idx + 1) % d.err.length

/-- Every floating operation of R107 on this sample, draw and context is finite (R91). -/
def ShapingFinite (x : Word) (w : Draw) (d : DitherCtx) : Prop :=
  FilterFinite d ∧
  ∀ f ∈ [shapedSample x d, fsub (triangular w) d.prev,
    fadd (shapedSample x d) (fsub (triangular w) d.prev),
    fsub (i2f (shapedValue x w d)) (shapedSample x d)], isFinite f = true

/-- The context that sample `k` of a noise-shaped command sees. -/
def contextBefore (factor : Word) (s : State) (c : CtxNum) : Nat → DitherCtx
  | 0 => s.context c
  | k + 1 => shapedContext (scaled factor s k) (drawOf s k) (contextBefore factor s c k)

/-- A stream's stride in a command, by which half-blocks are told apart (R110); 0 where the command has no such
stream. -/
def strideOf (i : Instr) (s : State) (which : StreamId) : Nat :=
  match (streamsOf i s).find? fun st => st.which = which with
  | some st => st.stride
  | none => 0

/-- The operands of the second of two commands on the halves of a block whose first half has `m` elements: both
pointers moved on, the rest of the count (R110). -/
def secondHalf (i : Instr) (s t : State) (m : Nat) : State :=
  { t with
    src := s.src + BitVec.ofNat 32 (m * strideOf i s .source)
    dst := s.dst + BitVec.ofNat 32 (m * strideOf i s .destination)
    cnt := BitVec.ofNat 32 (s.cnt.toNat - m) }

/-- Two contexts, perhaps of different history sizes, that hold the same `prev` and the same five newest errors
(R113). -/
def SameRecent (d e : DitherCtx) : Prop :=
  8 ≤ d.err.length ∧ 8 ≤ e.err.length ∧ d.idx < d.err.length ∧ e.idx < e.err.length ∧
  d.prev = e.prev ∧
  ∀ k < 5, d.err.getD ((d.idx + d.err.length - k) % d.err.length) 0 =
    e.err.getD ((e.idx + e.err.length - k) % e.err.length) 0

/-- The blocks `s` and `s'` differ only in their contexts, which agree as far as any command looks. -/
def SameButHistorySize (s s' : State) : Prop :=
  s' = { s with dither := s'.dither } ∧ s'.dither.length = s.dither.length ∧
  ∀ c : CtxNum, c.toNat < s.dither.length → SameRecent (s.context c) (s'.context c)

/-- `r` is a finite pattern nearest the exact value `q`, a tie going to an even significand (R81). -/
def Nearest (q : ℚ) (r : Word) : Prop :=
  isFinite r = true ∧
  ∀ z, isFinite z = true → |value r - q| ≤ |value z - q| ∧
    (|value r - q| = |value z - q| → value z ≠ value r → significand r % 2 = 0)

end Sys2Proof.Claims

open Sys2Proof.Claims

/-! ### The command word -/

/-- Decoding and encoding agree in both directions: a word decodes to a command exactly when it is that command's
word. No bit is dropped, and no second word means the same command with the same context field. -/
def Obligations.DecodeAgreesWithEncode : Prop :=
  ∀ (c : Word) (i : Instr), decode c = .ok i ↔ encode i = c

/-- The decoder, which reads the fields of R61, accepts exactly the words of the rows of R67, as the command of
the row that covers the word; no two rows cover one word. -/
def Obligations.DecoderAcceptsTheOpcodeMap : Prop :=
  (∀ c : Word, (∃ i, decode c = .ok i) ↔ ∃ r ∈ opcodeRows, r.covers c = true) ∧
  (∀ (c : Word) (i : Instr) (r : OpcodeRow), decode c = .ok i → r ∈ opcodeRows → r.covers c = true →
    r.mnemonic = mnemonic i) ∧
  ∀ c : Word, ∀ r ∈ opcodeRows, ∀ r' ∈ opcodeRows, r.covers c = true → r'.covers c = true → r = r'

/-- R68: the words that match no row are the ones its list names by their fields, and writing one to `CMD` is the
violation `IllegalCommand`, raised by the step that finds the word in `CMD`. That this is a step of its own, after the host's write, is the model's choice
(assumption log 5); R68 has the `CMD` write raise it. -/
def Obligations.ReservedWordsFault : Prop :=
  ∀ c : Word,
    let opc := fieldOpc c
    let w := fieldW c
    let named : Prop :=
      fieldZero c ≠ 0 ∨ opc = 0 ∨ 9 ≤ opc.toNat ∨ w = 3 ∨ (w = 0 ∧ opc ≠ 4 ∧ opc ≠ 8) ∨
      (opc = 8 ∧ (w ≠ 0 ∨ fieldDm c ≠ 0)) ∨ (fieldDm c ≠ 0 ∧ opc ≠ 1) ∨
      (fieldCtx c ≠ 0 ∧ 2 ≤ opc.toNat ∧ opc.toNat ≤ 7)
    ((∀ r ∈ opcodeRows, r.covers c = false) ↔ named) ∧
    ∀ s : State, s.cmd = some c → (step s = .fault (.illegalCommand c) ↔ named)

/-- A word with a bit of `ZERO` set is no command, and no command's word has one set (R66). That the decoder names
`ZERO` as the reason, whatever else is reserved in the word, is the model's choice (assumption log 20). -/
def Obligations.ZeroFieldMustBeZero : Prop :=
  (∀ c : Word, fieldZero c ≠ 0 → decode c = .error .zeroField) ∧ ∀ i : Instr, fieldZero (encode i) = 0

/-- Words written out from R67 and from the decode vectors, and what they decode to. -/
def Obligations.SpecWordsDecode : Prop :=
  decode 0x00000319 = .ok (.f2i16Tri 3) ∧ decode 0x00000022 = .ok .fmrg24 ∧
  decode 0x00000031 = .ok .i2f16 ∧ decode 0x00000042 = .ok .fill32 ∧ decode 0x00000051 = .ok .cpy16 ∧
  decode 0x00000062 = .ok .mcpy32 ∧ decode 0x00000071 = .ok .mcpyc16 ∧ decode 0x00000180 = .ok (.dclr 1) ∧
  decode 0x0000FF16 = .ok (.f2i24Rect 255)

/-! ### The block's edge and the step -/

/-- A step runs the decoded command: with the command's word in `CMD` and no other agent at work, the step is
`exec` on the state whose `CMD` holds nothing. -/
def Obligations.StepRunsTheDecodedCommand : Prop :=
  ∀ (s : State) (c : Word) (i : Instr), s.cmd = some c → decode c = .ok i → s.during = [] →
    step s = exec i { s with cmd := none }

/-- The host's write of a word to `CMD`, at `SFC_BASE + 0x18`, leaves it there for the next step, and the write is the
only thing that step does. R23 has one write that completes only when the command has completed; that the model
takes two steps for it is its own choice (assumption log 5). -/
def Obligations.CmdWriteIssuesTheWord : Prop :=
  ∀ (s : State) (c : Word) (rest : List HostEvent), s.cmd = none →
    s.host = .write (s.sfcBase + 0x18) 4 c :: rest →
    step s = .next { s with cmd := some c, host := rest }

/-- A program line in operand-list form runs (R72): from an idle block with nothing overlapping, the bus writes of the
pairs followed by the command's own write take one step each and the command one more, and the block then stands
where `exec` of the command leaves it, from the operand registers as the pairs set them, in the order written. With
no pairs this is the plain command (R71). It holds wherever the window stands (`SFC_BASE`, R8). That the `CMD` write
and the command are two steps is the model's choice (assumption log 5). -/
def Obligations.OperandListFormRuns : Prop :=
  ∀ (s : State) (i : Instr) (operands : List (OperandReg × Word)) (rest : List HostEvent),
    s.cmd = none → s.during = [] →
    s.host = hostWrites s.sfcBase (ProgramLine.withOperands i operands).writes ++ rest →
    Host.Core.run core (operands.length + 2) s =
      exec i (operands.foldl (fun t p => State.writeReg t p.1 p.2) { s with host := rest })

/-- With no command issued and no action of the host to come, the block holds its state (R182). -/
def Obligations.IdleBlockHoldsItsState : Prop :=
  ∀ s : State, s.cmd = none → s.host = [] → step s = .next s

/-- R22: a host write of an operand register stores the value and changes nothing else; a host read returns the
register's value, the last one written, and changes nothing but what the host sees; writing one register leaves
the others alone; and no command writes an operand register. -/
def Obligations.OperandRegistersHoldWhatTheHostWrote : Prop :=
  (∀ (s : State) (r : OperandReg) (v : Word) (rest : List HostEvent), s.cmd = none →
    ∀ offset, windowReg? offset = some (.operand r) →
    (s.host = .write (s.sfcBase + offset) 4 v :: rest →
      step s = .next (State.writeReg { s with host := rest } r v)) ∧
    (s.host = .read (s.sfcBase + offset) 4 :: rest →
      step s = .next { s with host := rest, readData := s.readReg r })) ∧
  (∀ (s : State) (r q : OperandReg) (v : Word),
    (s.writeReg r v).readReg q = if q = r then v else s.readReg q) ∧
  ∀ (i : Instr) (s t : State) (r : OperandReg), exec i s = .next t → t.readReg r = s.readReg r

/-- The register window (R60), wherever it stands (`SFC_BASE`, R8): register `x[i]` stands at offset `4 * i` and `CMD`
at `0x18`, a read of `CMD` gives 0, and an access that is narrower than a word, misaligned or beyond `0x18` is
refused. So is one that is wider than a word or below the window, which is the model's reading (assumption log 11). -/
def Obligations.RegisterWindow : Prop :=
  (windowReg? 0 = some (.operand .src) ∧ windowReg? 4 = some (.operand .dst) ∧
    windowReg? 8 = some (.operand .cnt) ∧ windowReg? 12 = some (.operand .dstride) ∧
    windowReg? 16 = some (.operand .sstride) ∧ windowReg? 20 = some (.operand .val) ∧
    windowReg? 24 = some .cmd) ∧
  (∀ (s : State) (rest : List HostEvent), s.cmd = none → s.host = .read (s.sfcBase + 0x18) 4 :: rest →
    step s = .next { s with host := rest, readData := 0 }) ∧
  ∀ (s : State) (addr width : Nat) (v : Word) (rest : List HostEvent), s.cmd = none →
    (width ≠ 4 ∨ addr < s.sfcBase ∨ (addr - s.sfcBase) % 4 ≠ 0 ∨ s.sfcBase + 0x1C ≤ addr) →
    (s.host = .write addr width v :: rest → step s = .refused (.windowAccess addr width)) ∧
    (s.host = .read addr width :: rest → step s = .refused (.windowAccess addr width))

/-- R190 with R33: reset between commands puts every piece of state at its reset value (each context all zero, its
history size kept, `rnd_idx` and the operand registers 0, nothing in `CMD`) and touches nothing else, `MEM`
included; a reset during a command is refused. That the refusal comes before whatever the command would have
answered, a violation included, is the model's reading (assumption log 10). -/
def Obligations.ResetRestoresTheResetValues : Prop :=
  (∀ (s : State) (rest : List HostEvent), s.cmd = none → s.host = .reset :: rest →
    ∃ t, step s = .next t ∧ (∀ r, t.readReg r = 0) ∧ t.cmd = none ∧ t.rndIdx = 0 ∧
      t.dither.length = s.dither.length ∧
      (∀ c : CtxNum, c.toNat < s.dither.length → (t.context c).prev = 0 ∧ (t.context c).idx = 0 ∧
        (t.context c).err = List.replicate (s.context c).err.length 0) ∧
      t.mem = s.mem ∧ t.rndKnown = s.rndKnown ∧ t.owned = s.owned ∧ t.sfcBase = s.sfcBase ∧ t.host = rest ∧
      t.during = s.during ∧ t.readData = s.readData) ∧
  ∀ (s : State) (c : Word) (i : Instr), s.cmd = some c → decode c = .ok i → Overlap.reset ∈ s.during →
    step s = .refused .resetDuringCommand

/-- The block right after reset, with any number `nch` of contexts, any history size `n` and any window base, holds the
values of R33; and a command issued at once has `CNT = 0`, so every command but `DCLR` whose context exists does
nothing (R191). -/
def Obligations.CommandsRightAfterResetDoNothing : Prop :=
  (∀ nch n base : Nat, (∀ r, (State.resetOf nch n base).readReg r = 0) ∧
    (State.resetOf nch n base).cmd = none ∧ (State.resetOf nch n base).rndIdx = 0 ∧
    (State.resetOf nch n base).dither.length = nch ∧
    ∀ d ∈ (State.resetOf nch n base).dither, d.prev = 0 ∧ d.err = List.replicate n 0 ∧ d.idx = 0) ∧
  ∀ (nch n base : Nat) (i : Instr), i.wellFormed nch = true →
    (∀ c, i ≠ .dclr c) → exec i (State.resetOf nch n base) = .next (State.resetOf nch n base)

/-- Other agents during a command (R54). Where the command itself completes, the step is the violation
`ConcurrentAccess` if any agent writes a byte of one of its streams, if an agent that is no SFC reads one, if another
instance reads a byte of its destination, or if another command is in flight on the context it uses, which a command over streams does only with
`CNT >= 1` (R173). Another instance's read of a byte that the command does not write is allowed (R180), so is any
agent's read of a byte outside the streams, a byte written outside the streams is just written, and a command in
flight on a context that is not in use leaves no trace. The model's own readings are these (assumption log 9): the
conflict is reported only where the command completes; R54 holds for readers that are no SFC; a foreign byte is stored
after the command; and `DCLR`, which reads no operand register (R21, R111), has its context in use with `CNT = 0` too,
although R173 says without exception that only the first two kinds can arise then. That a command in flight on a
context that is not in use leaves no trace is the model's choice (assumption log 22). -/
def Obligations.ConcurrentAccessFaults : Prop :=
  (∀ (s t : State) (c : Word) (i : Instr) (o : Overlap), s.cmd = some c → decode c = .ok i →
    Overlap.reset ∉ s.during → exec i s.retire = .next t → o ∈ s.during →
    ((∃ a, (o = .memRead a ∨ ∃ v, o = .memWrite a v) ∧ ∃ st ∈ streamsOf i s, ∃ k < s.cnt.toNat,
        st.element k ≤ a.toNat ∧ a.toNat < st.element k + st.width) ∨
      (∃ a, o = .instanceRead a ∧ ∃ k < s.cnt.toNat,
        destElement i s k ≤ a.toNat ∧ a.toNat < destElement i s k + destWidth i) ∨
      ∃ x, o = .context x ∧ usedContext i = some x ∧ (s.cnt ≠ 0 ∨ i = .dclr x)) →
    step s = .fault .concurrentAccess) ∧
  (∀ (s t : State) (c : Word) (i : Instr) (a : Word) (v : Byte), s.cmd = some c → decode c = .ok i →
    exec i s.retire = .next t → s.during = [.memWrite a v] →
    (∀ st ∈ streamsOf i s, ∀ k < s.cnt.toNat,
      a.toNat < st.element k ∨ st.element k + st.width ≤ a.toNat) →
    step s = .next { t with mem := Memory.writeByte t.mem a.toNat v }) ∧
  ∀ (s t : State) (c : Word) (i : Instr) (o : Overlap), s.cmd = some c → decode c = .ok i →
    exec i s.retire = .next t → s.during = [o] →
    ((∃ a, o = .memRead a ∧ ∀ st ∈ streamsOf i s, ∀ k < s.cnt.toNat,
        a.toNat < st.element k ∨ st.element k + st.width ≤ a.toNat) ∨
      (∃ a, o = .instanceRead a ∧ Unstored i s a.toNat) ∨
      ∃ x, o = .context x ∧ (usedContext i ≠ some x ∨ (s.cnt = 0 ∧ i ≠ .dclr x))) →
    step s = .next t

/-! ### The checks before a command touches memory -/

/-- R65: a command that uses `CTX` needs `CTX < NCH` and otherwise is the violation `BadContext`, even with
`CNT = 0`; in the converters without dither and with rectangular dither the field is ignored; in every other
command it must be 0. -/
def Obligations.ContextFieldRules : Prop :=
  (∀ (i : Instr) (s : State) (c : CtxNum), usedContext i = some c → s.dither.length ≤ c.toNat →
    exec i s = .fault (.badContext c)) ∧
  (∀ (c c' : CtxNum) (s : State), exec (.f2i16 c) s = exec (.f2i16 c') s ∧
    exec (.f2i24 c) s = exec (.f2i24 c') s ∧ exec (.f2i16Rect c) s = exec (.f2i16Rect c') s ∧
    exec (.f2i24Rect c) s = exec (.f2i24Rect c') s) ∧
  ∀ (w : Word) (i : Instr), decode w = .ok i → usedContext i = none →
    (∀ c, i ≠ .f2i16 c ∧ i ≠ .f2i24 c ∧ i ≠ .f2i16Rect c ∧ i ≠ .f2i24Rect c) → fieldCtx w = 0

/-- With `CNT = 0` a command other than `DCLR` whose context exists completes and changes nothing, whatever its
other operands are (R133, step 3), and whatever other agents do meanwhile short of a reset: no violation but
`IllegalCommand` and `BadContext` can arise (R173). After the step `CMD` is empty and all else is as before but for
the bytes of memory those agents write: each holds what was last written to it. That foreign bytes are stored after
the command and in the order of the list is the model's choice (assumption log 9), and so is that a command in flight
on any context leaves no trace (assumption log 22). -/
def Obligations.ZeroCountDoesNothing : Prop :=
  (∀ (i : Instr) (s : State), i.wellFormed s.dither.length = true → (∀ c, i ≠ .dclr c) → s.cnt = 0 →
    exec i s = .next s) ∧
  ∀ (s : State) (c : Word) (i : Instr), s.cmd = some c → decode c = .ok i →
    i.wellFormed s.dither.length = true → (∀ x, i ≠ .dclr x) → s.cnt = 0 → Overlap.reset ∉ s.during →
    ∃ t, step s = .next t ∧ t = s.during.foldl applyOverlap s.retire ∧
      t = { s with cmd := none, during := [], mem := t.mem } ∧
      (Memory.wf s.mem = true →
        (∀ a : Word, (∀ v, Overlap.memWrite a v ∉ s.during) →
          Memory.readByte t.mem a.toNat = Memory.readByte s.mem a.toNat) ∧
        ∀ (a : Word) (v : Byte) (before after : List Overlap),
          s.during = before ++ .memWrite a v :: after → (∀ w, Overlap.memWrite a w ∉ after) →
          Memory.readByte t.mem a.toNat = v)

/-- R45: with `CNT >= 1` a register stride below the element width is the violation `StrideTooSmall`, naming the source
stream if its stride is too small and else the destination stream (R173), with its stride; with `CNT = 0` nothing is
checked; a stride of 0 is never legal. -/
def Obligations.SmallStrideFaults : Prop :=
  (∀ (i : Instr) (s : State) (st : Stream), i.wellFormed s.dither.length = true → s.cnt ≠ 0 →
    st ∈ streamsOf i s → st.fromRegister = true → st.stride < st.width →
    (st.which = .source ∨ ∀ src ∈ streamsOf i s, src.which = .source → src.fromRegister = true →
      src.width ≤ src.stride) →
    exec i s = .fault (.strideTooSmall st.which st.stride)) ∧
  (∀ (i : Instr) (s : State) (st : Stream), i.wellFormed s.dither.length = true → s.cnt ≠ 0 →
    st ∈ streamsOf i s → st.fromRegister = true → st.stride = 0 →
    ∃ which stride, exec i s = .fault (.strideTooSmall which stride)) ∧
  ∀ (i : Instr) (s : State) which stride, s.cnt = 0 → exec i s ≠ .fault (.strideTooSmall which stride)

/-- Alignment (R46): with `CNT >= 1`, legal strides and a base or a register stride that is no multiple of the element width,
the command is the violation `Misaligned`, naming such a stream and the address or stride; a command that
completes accesses every element at a multiple of its width. That a stream's stride is named only where its base is
aligned is the model's reading (assumption log 12). -/
def Obligations.MisalignedFaults : Prop :=
  (∀ (i : Instr) (s : State), i.wellFormed s.dither.length = true → s.cnt ≠ 0 →
    (∀ st ∈ streamsOf i s, st.fromRegister = true → st.width ≤ st.stride) →
    (∃ st ∈ streamsOf i s, st.base % st.width ≠ 0 ∨
      (st.fromRegister = true ∧ st.stride % st.width ≠ 0)) →
    ∃ st ∈ streamsOf i s,
      (st.base % st.width ≠ 0 ∧ exec i s = .fault (.misaligned st.which st.base)) ∨
      (st.base % st.width = 0 ∧ st.fromRegister = true ∧ st.stride % st.width ≠ 0 ∧
        exec i s = .fault (.misaligned st.which st.stride))) ∧
  ∀ (i : Instr) (s t : State) (st : Stream) (k : Nat), exec i s = .next t → st ∈ streamsOf i s →
    k < s.cnt.toNat → st.element k % st.width = 0

/-- R47: with `CNT >= 1` and legal, aligned strides, a stream whose last element would end beyond 2^32 is the
violation `AddressWrap`. -/
def Obligations.WrappingAddressFaults : Prop :=
  ∀ (i : Instr) (s : State), i.wellFormed s.dither.length = true → s.cnt ≠ 0 →
    (∀ st ∈ streamsOf i s, (st.fromRegister = true → st.width ≤ st.stride) ∧ st.base % st.width = 0 ∧
      (st.fromRegister = true → st.stride % st.width = 0)) →
    (∃ st ∈ streamsOf i s, 2 ^ 32 < st.base + (s.cnt.toNat - 1) * st.stride + st.width) →
    ∃ st ∈ streamsOf i s, 2 ^ 32 < st.base + (s.cnt.toNat - 1) * st.stride + st.width ∧
      exec i s = .fault (.addressWrap st.which)

/-- Extent: where every other check passes and a byte of an element is not in `Owned`, the command is the
violation `OutOfExtent` and names such a byte (R48, R133 step 7). -/
def Obligations.ForeignByteFaults : Prop :=
  ∀ (i : Instr) (s : State), i.wellFormed s.dither.length = true → s.cnt ≠ 0 →
    (∀ st ∈ streamsOf i s, (st.fromRegister = true → st.width ≤ st.stride) ∧ st.base % st.width = 0 ∧
      (st.fromRegister = true → st.stride % st.width = 0) ∧
      st.base + (s.cnt.toNat - 1) * st.stride + st.width ≤ 2 ^ 32) →
    (∃ st ∈ streamsOf i s, ∃ k < s.cnt.toNat, ∃ j < st.width,
      ownedByte s.owned (st.element k + j) = false) →
    ∃ st ∈ streamsOf i s, ∃ k < s.cnt.toNat, ∃ j < st.width,
      ownedByte s.owned (st.element k + j) = false ∧
      exec i s = .fault (.outOfExtent (st.element k + j))

/-- A command inside the contract completes, except that a float-to-integer command or a float merge may meet a
sample or an operation that is not finite; no command is ever refused, and outside the contract every command
faults. -/
def Obligations.LegalCommandsCompleteOrAreNonFinite : Prop :=
  (∀ (i : Instr) (s : State), Legal i s →
    (∃ t, exec i s = .next t) ∨
    ∃ k < s.cnt.toNat, exec i s = .fault (.nonFinite k) ∧ ∃ w, streamsOf i s = [fixedSource s 4, stridedDest s w]) ∧
  (∀ (i : Instr) (s : State), ¬ Legal i s → ∃ f, exec i s = .fault f ∧ 2 ≤ f.code ∧ f.code ≤ 6) ∧
  ∀ (i : Instr) (s : State) (r : Refusal), exec i s ≠ .refused r

/-- `NonFinite` is reported for the lowest element at which it arises (R91, R173): where the first `k` elements
complete and sample `k`, read from what they left, is not finite or its product with the scale is not, the
command faults at `k`. All ten commands that read floating samples. -/
def Obligations.NonFiniteSampleFaults : Prop :=
  ∀ (i : Instr) (factor : Word) (c : CtxNum),
    ((i = .f2i16 c ∨ i = .f2i16Rect c ∨ i = .f2i16Tri c ∨ i = .f2i16Shp c ∨ i = .fmrg16) ∧
        factor = Config.k16 ∨
      (i = .f2i24 c ∨ i = .f2i24Rect c ∨ i = .f2i24Tri c ∨ i = .f2i24Shp c ∨ i = .fmrg24) ∧
        factor = Config.k24) →
    ∀ (s u : State) (k : Nat), Legal i s → k < s.cnt.toNat → exec i (withCount s k) = .next u →
      ¬ SampleFinite factor u k → exec i s = .fault (.nonFinite k)

/-- A noise-shaped command stops where its history makes an operation overflow (R91): where the first `k` elements
complete, sample `k` and its product with the scale are finite, and some operation of R106 or R107 on the context as
those elements left it is not, the command faults at `k`. -/
def Obligations.NonFiniteShapingFaults : Prop :=
  ∀ (i : Instr) (factor : Word) (c : CtxNum),
    (i = .f2i16Shp c ∧ factor = Config.k16 ∨ i = .f2i24Shp c ∧ factor = Config.k24) →
    ∀ (s u : State) (k : Nat), Legal i s → k < s.cnt.toNat → exec i (withCount s k) = .next u →
      SampleFinite factor u k → ¬ ShapingFinite (scaled factor u k) (u.rnd u.rndIdx) (u.context c) →
      exec i s = .fault (.nonFinite k)

/-! ### What commands leave alone -/

/-- No command changes an operand register, what `CMD` holds, or anything outside the block but memory: of a
command's next state only memory, the contexts and the draw index can differ. -/
def Obligations.CommandsChangeMemoryContextsAndDrawsOnly : Prop :=
  ∀ (i : Instr) (s t : State), exec i s = .next t →
    t = { s with mem := t.mem, dither := t.dither, rndIdx := t.rndIdx }

/-- Every byte outside the elements of the destination stream reads as before, for every command (R49, R52);
`DCLR` stores nothing. -/
def Obligations.BytesOutsideTheDestinationAreKept : Prop :=
  ∀ (i : Instr) (s t : State) (a : Nat), Memory.wf s.mem = true → exec i s = .next t →
    Unstored i s a → Memory.readByte t.mem a = Memory.readByte s.mem a

/-- A context is written only by `DCLR` and by the triangular and noise-shaped commands, and those write only the
one they name; the triangular ones write only its `prev`; every other command neither reads nor writes any context
(R29, R110). -/
def Obligations.ContextsWrittenOnlyByTheirCommands : Prop :=
  (∀ (i : Instr) (s t : State), usedContext i = none → exec i s = .next t → t.dither = s.dither) ∧
  (∀ (i : Instr) (s t : State) (c : CtxNum), usedContext i = some c → exec i s = .next t →
    t.dither.length = s.dither.length ∧ ∀ e : CtxNum, e ≠ c → t.context e = s.context e) ∧
  (∀ (s t : State) (c : CtxNum), (exec (.f2i16Tri c) s = .next t ∨ exec (.f2i24Tri c) s = .next t) →
    (t.context c).err = (s.context c).err ∧ (t.context c).idx = (s.context c).idx) ∧
  ∀ (i : Instr) (s t : State) (ds : List DitherCtx), usedContext i = none → exec i s = .next t →
    exec i { s with dither := ds } = .next { t with dither := ds }

/-- A command of class `F2I` with dither takes exactly `CNT` draws, every other command none (R112). -/
def Obligations.DrawsPerCommand : Prop :=
  ∀ (i : Instr) (s t : State), exec i s = .next t →
    (((∃ c, i = .f2i16Rect c ∨ i = .f2i24Rect c ∨ i = .f2i16Tri c ∨ i = .f2i24Tri c ∨ i = .f2i16Shp c ∨
        i = .f2i24Shp c) → t.rndIdx = s.rndIdx + s.cnt.toNat) ∧
     ((∀ c, i ≠ .f2i16Rect c ∧ i ≠ .f2i24Rect c ∧ i ≠ .f2i16Tri c ∧ i ≠ .f2i24Tri c ∧ i ≠ .f2i16Shp c ∧
        i ≠ .f2i24Shp c) → t.rndIdx = s.rndIdx))

/-! ### What each command does -/

/-- `FILL8`, `FILL16`, `FILL32` (R150 to R152): inside the contract the fill completes, each element holds the low
8, 16 or 32 bits of `VAL`, and nothing else changes. -/
def Obligations.FillStoresValAtEveryStride : Prop :=
  ∀ (i : Instr) (w : Nat), (i = .fill8 ∧ w = 1 ∨ i = .fill16 ∧ w = 2 ∨ i = .fill32 ∧ w = 4) →
    ∀ s : State, Memory.wf s.mem = true → Legal i s →
      ∃ t, exec i s = .next t ∧ MemoryOnly s t ∧
        StoresExactly s t dstStrided w fun _ => s.val.toNat % 2 ^ (8 * w)

/-- `CPY16`, `CPY32` (R153, R154): inside the contract the copy completes, element `k` of the destination holds
what element `k` of the source holds when its turn comes, and nothing else changes. Overlapping streams
included (R51). -/
def Obligations.CopyMovesElementsInOrder : Prop :=
  ∀ (i : Instr) (w : Nat), (i = .cpy16 ∧ w = 2 ∨ i = .cpy32 ∧ w = 4) →
    ∀ s : State, Memory.wf s.mem = true → Legal i s →
      ∃ t, exec i s = .next t ∧ MemoryOnly s t ∧
        StoresInOrder i s t dstStrided w fun u k => u.load (srcStrided u k) w

/-- `MCPY16`, `MCPY32` (R155, R156): as the copy, but element `k` of the source is added into element `k` of the
destination, keeping the low bits of the sum. -/
def Obligations.MergeCopyAddsModulo : Prop :=
  ∀ (i : Instr) (w : Nat), (i = .mcpy16 ∧ w = 2 ∨ i = .mcpy32 ∧ w = 4) →
    ∀ s : State, Memory.wf s.mem = true → Legal i s →
      ∃ t, exec i s = .next t ∧ MemoryOnly s t ∧
        StoresInOrder i s t dstStrided w fun u k =>
          (s.load (dstStrided s k) w + u.load (srcStrided u k) w) % 2 ^ (8 * w)

/-- `MCPYC16`, `MCPYC32` (R142, R143): as the strided merge-copy, both streams contiguous. -/
def Obligations.ContiguousMergeCopyAddsModulo : Prop :=
  ∀ (i : Instr) (w : Nat), (i = .mcpyc16 ∧ w = 2 ∨ i = .mcpyc32 ∧ w = 4) →
    ∀ s : State, Memory.wf s.mem = true → Legal i s →
      ∃ t, exec i s = .next t ∧ MemoryOnly s t ∧
        StoresInOrder i s t (dstFixed w) w fun u k =>
          (s.load (dstFixed w s k) w + u.load (srcFixed w u k) w) % 2 ^ (8 * w)

/-- `I2F16`, `I2F24` (R129, R130): inside the contract the conversion completes; float `k` is the correctly
rounded quotient of the container's signed sample and the scale; nothing else changes. -/
def Obligations.IntegerToFloatDivides : Prop :=
  (∀ s : State, Memory.wf s.mem = true → Legal .i2f16 s →
    ∃ t, exec .i2f16 s = .next t ∧ MemoryOnly s t ∧
      StoresInOrder .i2f16 s t (dstFixed 4) 4 fun u k =>
        (fdiv (i2f (sext 16 (u.load (srcStrided u k) 2))) Config.k16).toNat) ∧
  ∀ s : State, Memory.wf s.mem = true → Legal .i2f24 s →
    ∃ t, exec .i2f24 s = .next t ∧ MemoryOnly s t ∧
      StoresInOrder .i2f24 s t (dstFixed 4) 4 fun u k =>
        (fdiv (i2f (asr8 (sext 32 (u.load (srcStrided u k) 4)))) Config.k24).toNat

/-- `F2I16`, `F2I24` (R121, R125): inside the contract, with finite samples and products, the conversion
completes: each sample is scaled, rounded, clamped and stored (for 24 bit times 256), and nothing else
changes. -/
def Obligations.FloatToIntegerWithoutDither : Prop :=
  ∀ (c : CtxNum) (s : State), Memory.wf s.mem = true →
    (Legal (.f2i16 c) s → SamplesFinite Config.k16 s → SourceIntact 2 s →
      ∃ t, exec (.f2i16 c) s = .next t ∧ MemoryOnly s t ∧
        StoresExactly s t dstStrided 2 fun k =>
          wrap 16 (clamp 16 (roundToInt (scaled Config.k16 s k)))) ∧
    (Legal (.f2i24 c) s → SamplesFinite Config.k24 s → SourceIntact 4 s →
      ∃ t, exec (.f2i24 c) s = .next t ∧ MemoryOnly s t ∧
        StoresExactly s t dstStrided 4 fun k =>
          wrap 32 (clamp 24 (roundToInt (scaled Config.k24 s k)) * 256))

/-- `F2I16.RECT`, `F2I24.RECT` (R122, R126): as without dither, but the rectangular variate of the sample's own
draw is subtracted before rounding; `CNT` draws are taken and no context is touched. No draw makes the
subtraction overflow. -/
def Obligations.FloatToIntegerRectangular : Prop :=
  ∀ (c : CtxNum) (s : State), Memory.wf s.mem = true →
    (Legal (.f2i16Rect c) s → SamplesFinite Config.k16 s → SourceIntact 2 s →
      ∃ t, exec (.f2i16Rect c) s = .next t ∧
        t = { s with mem := t.mem, rndIdx := s.rndIdx + s.cnt.toNat } ∧
        StoresExactly s t dstStrided 2 fun k =>
          wrap 16 (clamp 16 (roundToInt (fsub (scaled Config.k16 s k) (uniform (drawOf s k)))))) ∧
    (Legal (.f2i24Rect c) s → SamplesFinite Config.k24 s → SourceIntact 4 s →
      ∃ t, exec (.f2i24Rect c) s = .next t ∧
        t = { s with mem := t.mem, rndIdx := s.rndIdx + s.cnt.toNat } ∧
        StoresExactly s t dstStrided 4 fun k =>
          wrap 32 (clamp 24 (roundToInt (fsub (scaled Config.k24 s k) (uniform (drawOf s k)))) * 256))

/-- `F2I16.TRI`, `F2I24.TRI` (R123, R127): the difference of the sample's variate and the one before it is added
before rounding; afterwards the context's `prev` is the variate of the last sample, `CNT` draws are taken, and
nothing else changes. With `prev` in [-1, 1), as R27 has it, no draw makes an operation overflow. -/
def Obligations.FloatToIntegerTriangular : Prop :=
  ∀ (c : CtxNum) (s : State), Memory.wf s.mem = true → prevInRange (s.context c).prev = true →
    (Legal (.f2i16Tri c) s → SamplesFinite Config.k16 s → SourceIntact 2 s →
      ∃ t, exec (.f2i16Tri c) s = .next t ∧
        t = { s with
          mem := t.mem
          rndIdx := s.rndIdx + s.cnt.toNat
          dither := s.dither.set c.toNat { s.context c with prev := prevBefore s c s.cnt.toNat } } ∧
        StoresExactly s t dstStrided 2 fun k =>
          wrap 16 (clamp 16 (roundToInt (fadd (scaled Config.k16 s k)
            (fsub (triangular (drawOf s k)) (prevBefore s c k)))))) ∧
    (Legal (.f2i24Tri c) s → SamplesFinite Config.k24 s → SourceIntact 4 s →
      ∃ t, exec (.f2i24Tri c) s = .next t ∧
        t = { s with
          mem := t.mem
          rndIdx := s.rndIdx + s.cnt.toNat
          dither := s.dither.set c.toNat { s.context c with prev := prevBefore s c s.cnt.toNat } } ∧
        StoresExactly s t dstStrided 4 fun k =>
          wrap 32 (clamp 24 (roundToInt (fadd (scaled Config.k24 s k)
            (fsub (triangular (drawOf s k)) (prevBefore s c k)))) * 256))

/-- `F2I16.SHP`, `F2I24.SHP` (R124, R128): where every floating operation of every sample is finite, the
conversion completes; sample `k` is shaped by the context the samples before it left, the context ends as the
last sample leaves it, `CNT` draws are taken, and nothing else changes. -/
def Obligations.FloatToIntegerNoiseShaped : Prop :=
  ∀ (c : CtxNum) (s : State), Memory.wf s.mem = true →
    (Legal (.f2i16Shp c) s → SamplesFinite Config.k16 s → SourceIntact 2 s →
      (∀ k < s.cnt.toNat,
        ShapingFinite (scaled Config.k16 s k) (drawOf s k) (contextBefore Config.k16 s c k)) →
      ∃ t, exec (.f2i16Shp c) s = .next t ∧
        t = { s with
          mem := t.mem
          rndIdx := s.rndIdx + s.cnt.toNat
          dither := s.dither.set c.toNat (contextBefore Config.k16 s c s.cnt.toNat) } ∧
        StoresExactly s t dstStrided 2 fun k =>
          wrap 16 (clamp 16 (shapedValue (scaled Config.k16 s k) (drawOf s k)
            (contextBefore Config.k16 s c k)))) ∧
    (Legal (.f2i24Shp c) s → SamplesFinite Config.k24 s → SourceIntact 4 s →
      (∀ k < s.cnt.toNat,
        ShapingFinite (scaled Config.k24 s k) (drawOf s k) (contextBefore Config.k24 s c k)) →
      ∃ t, exec (.f2i24Shp c) s = .next t ∧
        t = { s with
          mem := t.mem
          rndIdx := s.rndIdx + s.cnt.toNat
          dither := s.dither.set c.toNat (contextBefore Config.k24 s c s.cnt.toNat) } ∧
        StoresExactly s t dstStrided 4 fun k =>
          wrap 32 (clamp 24 (shapedValue (scaled Config.k24 s k) (drawOf s k)
            (contextBefore Config.k24 s c k)) * 256))

/-- `FMRG16` (R140): the sample converted as `F2I16` converts it is added to what the slot held, and the sum is
clamped; `FMRG24` (R141): the 24-bit word is added modulo 2^32, no clamp on the sum. Inside the contract, with
finite samples and products, both complete, and nothing else changes. -/
def Obligations.FloatMergeSaturatesAt16AndWrapsAt24 : Prop :=
  ∀ s : State, Memory.wf s.mem = true →
    (Legal .fmrg16 s → SamplesFinite Config.k16 s → SourceIntact 2 s →
      ∃ t, exec .fmrg16 s = .next t ∧ MemoryOnly s t ∧
        StoresExactly s t dstStrided 2 fun k =>
          wrap 16 (clamp 16 (sext 16 (s.load (dstStrided s k) 2) +
            clamp 16 (roundToInt (scaled Config.k16 s k))))) ∧
    (Legal .fmrg24 s → SamplesFinite Config.k24 s → SourceIntact 4 s →
      ∃ t, exec .fmrg24 s = .next t ∧ MemoryOnly s t ∧
        StoresExactly s t dstStrided 4 fun k =>
          wrap 32 (s.load (dstStrided s k) 4 + clamp 24 (roundToInt (scaled Config.k24 s k)) * 256))

/-- R111: `DCLR` on a context that exists sets its `prev`, every `err` and its `idx` to zero and changes nothing
else, whatever the operand registers hold; on any other it is the violation `BadContext` and nothing else; its
word is `0x80 + 256 * c`. -/
def Obligations.DclrClearsOneContext : Prop :=
  ∀ (c : CtxNum) (s : State),
    encode (.dclr c) = BitVec.ofNat 32 (0x80 + 256 * c.toNat) ∧
    (s.dither.length ≤ c.toNat → exec (.dclr c) s = .fault (.badContext c)) ∧
    (c.toNat < s.dither.length →
      exec (.dclr c) s = .next { s with
        dither := s.dither.set c.toNat
          { prev := 0, err := List.replicate (s.context c).err.length 0, idx := 0 } })

/-! ### Whole-machine rules -/

/-- A step keeps the invariant: `MEM` in canonical form, 1 to 256 contexts of one history size that is a power of
two from 8 up, `idx` below it, every error finite, `prev` in [-1, 1) (R27). Every step: commands, the host's
actions, what other agents do. -/
def Obligations.StepKeepsInvariant : Prop :=
  ∀ s t : State, s.inv = true → step s = .next t → t.inv = true

/-- The block right after reset meets the invariant, for every number of contexts and every history size the spec
allows; `State.reset` is one of them. -/
def Obligations.ResetMeetsInvariant : Prop :=
  (∀ nch n base : Nat, 1 ≤ nch → nch ≤ 256 → historySizeOk n = true →
    (State.resetOf nch n base).inv = true) ∧
  State.reset.inv = true

/-- One command on a block, or two commands on its halves issued one after the other, give the same output and the
same final contexts and draw index (R110), for every command that has streams and every place to cut the block: the
whole completes exactly when both halves do, and then in the state the second half leaves. -/
def Obligations.TwoHalvesMakeTheWhole : Prop :=
  ∀ (i : Instr) (s v : State) (m : Nat), (∀ c, i ≠ .dclr c) → Legal i s → m ≤ s.cnt.toNat →
    (exec i s = .next v ↔
      ∃ t u, exec i (withCount s m) = .next t ∧ exec i (secondHalf i s t m) = .next u ∧
        v = { u with src := s.src, dst := s.dst, cnt := s.cnt })

/-- The history size does not matter (R113): two blocks that differ only in it, and whose contexts agree in
`prev` and the five newest errors, answer every command alike, store the same bytes, and agree in the same way
afterwards. -/
def Obligations.HistorySizeDoesNotMatter : Prop :=
  ∀ (i : Instr) (s s' : State), SameButHistorySize s s' →
    (∀ t, exec i s = .next t → ∃ t', exec i s' = .next t' ∧ SameButHistorySize t t') ∧
    ∀ f, exec i s = .fault f → exec i s' = .fault f

/-- Determinism (R114): what a triangular or noise-shaped command does depends on the value of its context and
not on which context it is. From one state, on two contexts that hold the same value, it stores the same bytes,
takes the same draws and leaves the two contexts the same value, or faults alike. -/
def Obligations.EqualContextsGiveEqualOutput : Prop :=
  ∀ (f : CtxNum → Instr),
    (f = .f2i16Tri ∨ f = .f2i24Tri ∨ f = .f2i16Shp ∨ f = .f2i24Shp) →
    ∀ (s : State) (c e : CtxNum), c.toNat < s.dither.length → e.toNat < s.dither.length →
      s.context c = s.context e →
      (∀ t, exec (f c) s = .next t → ∃ t', exec (f e) s = .next t' ∧ t'.mem = t.mem ∧
        t'.rndIdx = t.rndIdx ∧ t'.context e = t.context c) ∧
      ∀ q, exec (f c) s = .fault q → exec (f e) s = .fault q

/-- Bytes outside `Owned` are neither read nor written (R48): two states that agree on the bytes the host has given
the block answer every command alike, agree on those bytes afterwards, and keep all the others. -/
def Obligations.ForeignBytesAreNeitherReadNorWritten : Prop :=
  ∀ (i : Instr) (s : State) (m : Memory), Memory.wf s.mem = true → Memory.wf m = true →
    (∀ a, ownedByte s.owned a = true → Memory.readByte m a = Memory.readByte s.mem a) →
    (∀ t, exec i s = .next t → ∃ t', exec i { s with mem := m } = .next t' ∧
      t' = { t with mem := t'.mem } ∧
      ∀ a, (ownedByte s.owned a = true → Memory.readByte t'.mem a = Memory.readByte t.mem a) ∧
        (ownedByte s.owned a = false → Memory.readByte t.mem a = Memory.readByte s.mem a ∧
          Memory.readByte t'.mem a = Memory.readByte m a)) ∧
    ∀ f, exec i s = .fault f → exec i { s with mem := m } = .fault f

/-- Nominal audio never leaves the contract in the noise-shaped mode: with samples in [-1, 1], `prev` in range and
errors within ±4, as after reset or `DCLR`, the command completes for every sequence of draws and leaves the
errors within ±4 again. A bound of this model's own working; the spec makes none normative. -/
def Obligations.NominalNoiseShapingNeverFaults : Prop :=
  ∀ (c : CtxNum) (s : State) (i : Instr) (w : Nat),
    (i = .f2i16Shp c ∧ w = 2 ∨ i = .f2i24Shp c ∧ w = 4) →
    Memory.wf s.mem = true → Legal i s → SourceIntact w s →
    8 ≤ (s.context c).err.length → (s.context c).idx < (s.context c).err.length →
    prevInRange (s.context c).prev = true →
    (∀ e ∈ (s.context c).err, isFinite e = true ∧ |value e| ≤ 4) →
    (∀ k < s.cnt.toNat, isFinite (sampleWord s k) = true ∧ |value (sampleWord s k)| ≤ 1) →
    ∃ t, exec i s = .next t ∧ prevInRange (t.context c).prev = true ∧
      ∀ e ∈ (t.context c).err, isFinite e = true ∧ |value e| ≤ 4

/-- In-place conversion to 24 bit (R134): with `DST = SRC` and `DSTRIDE = 4` each word becomes the conversion of
the sample that stood in it, for finite samples and products; nothing else changes. -/
def Obligations.InPlaceConversionTo24 : Prop :=
  ∀ (c : CtxNum) (s : State), Memory.wf s.mem = true → Legal (.f2i24 c) s → s.dst = s.src →
    s.dstride = 4 → SamplesFinite Config.k24 s →
    ∃ t, exec (.f2i24 c) s = .next t ∧ MemoryOnly s t ∧
      StoresExactly s t (srcFixed 4) 4 fun k =>
        wrap 32 (clamp 24 (roundToInt (scaled Config.k24 s k)) * 256)

/-- Every word that a 24-bit converter writes has a zero low byte and lies between `0x80000000` and `0x7FFFFF00`
as a signed word (R131), in all four modes. -/
def Obligations.TwentyFourBitWordsAreLeftJustified : Prop :=
  ∀ (i : Instr) (c : CtxNum), (i = .f2i24 c ∨ i = .f2i24Rect c ∨ i = .f2i24Tri c ∨ i = .f2i24Shp c) →
    ∀ (s t : State) (k : Nat), Memory.wf s.mem = true → exec i s = .next t → k < s.cnt.toNat →
      t.load (dstStrided s k) 4 % 256 = 0 ∧
      -0x80000000 ≤ sext 32 (t.load (dstStrided s k) 4) ∧
      sext 32 (t.load (dstStrided s k) 4) ≤ 0x7FFFFF00

/-- The contiguous merge-copy computes what the strided one computes with both strides at the element width
(R142, R143), whatever the stride registers held. -/
def Obligations.ContiguousMergeCopyIsTheStridedOne : Prop :=
  ∀ (i j : Instr) (w : Nat), (i = .mcpyc16 ∧ j = .mcpy16 ∧ w = 2 ∨ i = .mcpyc32 ∧ j = .mcpy32 ∧ w = 4) →
    ∀ s t : State,
      exec i s = .next t ↔
        exec j { s with sstride := BitVec.ofNat 32 w, dstride := BitVec.ofNat 32 w } =
          .next { t with sstride := BitVec.ofNat 32 w, dstride := BitVec.ofNat 32 w } ∧
        t.sstride = s.sstride ∧ t.dstride = s.dstride

/-! ### The arithmetic -/

/-- The four operations round correctly (R81, R82): where the result is finite it is a nearest binary32 value to
the exact product, sum, difference or quotient, ties to the even significand. -/
def Obligations.OperationsRoundToNearest : Prop :=
  ∀ a b : Word, isFinite a = true → isFinite b = true →
    (isFinite (fmul a b) = true → Nearest (value a * value b) (fmul a b)) ∧
    (isFinite (fadd a b) = true → Nearest (value a + value b) (fadd a b)) ∧
    (isFinite (fsub a b) = true → Nearest (value a - value b) (fsub a b)) ∧
    (significand b ≠ 0 → isFinite (fdiv a b) = true → Nearest (value a / value b) (fdiv a b))

/-- Each of the four operations of R82 overflows exactly from the point on where the rounded result would reach 2^128
(R81): half an ulp below it. -/
def Obligations.OverflowThreshold : Prop :=
  ∀ a b : Word, isFinite a = true → isFinite b = true →
    (isFinite (fmul a b) = true ↔ |value a * value b| < 2 ^ 128 - 2 ^ 103) ∧
    (isFinite (fadd a b) = true ↔ |value a + value b| < 2 ^ 128 - 2 ^ 103) ∧
    (isFinite (fsub a b) = true ↔ |value a - value b| < 2 ^ 128 - 2 ^ 103) ∧
    (significand b ≠ 0 → (isFinite (fdiv a b) = true ↔ |value a / value b| < 2 ^ 128 - 2 ^ 103))

/-- The sign of an exact zero (R82): exclusive-or of the operand signs for a product or a quotient; for a sum -0
when both operands are -0 and +0 otherwise; a difference is the sum with the sign of the second operand
inverted. -/
def Obligations.SignsOfZeroResults : Prop :=
  ∀ a b : Word, isFinite a = true → isFinite b = true →
    (value a * value b = 0 → fmul a b = zeroOf (signBit a != signBit b)) ∧
    (value a = 0 → value b ≠ 0 → fdiv a b = zeroOf (signBit a != signBit b)) ∧
    (value a + value b = 0 → fadd a b = if a = 0x80000000 ∧ b = 0x80000000 then 0x80000000 else 0) ∧
    (fsub a b = fadd a (fneg b) ∧ value (fneg b) = -value b) ∧ fsub a a = 0 ∧
    fsub 0x80000000 0 = 0x80000000

/-- A number that is a binary32 value rounds to that value (R81, last sentence): the pattern comes back, but for the
sign of a zero. -/
def Obligations.RepresentableValuesAreExact : Prop :=
  ∀ b : Word, isFinite b = true → significand b ≠ 0 → ofScaled (signedSig b) (scale b) = b

/-- Integers up to 2^24 in magnitude convert exactly, and so does what `ROUND` gives for any finite value
(R83). -/
def Obligations.IntegerConversionIsExact : Prop :=
  (∀ k : Int, |k| ≤ 2 ^ 24 → isFinite (i2f k) = true ∧ value (i2f k) = k) ∧
  (∀ f : Word, isFinite f = true → isFinite (i2f (roundToInt f)) = true ∧
    value (i2f (roundToInt f)) = roundToInt f) ∧
  i2f 0 = 0

/-- R85: `ROUND` is the nearest integer, a tie going to the even one, on every finite value; zeros of either sign
give 0. -/
def Obligations.RoundIsNearestTiesToEven : Prop :=
  (∀ f : Word, isFinite f = true →
    let n : Int := ⌊value f⌋
    let d : ℚ := value f - n
    (d < 1 / 2 → roundToInt f = n) ∧ (1 / 2 < d → roundToInt f = n + 1) ∧
    (d = 1 / 2 → n % 2 = 0 → roundToInt f = n) ∧ (d = 1 / 2 → n % 2 = 1 → roundToInt f = n + 1)) ∧
  roundToInt 0 = 0 ∧ roundToInt 0x80000000 = 0

/-- R101: the rectangular variate of a word is exactly `w * 2^-24`, from 0 to `1 - 2^-24`. -/
def Obligations.UniformVariateIsExact : Prop :=
  (∀ w : Draw, isFinite (uniform w) = true ∧ value (uniform w) = (w.toNat : ℚ) / 2 ^ 24 ∧
    0 ≤ value (uniform w) ∧ value (uniform w) ≤ 1 - 1 / 2 ^ 24) ∧
  uniform 0 = 0 ∧ uniform 0x800000 = 0x3F000000 ∧ uniform 0xFFFFFF = 0x3F7FFFFF

/-- R102: the triangular base variate of a word is exactly `(w - 2^23) * 2^-23`, from -1 to `1 - 2^-23`. -/
def Obligations.TriangularVariateIsExact : Prop :=
  (∀ w : Draw, isFinite (triangular w) = true ∧
    value (triangular w) = ((w.toNat : ℚ) - 2 ^ 23) / 2 ^ 23 ∧
    -1 ≤ value (triangular w) ∧ value (triangular w) ≤ 1 - 1 / 2 ^ 23) ∧
  triangular 0 = 0xBF800000 ∧ triangular 0x400000 = 0xBF000000 ∧ triangular 0x800000 = 0 ∧
  triangular 0xC00000 = 0x3F000000 ∧ triangular 0xFFFFFF = 0x3F7FFFFE ∧
  triangular 0x7FFFFF = 0xB4000000

/-- The integer operations (R87 to R90): `CLAMP_n` keeps what is in the signed range and takes the nearer
extreme of what is not; `WRAP_n` is the residue in [0, 2^n), and adding two patterns modulo `2^n` is adding the
signed numbers they stand for; `SATADD16` clamps the exact sum; `ASR8` is the floor of a quotient by 256, and on a
signed 32-bit integer stays in the 24-bit range. -/
def Obligations.IntegerNarrowing : Prop :=
  (∀ n : Nat, (n = 16 ∨ n = 24) → ∀ k : Int,
    (2 ^ (n - 1) - 1 < k → clamp n k = 2 ^ (n - 1) - 1) ∧ (k < -2 ^ (n - 1) → clamp n k = -2 ^ (n - 1)) ∧
    (-2 ^ (n - 1) ≤ k → k ≤ 2 ^ (n - 1) - 1 → clamp n k = k)) ∧
  (∀ n : Nat, (n = 16 ∨ n = 32) → ∀ k : Int, (wrap n k : Int) = k % 2 ^ n ∧ wrap n k < 2 ^ n) ∧
  (∀ n : Nat, (n = 16 ∨ n = 32) → ∀ a b : Nat, wrap n (sext n a + sext n b) = (a + b) % 2 ^ n) ∧
  (∀ a b : Int, satAdd16 a b = clamp 16 (a + b)) ∧
  (∀ c : Int, asr8 c = ⌊(c : ℚ) / 256⌋) ∧
  ∀ c : Int, -2 ^ 31 ≤ c → c < 2 ^ 31 → -8388608 ≤ asr8 c ∧ asr8 c ≤ 8388607

/-- The 16-bit round trip through float changes nothing (R132 b): converting a 16-bit sample to float and back gives
the sample, for every one of them. -/
def Obligations.SixteenBitRoundTripIsIdentity : Prop :=
  ∀ v : Int, -32768 ≤ v → v ≤ 32767 →
    clamp 16 (roundToInt (fmul (fdiv (i2f v) Config.k16) Config.k16)) = v

/-- The 16-bit quantization of a sample in [-1, 1], decoded again, differs from the sample by less than one LSB
(R132 a). -/
def Obligations.QuantizationErrorBelowOneLsb : Prop :=
  ∀ s : Word, isFinite s = true → |value s| ≤ 1 →
    |value (fdiv (i2f (clamp 16 (roundToInt (fmul s Config.k16)))) Config.k16) - value s| < 1 / 32767

/-! ### Memory -/

/-- An element written reads back, bytes elsewhere read as before, and the canonical form is kept (R42), for every
element inside the address space. -/
def Obligations.ElementWriteThenRead : Prop :=
  ∀ (m : Memory) (a n v : Nat), Memory.wf m = true → a + n ≤ 2 ^ 32 → v < 2 ^ (8 * n) →
    Memory.wf (Memory.write m a n v) = true ∧ Memory.read (Memory.write m a n v) a n = v ∧
    ∀ b, b < a ∨ a + n ≤ b → Memory.readByte (Memory.write m a n v) b = Memory.readByte m b
end

