-- ==== Sys2Proof/Laws/Memory.lean ====
section
/-! SUPPORT. The laws of `MEM` (R31, R42): a read after a write gives what was written, a write leaves every
other byte alone, and every write keeps the canonical form. -/

namespace Sys2Proof.Machine

/-! ### The canonical form -/

theorem Memory.wfFrom_cons (lo a : Nat) (v : Byte) (m : Memory) :
    Memory.wfFrom lo ((a, v) :: m) = true ↔
      lo ≤ a ∧ a < Config.addressSpace ∧ v ≠ Config.unwrittenByte ∧ Memory.wfFrom (a + 1) m = true := by
  simp [Memory.wfFrom, and_assoc]

/-- A canonical list may start lower. -/
theorem Memory.wfFrom_mono {lo lo' : Nat} (h : lo' ≤ lo) {m : Memory} (hm : Memory.wfFrom lo m = true) :
    Memory.wfFrom lo' m = true := by
  cases m with
  | nil => rfl
  | cons c m =>
    obtain ⟨a, v⟩ := c
    rw [Memory.wfFrom_cons] at hm ⊢
    exact ⟨h.trans hm.1, hm.2⟩

/-- Below its first address a canonical list reads as unwritten. -/
theorem Memory.readByte_below {lo a : Nat} (h : a < lo) {m : Memory} (hm : Memory.wfFrom lo m = true) :
    Memory.readByte m a = Config.unwrittenByte := by
  cases m with
  | nil => rfl
  | cons c m =>
    obtain ⟨b, v⟩ := c
    have hb := ((Memory.wfFrom_cons _ _ _ _).1 hm).1
    simp [Memory.readByte, Nat.lt_of_lt_of_le h hb]

theorem Memory.cell_wf {lo a : Nat} {v : Byte} {m : Memory} (h1 : lo ≤ a) (h2 : a < Config.addressSpace)
    (hm : Memory.wfFrom (a + 1) m = true) : Memory.wfFrom lo (Memory.cell a v m) = true := by
  unfold Memory.cell
  split
  · exact Memory.wfFrom_mono (Nat.le_succ_of_le h1) hm
  · exact (Memory.wfFrom_cons _ _ _ _).2 ⟨h1, h2, ‹_›, hm⟩

/-- Storing a byte keeps the canonical form. -/
theorem Memory.writeByte_wfFrom {lo a : Nat} {v : Byte} {m : Memory} (h1 : lo ≤ a)
    (h2 : a < Config.addressSpace) (hm : Memory.wfFrom lo m = true) :
    Memory.wfFrom lo (Memory.writeByte m a v) = true := by
  induction m generalizing lo with
  | nil => exact Memory.cell_wf h1 h2 rfl
  | cons c m ih =>
    obtain ⟨b, w⟩ := c
    obtain ⟨hb1, hb2, hb3, hb4⟩ := (Memory.wfFrom_cons _ _ _ _).1 hm
    simp only [Memory.writeByte]
    split
    · exact Memory.cell_wf h1 h2 ((Memory.wfFrom_cons _ _ _ _).2 ⟨by omega, hb2, hb3, hb4⟩)
    · split
      · subst b
        exact Memory.cell_wf h1 h2 hb4
      · exact (Memory.wfFrom_cons _ _ _ _).2 ⟨hb1, hb2, hb3, ih (by omega) hb4⟩

/-- Storing a byte keeps the canonical form (all of memory). -/
theorem Memory.writeByte_wf {a : Nat} {v : Byte} {m : Memory} (h : a < Config.addressSpace)
    (hm : Memory.wf m = true) : Memory.wf (Memory.writeByte m a v) = true :=
  Memory.writeByte_wfFrom (Nat.zero_le a) h hm

/-- Storing an element keeps the canonical form. -/
theorem Memory.write_wf {a n v : Nat} {m : Memory} (h : a + n ≤ Config.addressSpace)
    (hm : Memory.wf m = true) : Memory.wf (Memory.write m a n v) = true := by
  induction n generalizing a v m with
  | zero => exact hm
  | succ n ih => exact ih (by omega) (Memory.writeByte_wf (by omega) hm)

/-! ### One byte -/

theorem Memory.readByte_cell_same {a : Nat} {v : Byte} {m : Memory} (hm : Memory.wfFrom (a + 1) m = true) :
    Memory.readByte (Memory.cell a v m) a = v := by
  unfold Memory.cell
  split
  · next h => rw [Memory.readByte_below (Nat.lt_succ_self a) hm, h]
  · simp [Memory.readByte]

theorem Memory.readByte_cell_other {a b : Nat} {v : Byte} {m : Memory} (h : b ≠ a)
    (hm : Memory.wfFrom (a + 1) m = true) :
    Memory.readByte (Memory.cell a v m) b = Memory.readByte m b := by
  unfold Memory.cell
  split
  · rfl
  · simp only [Memory.readByte, if_neg h]
    split
    · next hlt => exact (Memory.readByte_below (by omega) hm).symm
    · rfl

theorem Memory.readByte_writeByte_from {lo a b : Nat} {v : Byte} {m : Memory}
    (hm : Memory.wfFrom lo m = true) :
    Memory.readByte (Memory.writeByte m a v) b = if b = a then v else Memory.readByte m b := by
  induction m generalizing lo with
  | nil =>
    by_cases h : b = a
    · subst h; simpa [Memory.writeByte] using Memory.readByte_cell_same (m := []) rfl
    · simpa [h, Memory.writeByte] using Memory.readByte_cell_other (m := []) h rfl
  | cons c m ih =>
    obtain ⟨d, w⟩ := c
    obtain ⟨hd1, hd2, hd3, hd4⟩ := (Memory.wfFrom_cons _ _ _ _).1 hm
    simp only [Memory.writeByte]
    split
    · next hlt =>
      have hw : Memory.wfFrom (a + 1) ((d, w) :: m) = true :=
        (Memory.wfFrom_cons _ _ _ _).2 ⟨by omega, hd2, hd3, hd4⟩
      by_cases h : b = a
      · subst h; simpa using Memory.readByte_cell_same hw
      · simpa [h] using Memory.readByte_cell_other h hw
    · next hlt =>
      split
      · next heq =>
        subst heq
        by_cases h : b = a
        · subst h; simpa using Memory.readByte_cell_same hd4
        · rw [Memory.readByte_cell_other h hd4, if_neg h]
          simp only [Memory.readByte, if_neg h]
          split
          · exact Memory.readByte_below (by omega) hd4
          · rfl
      · next hne =>
        simp only [Memory.readByte]
        by_cases hbd : b < d
        · simp only [if_pos hbd]
          rw [if_neg (by omega)]
        · simp only [if_neg hbd]
          by_cases hbe : b = d
          · simp only [if_pos hbe]
            rw [if_neg (by omega)]
          · simp only [if_neg hbe]
            exact ih hd4

/-- What a byte reads as after a byte is stored (R42, R50). -/
theorem Memory.readByte_writeByte {a b : Nat} {v : Byte} {m : Memory} (hm : Memory.wf m = true) :
    Memory.readByte (Memory.writeByte m a v) b = if b = a then v else Memory.readByte m b :=
  Memory.readByte_writeByte_from hm

/-! ### Elements -/

/-- A byte outside a stored element reads as before (R42: "`MemWrite` changes exactly `n` bytes"). -/
theorem Memory.readByte_write_outside {a n v b : Nat} {m : Memory} (ha : a + n ≤ Config.addressSpace)
    (hm : Memory.wf m = true) (h : b < a ∨ a + n ≤ b) :
    Memory.readByte (Memory.write m a n v) b = Memory.readByte m b := by
  induction n generalizing a v m with
  | zero => rfl
  | succ n ih =>
    simp only [Memory.write]
    rw [ih (by omega) (Memory.writeByte_wf (by omega) hm) (by omega), Memory.readByte_writeByte hm,
      if_neg (by omega)]

/-- A byte inside a stored element reads as the byte of the value at its place (R42). -/
theorem Memory.readByte_write_inside {a n v k : Nat} {m : Memory} (ha : a + n ≤ Config.addressSpace)
    (hm : Memory.wf m = true) (h : k < n) :
    Memory.readByte (Memory.write m a n v) (a + k) = BitVec.ofNat 8 (v / 256 ^ k) := by
  induction n generalizing a v m k with
  | zero => omega
  | succ n ih =>
    have hw := Memory.writeByte_wf (v := BitVec.ofNat 8 v) (a := a) (by omega) hm
    simp only [Memory.write]
    cases k with
    | zero =>
      rw [Memory.readByte_write_outside (by omega) hw (by omega), Memory.readByte_writeByte hm]
      simp
    | succ k =>
      have := ih (a := a + 1) (v := v / 256) (k := k) (by omega) hw (by omega)
      rw [show a + (k + 1) = a + 1 + k by omega, this, Nat.div_div_eq_div_mul, pow_succ']

/-- An element whose bytes agree in two memories reads the same in both. -/
theorem Memory.read_congr {a n : Nat} {m m' : Memory}
    (h : ∀ k < n, Memory.readByte m (a + k) = Memory.readByte m' (a + k)) :
    Memory.read m a n = Memory.read m' a n := by
  induction n generalizing a with
  | zero => rfl
  | succ n ih =>
    have h0 := h 0 (by omega)
    simp only [Nat.add_zero] at h0
    simp only [Memory.read, h0]
    rw [ih fun k hk => by simpa [Nat.add_assoc, Nat.add_comm 1 k] using h (k + 1) (by omega)]

/-- An element read is a number of its width. -/
theorem Memory.read_lt (m : Memory) (a n : Nat) : Memory.read m a n < 2 ^ (8 * n) := by
  induction n generalizing a with
  | zero => simp [Memory.read]
  | succ n ih =>
    have h1 := (Memory.readByte m a).isLt
    have h2 := ih (a + 1)
    have h3 : 2 ^ (8 * (n + 1)) = 256 * 2 ^ (8 * n) := by
      rw [show 8 * (n + 1) = 8 + 8 * n by ring, pow_add]; norm_num
    simp only [Memory.read]
    omega

theorem Memory.read_write_same_mod {a n v : Nat} {m : Memory} (ha : a + n ≤ Config.addressSpace)
    (hm : Memory.wf m = true) : Memory.read (Memory.write m a n v) a n = v % 2 ^ (8 * n) := by
  induction n generalizing a v m with
  | zero => simp [Memory.read, Nat.mod_one]
  | succ n ih =>
    have hw := Memory.writeByte_wf (v := BitVec.ofNat 8 v) (a := a) (by omega) hm
    have h0 : Memory.readByte (Memory.write m a (n + 1) v) a = BitVec.ofNat 8 v := by
      simpa using Memory.readByte_write_inside (k := 0) (v := v) ha hm (by omega)
    simp only [Memory.read, h0]
    simp only [Memory.write]
    rw [ih (by omega) hw]
    have h3 : 2 ^ (8 * (n + 1)) = 256 * 2 ^ (8 * n) := by
      rw [show 8 * (n + 1) = 8 + 8 * n by ring, pow_add]; norm_num
    rw [h3, Nat.mod_mul]
    simp

/-- An element outside a stored element reads as before. -/
theorem Memory.read_write_disjoint {a n v b k : Nat} {m : Memory} (ha : a + n ≤ Config.addressSpace)
    (hm : Memory.wf m = true) (h : b + k ≤ a ∨ a + n ≤ b) :
    Memory.read (Memory.write m a n v) b k = Memory.read m b k :=
  Memory.read_congr fun j hj => Memory.readByte_write_outside ha hm (by omega)

end Sys2Proof.Machine
end

