-- ==== Sys2Proof/Laws/State.lean ====
section
/-! SUPPORT. What each update of the state does to each field: one lemma per field per update. -/

namespace Sys2Proof.Machine

/-! ### `State.store` -/

@[simp] theorem State.store_src (s : State) (a n v : Nat) :
    (s.store a n v).src = s.src := rfl

@[simp] theorem State.store_dst (s : State) (a n v : Nat) :
    (s.store a n v).dst = s.dst := rfl

@[simp] theorem State.store_cnt (s : State) (a n v : Nat) :
    (s.store a n v).cnt = s.cnt := rfl

@[simp] theorem State.store_dstride (s : State) (a n v : Nat) :
    (s.store a n v).dstride = s.dstride := rfl

@[simp] theorem State.store_sstride (s : State) (a n v : Nat) :
    (s.store a n v).sstride = s.sstride := rfl

@[simp] theorem State.store_val (s : State) (a n v : Nat) :
    (s.store a n v).val = s.val := rfl

@[simp] theorem State.store_cmd (s : State) (a n v : Nat) :
    (s.store a n v).cmd = s.cmd := rfl

@[simp] theorem State.store_dither (s : State) (a n v : Nat) :
    (s.store a n v).dither = s.dither := rfl

@[simp] theorem State.store_rndIdx (s : State) (a n v : Nat) :
    (s.store a n v).rndIdx = s.rndIdx := rfl

@[simp] theorem State.store_mem (s : State) (a n v : Nat) :
    (s.store a n v).mem = Memory.write s.mem a n v := rfl

@[simp] theorem State.store_rndKnown (s : State) (a n v : Nat) :
    (s.store a n v).rndKnown = s.rndKnown := rfl

@[simp] theorem State.store_owned (s : State) (a n v : Nat) :
    (s.store a n v).owned = s.owned := rfl

@[simp] theorem State.store_sfcBase (s : State) (a n v : Nat) :
    (s.store a n v).sfcBase = s.sfcBase := rfl

@[simp] theorem State.store_host (s : State) (a n v : Nat) :
    (s.store a n v).host = s.host := rfl

@[simp] theorem State.store_during (s : State) (a n v : Nat) :
    (s.store a n v).during = s.during := rfl

@[simp] theorem State.store_readData (s : State) (a n v : Nat) :
    (s.store a n v).readData = s.readData := rfl

/-! ### `State.drawn` -/

@[simp] theorem State.drawn_src (s : State) :
    (s.drawn).src = s.src := rfl

@[simp] theorem State.drawn_dst (s : State) :
    (s.drawn).dst = s.dst := rfl

@[simp] theorem State.drawn_cnt (s : State) :
    (s.drawn).cnt = s.cnt := rfl

@[simp] theorem State.drawn_dstride (s : State) :
    (s.drawn).dstride = s.dstride := rfl

@[simp] theorem State.drawn_sstride (s : State) :
    (s.drawn).sstride = s.sstride := rfl

@[simp] theorem State.drawn_val (s : State) :
    (s.drawn).val = s.val := rfl

@[simp] theorem State.drawn_cmd (s : State) :
    (s.drawn).cmd = s.cmd := rfl

@[simp] theorem State.drawn_dither (s : State) :
    (s.drawn).dither = s.dither := rfl

@[simp] theorem State.drawn_rndIdx (s : State) :
    (s.drawn).rndIdx = s.rndIdx + 1 := rfl

@[simp] theorem State.drawn_mem (s : State) :
    (s.drawn).mem = s.mem := rfl

@[simp] theorem State.drawn_rndKnown (s : State) :
    (s.drawn).rndKnown = s.rndKnown := rfl

@[simp] theorem State.drawn_owned (s : State) :
    (s.drawn).owned = s.owned := rfl

@[simp] theorem State.drawn_sfcBase (s : State) :
    (s.drawn).sfcBase = s.sfcBase := rfl

@[simp] theorem State.drawn_host (s : State) :
    (s.drawn).host = s.host := rfl

@[simp] theorem State.drawn_during (s : State) :
    (s.drawn).during = s.during := rfl

@[simp] theorem State.drawn_readData (s : State) :
    (s.drawn).readData = s.readData := rfl

/-! ### `State.setContext` -/

@[simp] theorem State.setContext_src (s : State) (c : CtxNum) (d : DitherCtx) :
    (s.setContext c d).src = s.src := rfl

@[simp] theorem State.setContext_dst (s : State) (c : CtxNum) (d : DitherCtx) :
    (s.setContext c d).dst = s.dst := rfl

@[simp] theorem State.setContext_cnt (s : State) (c : CtxNum) (d : DitherCtx) :
    (s.setContext c d).cnt = s.cnt := rfl

@[simp] theorem State.setContext_dstride (s : State) (c : CtxNum) (d : DitherCtx) :
    (s.setContext c d).dstride = s.dstride := rfl

@[simp] theorem State.setContext_sstride (s : State) (c : CtxNum) (d : DitherCtx) :
    (s.setContext c d).sstride = s.sstride := rfl

@[simp] theorem State.setContext_val (s : State) (c : CtxNum) (d : DitherCtx) :
    (s.setContext c d).val = s.val := rfl

@[simp] theorem State.setContext_cmd (s : State) (c : CtxNum) (d : DitherCtx) :
    (s.setContext c d).cmd = s.cmd := rfl

@[simp] theorem State.setContext_dither (s : State) (c : CtxNum) (d : DitherCtx) :
    (s.setContext c d).dither = s.dither.set c.toNat d := rfl

@[simp] theorem State.setContext_rndIdx (s : State) (c : CtxNum) (d : DitherCtx) :
    (s.setContext c d).rndIdx = s.rndIdx := rfl

@[simp] theorem State.setContext_mem (s : State) (c : CtxNum) (d : DitherCtx) :
    (s.setContext c d).mem = s.mem := rfl

@[simp] theorem State.setContext_rndKnown (s : State) (c : CtxNum) (d : DitherCtx) :
    (s.setContext c d).rndKnown = s.rndKnown := rfl

@[simp] theorem State.setContext_owned (s : State) (c : CtxNum) (d : DitherCtx) :
    (s.setContext c d).owned = s.owned := rfl

@[simp] theorem State.setContext_sfcBase (s : State) (c : CtxNum) (d : DitherCtx) :
    (s.setContext c d).sfcBase = s.sfcBase := rfl

@[simp] theorem State.setContext_host (s : State) (c : CtxNum) (d : DitherCtx) :
    (s.setContext c d).host = s.host := rfl

@[simp] theorem State.setContext_during (s : State) (c : CtxNum) (d : DitherCtx) :
    (s.setContext c d).during = s.during := rfl

@[simp] theorem State.setContext_readData (s : State) (c : CtxNum) (d : DitherCtx) :
    (s.setContext c d).readData = s.readData := rfl

/-! ### `State.retire` -/

@[simp] theorem State.retire_src (s : State) :
    (s.retire).src = s.src := rfl

@[simp] theorem State.retire_dst (s : State) :
    (s.retire).dst = s.dst := rfl

@[simp] theorem State.retire_cnt (s : State) :
    (s.retire).cnt = s.cnt := rfl

@[simp] theorem State.retire_dstride (s : State) :
    (s.retire).dstride = s.dstride := rfl

@[simp] theorem State.retire_sstride (s : State) :
    (s.retire).sstride = s.sstride := rfl

@[simp] theorem State.retire_val (s : State) :
    (s.retire).val = s.val := rfl

@[simp] theorem State.retire_cmd (s : State) :
    (s.retire).cmd = none := rfl

@[simp] theorem State.retire_dither (s : State) :
    (s.retire).dither = s.dither := rfl

@[simp] theorem State.retire_rndIdx (s : State) :
    (s.retire).rndIdx = s.rndIdx := rfl

@[simp] theorem State.retire_mem (s : State) :
    (s.retire).mem = s.mem := rfl

@[simp] theorem State.retire_rndKnown (s : State) :
    (s.retire).rndKnown = s.rndKnown := rfl

@[simp] theorem State.retire_owned (s : State) :
    (s.retire).owned = s.owned := rfl

@[simp] theorem State.retire_sfcBase (s : State) :
    (s.retire).sfcBase = s.sfcBase := rfl

@[simp] theorem State.retire_host (s : State) :
    (s.retire).host = s.host := rfl

@[simp] theorem State.retire_during (s : State) :
    (s.retire).during = [] := rfl

@[simp] theorem State.retire_readData (s : State) :
    (s.retire).readData = s.readData := rfl

/-! ### `State.applyReset` -/

@[simp] theorem State.applyReset_src (s : State) :
    (s.applyReset).src = 0 := rfl

@[simp] theorem State.applyReset_dst (s : State) :
    (s.applyReset).dst = 0 := rfl

@[simp] theorem State.applyReset_cnt (s : State) :
    (s.applyReset).cnt = 0 := rfl

@[simp] theorem State.applyReset_dstride (s : State) :
    (s.applyReset).dstride = 0 := rfl

@[simp] theorem State.applyReset_sstride (s : State) :
    (s.applyReset).sstride = 0 := rfl

@[simp] theorem State.applyReset_val (s : State) :
    (s.applyReset).val = 0 := rfl

@[simp] theorem State.applyReset_cmd (s : State) :
    (s.applyReset).cmd = none := rfl

@[simp] theorem State.applyReset_dither (s : State) :
    (s.applyReset).dither = s.dither.map DitherCtx.cleared := rfl

@[simp] theorem State.applyReset_rndIdx (s : State) :
    (s.applyReset).rndIdx = 0 := rfl

@[simp] theorem State.applyReset_mem (s : State) :
    (s.applyReset).mem = s.mem := rfl

@[simp] theorem State.applyReset_rndKnown (s : State) :
    (s.applyReset).rndKnown = s.rndKnown := rfl

@[simp] theorem State.applyReset_owned (s : State) :
    (s.applyReset).owned = s.owned := rfl

@[simp] theorem State.applyReset_sfcBase (s : State) :
    (s.applyReset).sfcBase = s.sfcBase := rfl

@[simp] theorem State.applyReset_host (s : State) :
    (s.applyReset).host = s.host := rfl

@[simp] theorem State.applyReset_during (s : State) :
    (s.applyReset).during = s.during := rfl

@[simp] theorem State.applyReset_readData (s : State) :
    (s.applyReset).readData = s.readData := rfl

/-! ### `State.withFetchWord` -/

@[simp] theorem State.withFetchWord_src (s : State) (nbits w : Nat) :
    (s.withFetchWord nbits w).src = s.src := rfl

@[simp] theorem State.withFetchWord_dst (s : State) (nbits w : Nat) :
    (s.withFetchWord nbits w).dst = s.dst := rfl

@[simp] theorem State.withFetchWord_cnt (s : State) (nbits w : Nat) :
    (s.withFetchWord nbits w).cnt = s.cnt := rfl

@[simp] theorem State.withFetchWord_dstride (s : State) (nbits w : Nat) :
    (s.withFetchWord nbits w).dstride = s.dstride := rfl

@[simp] theorem State.withFetchWord_sstride (s : State) (nbits w : Nat) :
    (s.withFetchWord nbits w).sstride = s.sstride := rfl

@[simp] theorem State.withFetchWord_val (s : State) (nbits w : Nat) :
    (s.withFetchWord nbits w).val = s.val := rfl

@[simp] theorem State.withFetchWord_cmd (s : State) (nbits w : Nat) :
    (s.withFetchWord nbits w).cmd = some (BitVec.ofNat 32 (w % 2 ^ nbits)) := rfl

@[simp] theorem State.withFetchWord_dither (s : State) (nbits w : Nat) :
    (s.withFetchWord nbits w).dither = s.dither := rfl

@[simp] theorem State.withFetchWord_rndIdx (s : State) (nbits w : Nat) :
    (s.withFetchWord nbits w).rndIdx = s.rndIdx := rfl

@[simp] theorem State.withFetchWord_mem (s : State) (nbits w : Nat) :
    (s.withFetchWord nbits w).mem = s.mem := rfl

@[simp] theorem State.withFetchWord_rndKnown (s : State) (nbits w : Nat) :
    (s.withFetchWord nbits w).rndKnown = s.rndKnown := rfl

@[simp] theorem State.withFetchWord_owned (s : State) (nbits w : Nat) :
    (s.withFetchWord nbits w).owned = s.owned := rfl

@[simp] theorem State.withFetchWord_sfcBase (s : State) (nbits w : Nat) :
    (s.withFetchWord nbits w).sfcBase = s.sfcBase := rfl

@[simp] theorem State.withFetchWord_host (s : State) (nbits w : Nat) :
    (s.withFetchWord nbits w).host = s.host := rfl

@[simp] theorem State.withFetchWord_during (s : State) (nbits w : Nat) :
    (s.withFetchWord nbits w).during = s.during := rfl

@[simp] theorem State.withFetchWord_readData (s : State) (nbits w : Nat) :
    (s.withFetchWord nbits w).readData = s.readData := rfl

/-! ### `State.writeReg` -/

@[simp] theorem State.writeReg_cmd (s : State) (r : OperandReg) (v : Word) :
    (s.writeReg r v).cmd = s.cmd := by cases r <;> rfl

@[simp] theorem State.writeReg_dither (s : State) (r : OperandReg) (v : Word) :
    (s.writeReg r v).dither = s.dither := by cases r <;> rfl

@[simp] theorem State.writeReg_rndIdx (s : State) (r : OperandReg) (v : Word) :
    (s.writeReg r v).rndIdx = s.rndIdx := by cases r <;> rfl

@[simp] theorem State.writeReg_mem (s : State) (r : OperandReg) (v : Word) :
    (s.writeReg r v).mem = s.mem := by cases r <;> rfl

@[simp] theorem State.writeReg_rndKnown (s : State) (r : OperandReg) (v : Word) :
    (s.writeReg r v).rndKnown = s.rndKnown := by cases r <;> rfl

@[simp] theorem State.writeReg_owned (s : State) (r : OperandReg) (v : Word) :
    (s.writeReg r v).owned = s.owned := by cases r <;> rfl

@[simp] theorem State.writeReg_sfcBase (s : State) (r : OperandReg) (v : Word) :
    (s.writeReg r v).sfcBase = s.sfcBase := by cases r <;> rfl

@[simp] theorem State.writeReg_host (s : State) (r : OperandReg) (v : Word) :
    (s.writeReg r v).host = s.host := by cases r <;> rfl

@[simp] theorem State.writeReg_during (s : State) (r : OperandReg) (v : Word) :
    (s.writeReg r v).during = s.during := by cases r <;> rfl

@[simp] theorem State.writeReg_readData (s : State) (r : OperandReg) (v : Word) :
    (s.writeReg r v).readData = s.readData := by cases r <;> rfl

/-- A register written reads back (R22). -/
@[simp] theorem State.readReg_writeReg_same (s : State) (r : OperandReg) (v : Word) :
    (s.writeReg r v).readReg r = v := by cases r <;> rfl

/-- Writing one operand register leaves the others alone. -/
theorem State.readReg_writeReg_other (s : State) (r q : OperandReg) (v : Word) (h : q ≠ r) :
    (s.writeReg r v).readReg q = s.readReg q := by
  cases r <;> cases q <;> first | rfl | exact absurd rfl h

/-! ### Derived reads -/

@[simp] theorem State.load_store_eq (s : State) (a n b m v : Nat) :
    (s.store a n v).load b m = Memory.read (Memory.write s.mem a n v) b m := rfl

@[simp] theorem State.rnd_store (s : State) (a n v k : Nat) : (s.store a n v).rnd k = s.rnd k := rfl

@[simp] theorem State.rnd_drawn (s : State) (k : Nat) : s.drawn.rnd k = s.rnd k := rfl

@[simp] theorem State.rnd_setContext (s : State) (c : CtxNum) (d : DitherCtx) (k : Nat) :
    (s.setContext c d).rnd k = s.rnd k := rfl

@[simp] theorem State.context_store (s : State) (a n v : Nat) (c : CtxNum) :
    (s.store a n v).context c = s.context c := rfl

@[simp] theorem State.context_drawn (s : State) (c : CtxNum) : s.drawn.context c = s.context c := rfl

/-- A context written reads back, if it exists. -/
theorem State.context_setContext_same (s : State) (c : CtxNum) (d : DitherCtx)
    (h : c.toNat < s.dither.length) : (s.setContext c d).context c = d := by
  simp [State.context, State.setContext, List.getD, h]

/-- Writing one context leaves the others alone. -/
theorem State.context_setContext_other (s : State) (c e : CtxNum) (d : DitherCtx) (h : e ≠ c) :
    (s.setContext c d).context e = s.context e := by
  have : c.toNat ≠ e.toNat := fun hn => h (BitVec.eq_of_toNat_eq hn.symm)
  simp [State.context, State.setContext, List.getD, List.getElem?_set_ne this]

@[simp] theorem srcFixed_store (w : Nat) (s : State) (a n v : Nat) (i : Nat) :
     srcFixed w (s.store a n v) i = srcFixed w s i := rfl

@[simp] theorem srcFixed_drawn (w : Nat) (s : State) (i : Nat) :
     srcFixed w (s.drawn) i = srcFixed w s i := rfl

@[simp] theorem srcFixed_setContext (w : Nat) (s : State) (c : CtxNum) (d : DitherCtx) (i : Nat) :
     srcFixed w (s.setContext c d) i = srcFixed w s i := rfl

@[simp] theorem srcStrided_store (s : State) (a n v : Nat) (i : Nat) :
     srcStrided (s.store a n v) i = srcStrided s i := rfl

@[simp] theorem srcStrided_drawn (s : State) (i : Nat) :
     srcStrided (s.drawn) i = srcStrided s i := rfl

@[simp] theorem srcStrided_setContext (s : State) (c : CtxNum) (d : DitherCtx) (i : Nat) :
     srcStrided (s.setContext c d) i = srcStrided s i := rfl

@[simp] theorem dstFixed_store (w : Nat) (s : State) (a n v : Nat) (i : Nat) :
     dstFixed w (s.store a n v) i = dstFixed w s i := rfl

@[simp] theorem dstFixed_drawn (w : Nat) (s : State) (i : Nat) :
     dstFixed w (s.drawn) i = dstFixed w s i := rfl

@[simp] theorem dstFixed_setContext (w : Nat) (s : State) (c : CtxNum) (d : DitherCtx) (i : Nat) :
     dstFixed w (s.setContext c d) i = dstFixed w s i := rfl

@[simp] theorem dstStrided_store (s : State) (a n v : Nat) (i : Nat) :
     dstStrided (s.store a n v) i = dstStrided s i := rfl

@[simp] theorem dstStrided_drawn (s : State) (i : Nat) :
     dstStrided (s.drawn) i = dstStrided s i := rfl

@[simp] theorem dstStrided_setContext (s : State) (c : CtxNum) (d : DitherCtx) (i : Nat) :
     dstStrided (s.setContext c d) i = dstStrided s i := rfl

end Sys2Proof.Machine
end

