-- ==== Sys2Proof/Laws/Ops.lean ====
section
/-! SUPPORT. What the shared operations can do, said once: the sequencing of results, the element loop (R51),
the checks of R133 and a whole command. -/

namespace Sys2Proof.Machine

/-! ### Sequencing -/

@[simp] theorem andThen_next (s : State) (f : State → Result) : andThen (.next s) f = f s := rfl

@[simp] theorem andThen_fault (e : Fault) (f : State → Result) : andThen (.fault e) f = .fault e := rfl

@[simp] theorem andThen_refused (e : Refusal) (f : State → Result) :
    andThen (.refused e) f = .refused e := rfl

/-- A sequence ends in a next state exactly when both parts do. -/
theorem andThen_eq_next {r : Result} {f : State → Result} {t : State} :
    andThen r f = .next t ↔ ∃ s, r = .next s ∧ f s = .next t := by
  cases r <;> simp [andThen]

theorem andThen_assoc (r : Result) (f g : State → Result) :
    andThen (andThen r f) g = andThen r fun s => andThen (f s) g := by
  cases r <;> rfl

/-! ### The element loop -/

@[simp] theorem forElements_zero (el : Nat → State → Result) (i : Nat) (s : State) :
    forElements el 0 i s = .next s := rfl

theorem forElements_succ (el : Nat → State → Result) (n i : Nat) (s : State) :
    forElements el (n + 1) i s = andThen (el i s) (forElements el n (i + 1)) := rfl

/-- The loop over `m + n` elements is the loop over the first `m` and then over the other `n`. -/
theorem forElements_add (el : Nat → State → Result) (m n i : Nat) (s : State) :
    forElements el (m + n) i s = andThen (forElements el m i s) (forElements el n (i + m)) := by
  induction m generalizing i s with
  | zero => simp
  | succ m ih =>
    have h : ∀ u, forElements el (m + n) (i + 1) u =
        andThen (forElements el m (i + 1) u) (forElements el n (i + (m + 1))) := fun u => by
      rw [ih, Nat.add_right_comm i 1 m, Nat.add_assoc i m 1]
    rw [Nat.add_right_comm, forElements_succ, forElements_succ, andThen_assoc]
    simp only [← h]

/-- The last element runs after all the others. -/
theorem forElements_last (el : Nat → State → Result) (n i : Nat) (s : State) :
    forElements el (n + 1) i s = andThen (forElements el n i s) (el (i + n)) := by
  rw [forElements_add]
  congr 1
  funext u
  simp only [forElements_succ]
  cases el (i + n) u <;> rfl

/-- What every element keeps, the loop keeps; `P k` is what holds before element `k`. -/
theorem forElements_keeps {el : Nat → State → Result} {P : Nat → State → Prop} {n i : Nat} {s t : State}
    (hs : P i s) (hstep : ∀ k u v, i ≤ k → k < i + n → P k u → el k u = .next v → P (k + 1) v)
    (h : forElements el n i s = .next t) : P (i + n) t := by
  induction n generalizing t with
  | zero =>
    simp only [forElements_zero, Host.Outcome.next.injEq] at h
    exact h ▸ hs
  | succ n ih =>
    rw [forElements_last, andThen_eq_next] at h
    obtain ⟨u, hu, hv⟩ := h
    exact hstep (i + n) u t (by omega) (by omega)
      (ih (fun k u v h1 h2 => hstep k u v h1 (by omega)) hu) hv

/-- A loop whose elements all answer a next state answers a next state. -/
theorem forElements_completes {el : Nat → State → Result} {P : Nat → State → Prop} {n i : Nat} {s : State}
    (hs : P i s) (hstep : ∀ k u, i ≤ k → k < i + n → P k u → ∃ v, el k u = .next v ∧ P (k + 1) v) :
    ∃ t, forElements el n i s = .next t ∧ P (i + n) t := by
  induction n with
  | zero => exact ⟨s, rfl, hs⟩
  | succ n ih =>
    obtain ⟨u, hu, hPu⟩ := ih fun k u h1 h2 => hstep k u h1 (by omega)
    obtain ⟨v, hv, hPv⟩ := hstep (i + n) u (by omega) (by omega) hPu
    exact ⟨v, by rw [forElements_last, hu, andThen_next, hv], hPv⟩

/-! ### The checks of R133 -/

theorem strideViolation_eq_none {st : Stream} :
    strideViolation st = none ↔ (st.fromRegister = true → st.width ≤ st.stride) := by
  unfold strideViolation
  split <;> rename_i h <;> simp_all

theorem alignViolation_eq_none {st : Stream} :
    alignViolation st = none ↔
      st.base % st.width = 0 ∧ (st.fromRegister = true → st.stride % st.width = 0) := by
  unfold alignViolation
  split
  · simp_all
  · split <;> rename_i h <;> simp_all

theorem wrapViolation_eq_none {cnt : Nat} {st : Stream} :
    wrapViolation cnt st = none ↔ st.base + (cnt - 1) * st.stride + st.width ≤ 2 ^ 32 := by
  unfold wrapViolation Config.addressSpace
  split
  · next h => simp only [reduceCtorEq, false_iff]; omega
  · next h => simp only [true_iff]; omega

theorem elementExtent_eq_none {owned : List Extent} {a w : Nat} :
    elementExtent owned a w = none ↔ ∀ j < w, ownedByte owned (a + j) = true := by
  simp [elementExtent, List.findSome?_eq_none_iff]

theorem extentViolation_eq_none {owned : List Extent} {cnt : Nat} {st : Stream} :
    extentViolation owned cnt st = none ↔
      ∀ k < cnt, ∀ j < st.width, ownedByte owned (st.element k + j) = true := by
  simp [extentViolation, List.findSome?_eq_none_iff, elementExtent_eq_none]

/-- The checks find nothing exactly when every stream is legal. -/
theorem operandViolation_eq_none {owned : List Extent} {cnt : Nat} {streams : List Stream} :
    operandViolation owned cnt streams = none ↔ ∀ st ∈ streams, StreamLegal owned cnt st := by
  simp only [operandViolation, Option.or_eq_none_iff, List.findSome?_eq_none_iff,
    strideViolation_eq_none, alignViolation_eq_none, wrapViolation_eq_none, extentViolation_eq_none,
    StreamLegal]
  constructor
  · rintro ⟨⟨h1, h2⟩, h3, h4⟩ st hst
    exact ⟨h1 st hst, (h2 st hst).1, (h2 st hst).2, h3 st hst, h4 st hst⟩
  · intro h
    exact ⟨⟨fun st hst => (h st hst).1, fun st hst => ⟨(h st hst).2.1, (h st hst).2.2.1⟩⟩,
      fun st hst => (h st hst).2.2.2.1, fun st hst => (h st hst).2.2.2.2⟩

theorem contextViolation_eq_none {i : Instr} {s : State} :
    contextViolation i s = none ↔ i.wellFormed s.dither.length = true := by
  unfold contextViolation Instr.wellFormed
  cases usedContext i <;> simp

/-! ### A whole command -/

theorem count_toNat_ne_zero {c : Word} : c ≠ 0 ↔ c.toNat ≠ 0 := by
  simp [BitVec.toNat_eq]

/-- A legal command is its element loop. -/
theorem runCommand_legal {i : Instr} {el : Nat → State → Result} {s : State} (h : Legal i s) :
    runCommand i el s = forElements el s.cnt.toNat 0 s := by
  obtain ⟨hc, hs⟩ := h
  simp only [runCommand, contextViolation_eq_none.2 hc]
  split
  · next h0 => simp [h0]
  · next h0 => simp only [operandViolation_eq_none.2 (hs h0)]

/-- A command that answers a next state was legal. -/
theorem runCommand_next {i : Instr} {el : Nat → State → Result} {s t : State}
    (h : runCommand i el s = .next t) :
    Legal i s ∧ forElements el s.cnt.toNat 0 s = .next t := by
  have hl : Legal i s := by
    unfold runCommand at h
    split at h
    · cases h
    · next hc =>
      refine ⟨contextViolation_eq_none.1 hc, fun h0 => ?_⟩
      rw [if_neg h0] at h
      split at h
      · cases h
      · next ho => exact operandViolation_eq_none.1 ho
  exact ⟨hl, runCommand_legal (el := el) hl ▸ h⟩

/-- A command that is not legal faults before it touches memory. -/
theorem runCommand_illegal {i : Instr} {el : Nat → State → Result} {s : State} (h : ¬ Legal i s) :
    ∃ f, runCommand i el s = .fault f ∧
      (contextViolation i s = some f ∨
        contextViolation i s = none ∧ s.cnt ≠ 0 ∧
          operandViolation s.owned s.cnt.toNat (streamsOf i s) = some f) := by
  unfold runCommand
  split
  · next f hc => exact ⟨f, rfl, .inl hc⟩
  · next hc =>
    have h0 : s.cnt ≠ 0 := fun h0 => h ⟨contextViolation_eq_none.1 hc, fun hn => absurd h0 hn⟩
    rw [if_neg h0]
    split
    · next f ho => exact ⟨f, rfl, .inr ⟨hc, h0, ho⟩⟩
    · next ho => exact absurd ⟨contextViolation_eq_none.1 hc, fun _ => operandViolation_eq_none.1 ho⟩ h

end Sys2Proof.Machine
end

