-- ==== Sys2Proof/Laws/Bus.lean ====
section
/-! SUPPORT. What the block's edge can do, said once: the register window, other agents' actions, an issued command,
and the three kinds of step. -/

namespace Sys2Proof.Machine

/-- A word access at an offset of the window reaches the register at that offset, wherever the window stands. -/
@[simp] theorem windowAccess?_offset (base offset : Nat) :
    windowAccess? base (base + offset) 4 = windowReg? offset := by
  simp [windowAccess?]

/-- What an access reaches: only a word access at or above the base reaches anything. -/
theorem windowAccess?_eq_some {base addr width : Nat} {r : WindowReg} :
    windowAccess? base addr width = some r ↔
      width = 4 ∧ base ≤ addr ∧ windowReg? (addr - base) = some r := by
  simp [windowAccess?, and_assoc]

@[simp] theorem windowReg?_offset (r : OperandReg) : windowReg? (OperandReg.offset r) = some (.operand r) := by
  cases r <;> rfl

/-- A context is in use by the command that names it, but for a command over streams with `CNT = 0` (R173). -/
theorem contextInUse_eq_some {i : Instr} {s : State} {c : CtxNum} :
    contextInUse i s = some c ↔ usedContext i = some c ∧ (s.cnt = 0 → streamsOf i s = []) := by
  unfold contextInUse
  split
  · rename_i h
    simp [h.1, h.2]
  · rename_i h
    have : s.cnt = 0 → streamsOf i s = [] := fun h0 => by
      by_contra h1
      exact h ⟨h0, h1⟩
    exact ⟨fun hu => ⟨hu, this⟩, And.left⟩

/-- Another agent's action that is no conflict changes memory only. -/
theorem applyOverlap_frame (s : State) (o : Overlap) :
    applyOverlap s o = { s with mem := (applyOverlap s o).mem } := by
  cases o <;> rfl

/-- So do several of them. -/
theorem foldl_applyOverlap_frame (l : List Overlap) (s : State) :
    l.foldl applyOverlap s = { s with mem := (l.foldl applyOverlap s).mem } := by
  induction l generalizing s with
  | nil => rfl
  | cons o l ih => exact (ih _).trans (by cases o <;> rfl)

@[simp] theorem conflicts_reset (i : Instr) (s : State) : conflicts i s .reset = false := rfl

/-- An issued command goes on exactly when the command completes and no action conflicts with it; what the actions
write stands in memory afterwards. -/
theorem runIssued_eq_next {i : Instr} {s t : State} :
    runIssued i s = .next t ↔
      ∃ u, exec i s.retire = .next u ∧ s.during.any (conflicts i s) = false ∧
        t = s.during.foldl applyOverlap u := by
  rw [runIssued, andThen_eq_next]
  refine exists_congr fun u => and_congr_right fun _ => ?_
  by_cases h : s.during.any (conflicts i s) = true <;> simp [h, eq_comm]

/-- A completed command with a conflicting action is the violation `ConcurrentAccess`. -/
theorem runIssued_conflict {i : Instr} {s u : State} (hu : exec i s.retire = .next u)
    (hc : s.during.any (conflicts i s) = true) : runIssued i s = .fault .concurrentAccess := by
  simp [runIssued, hu, hc]

theorem step_cmd {s : State} {c : Word} (h : s.cmd = some c) : step s = issue c s := by
  simp [step, h]

theorem step_idle {s : State} (hc : s.cmd = none) (hh : s.host = []) : step s = .next s := by
  simp [step, hc, hh]

theorem step_host {s : State} {e : HostEvent} {rest : List HostEvent} (hc : s.cmd = none)
    (hh : s.host = e :: rest) : step s = hostEvent e { s with host := rest } := by
  simp [step, hc, hh]

end Sys2Proof.Machine
end

