-- ==== Sys2Proof/Laws/Elements.lean ====
section
/-! SUPPORT. What one element of a command can do: every command but `DCLR` is its element loop, and an element
that answers a next state stores one destination element and otherwise moves only the context it uses and the
draw index. -/

namespace Sys2Proof.Machine

/-- The element of a command; `DCLR` has none. -/
def elementOf : Instr → Nat → State → Result
  | .f2i16 c => convertElement .int16 .none c
  | .f2i24 c => convertElement .int24 .none c
  | .f2i16Rect c => convertElement .int16 .rect c
  | .f2i24Rect c => convertElement .int24 .rect c
  | .f2i16Tri c => convertElement .int16 .tri c
  | .f2i24Tri c => convertElement .int24 .tri c
  | .f2i16Shp c => convertElement .int16 .shp c
  | .f2i24Shp c => convertElement .int24 .shp c
  | .fmrg16 => mergeElement16
  | .fmrg24 => mergeElement24
  | .i2f16 => floatElement16
  | .i2f24 => floatElement24
  | .fill8 => fillElement 1
  | .fill16 => fillElement 2
  | .fill32 => fillElement 4
  | .cpy16 => copyElement 2
  | .cpy32 => copyElement 4
  | .mcpy16 => mergeCopyStrided 2
  | .mcpy32 => mergeCopyStrided 4
  | .mcpyc16 => mergeCopyFixed 2
  | .mcpyc32 => mergeCopyFixed 4
  | .dclr _ => fun _ s => .next s

/-- Every command but `DCLR` is its element run over its streams. -/
theorem exec_eq_runCommand {i : Instr} (h : ∀ c, i ≠ .dclr c) (s : State) :
    exec i s = runCommand i (elementOf i) s := by
  cases i <;> first | rfl | exact absurd rfl (h _)

/-- `DCLR` on a context that exists clears it. -/
theorem exec_dclr {c : CtxNum} {s : State} (h : c.toNat < s.dither.length) :
    exec (.dclr c) s = .next (s.setContext c (s.context c).cleared) := by
  have : contextViolation (.dclr c) s = none := by simp [contextViolation, usedContext, h]
  simp [exec, execDclr, this]

theorem wrap_lt (n : Nat) (k : Int) : wrap n k < 2 ^ n := by
  have h0 : (0 : Int) < 2 ^ n := by positivity
  have h1 := Int.emod_lt_of_pos k h0
  have h2 := Int.emod_nonneg k h0.ne'
  unfold wrap
  have : ((2 ^ n : Nat) : Int) = 2 ^ n := by push_cast; rfl
  omega

/-- What `QUANT` can leave behind (R110): nothing changed, a draw taken, or a draw taken and the context
replaced. -/
theorem quantise_cases {m : DitherMode} {c : CtxNum} {x : Word} {s u : State} {y : Int}
    (h : quantise m c x s = some (y, u)) :
    (m = .none ∧ y = quantNone x ∧ u = s) ∨
    (m = .rect ∧ quantRect x s.nextDraw = some y ∧ u = s.drawn) ∨
    (m = .tri ∧ ∃ d, quantTri x s.nextDraw (s.context c) = some (y, d) ∧ u = s.drawn.setContext c d) ∨
    (m = .shp ∧ ∃ d, quantShp x s.nextDraw (s.context c) = some (y, d) ∧ u = s.drawn.setContext c d) := by
  cases m with
  | none =>
    simp only [quantise, Option.some.injEq, Prod.mk.injEq] at h
    exact .inl ⟨rfl, h.1.symm, h.2.symm⟩
  | rect =>
    simp only [quantise, Option.bind_eq_bind, Option.bind_eq_some_iff, Option.some.injEq,
      Prod.mk.injEq] at h
    obtain ⟨y', hy, rfl, rfl⟩ := h
    exact .inr (.inl ⟨rfl, hy, rfl⟩)
  | tri =>
    simp only [quantise, Option.bind_eq_bind, Option.bind_eq_some_iff, Option.some.injEq,
      Prod.mk.injEq, Prod.exists] at h
    obtain ⟨y', d, hy, rfl, rfl⟩ := h
    exact .inr (.inr (.inl ⟨rfl, d, hy, rfl⟩))
  | shp =>
    simp only [quantise, Option.bind_eq_bind, Option.bind_eq_some_iff, Option.some.injEq,
      Prod.mk.injEq, Prod.exists] at h
    obtain ⟨y', d, hy, rfl, rfl⟩ := h
    exact .inr (.inr (.inr ⟨rfl, d, hy, rfl⟩))

/-- An element of the float-to-integer loop that answers a next state: the scaled sample, the quantised value
and the store (R120). -/
theorem convertElement_next {k : Container} {m : DitherMode} {c : CtxNum} {j : Nat} {s t : State} :
    convertElement k m c j s = .next t ↔
      ∃ x y u, scaledSample k j s = some x ∧ quantise m c x s = some (y, u) ∧
        t = u.store (dstStrided s j) (Container.bytes k) (Container.pack k y) := by
  unfold convertElement
  cases hx : scaledSample k j s with
  | none => simp
  | some x =>
    cases hq : quantise m c x s with
    | none => simp [hq]
    | some p => simp [hq, Prod.ext_iff, eq_comm]

/-- The sample word of an element, before its finiteness is checked. -/
theorem loadSample_eq_some {j : Nat} {s : State} {b : Word} :
    loadSample j s = some b ↔
      b = BitVec.ofNat 32 (s.load (srcFixed 4 s j) 4) ∧ isFinite b = true := by
  unfold loadSample finite?
  constructor
  · intro h
    split at h
    · next hf => cases h; exact ⟨rfl, hf⟩
    · cases h
  · rintro ⟨rfl, hf⟩
    rw [if_pos hf]

/-- The scaled sample of an element that has one (R120): the sample and the product are finite. -/
theorem scaledSample_eq_some {k : Container} {j : Nat} {s : State} {x : Word} :
    scaledSample k j s = some x ↔
      ∃ b, loadSample j s = some b ∧ x = fmul b (Container.factor k) ∧ isFinite x = true := by
  unfold scaledSample finite?
  cases h : loadSample j s with
  | none => simp
  | some b =>
    constructor
    · intro hx
      refine ⟨b, rfl, ?_⟩
      simp only [Option.bind_eq_bind, Option.bind_some] at hx
      split at hx
      · next hf => cases hx; exact ⟨rfl, hf⟩
      · cases hx
    · rintro ⟨_, ⟨rfl⟩, rfl, hf⟩
      simp only [Option.bind_eq_bind, Option.bind_some, if_pos hf]

theorem Container.pack_lt (k : Container) (y : Int) :
    Container.pack k y < 2 ^ (8 * Container.bytes k) := by
  cases k <;> exact wrap_lt _ _

/-- One value of `w` bytes is stored at `a`, after at most the dither contexts and the draw index moved. -/
def StoresOne (a w : Nat) (s t : State) : Prop :=
  ∃ (u : State) (v : Nat), t = u.store a w v ∧ v < 2 ^ (8 * w) ∧
    u = { s with dither := u.dither, rndIdx := u.rndIdx }

/-- A store by itself is such a change. -/
theorem StoresOne.of_store {a w v : Nat} {s : State} (h : v < 2 ^ (8 * w)) :
    StoresOne a w s (s.store a w v) := ⟨s, v, rfl, h, rfl⟩

theorem convertElement_storesOne {kk : Container} {m : DitherMode} {c : CtxNum} {k : Nat} {s t : State}
    (h : convertElement kk m c k s = .next t) :
    StoresOne (dstStrided s k) (Container.bytes kk) s t := by
  obtain ⟨x, y, u, -, hq, ht⟩ := convertElement_next.1 h
  refine ⟨u, _, ht, Container.pack_lt kk y, ?_⟩
  rcases quantise_cases hq with ⟨-, -, rfl⟩ | ⟨-, -, rfl⟩ | ⟨-, d, -, rfl⟩ | ⟨-, d, -, rfl⟩ <;> rfl

/-- Without a context, an element of the float-to-integer loop leaves every context alone (R29). -/
theorem convertElement_dither {kk : Container} {m : DitherMode} {c : CtxNum} {k : Nat} {s t : State}
    (hm : m = .none ∨ m = .rect) (h : convertElement kk m c k s = .next t) : t.dither = s.dither := by
  obtain ⟨x, y, u, -, hq, rfl⟩ := convertElement_next.1 h
  rcases quantise_cases hq with ⟨-, -, rfl⟩ | ⟨-, -, rfl⟩ | ⟨rfl, -⟩ | ⟨rfl, -⟩
  · rfl
  · rfl
  · rcases hm with h | h <;> cases h
  · rcases hm with h | h <;> cases h

theorem mergeElement16_next {k : Nat} {s t : State} :
    mergeElement16 k s = .next t ↔ ∃ x, scaledSample .int16 k s = some x ∧
      t = s.store (dstStrided s k) 2 (mergeInto16 (s.load (dstStrided s k) 2) (roundToInt x)) := by
  unfold mergeElement16
  cases scaledSample .int16 k s <;> simp [eq_comm]

theorem mergeElement24_next {k : Nat} {s t : State} :
    mergeElement24 k s = .next t ↔ ∃ x, scaledSample .int24 k s = some x ∧
      t = s.store (dstStrided s k) 4 (mergeInto24 (s.load (dstStrided s k) 4) (roundToInt x)) := by
  unfold mergeElement24
  cases scaledSample .int24 k s <;> simp [eq_comm]

/-- An element that answers a next state stores one value of its width at its destination address (R49,
R52). -/
theorem elementOf_storesOne {i : Instr} {k : Nat} {s t : State} (h : elementOf i k s = .next t) :
    StoresOne (destElement i s k) (destWidth i) s t := by
  cases i with
  | f2i16 c => exact convertElement_storesOne (kk := .int16) (m := .none) (c := c) h
  | f2i24 c => exact convertElement_storesOne (kk := .int24) (m := .none) (c := c) h
  | f2i16Rect c => exact convertElement_storesOne (kk := .int16) (m := .rect) (c := c) h
  | f2i24Rect c => exact convertElement_storesOne (kk := .int24) (m := .rect) (c := c) h
  | f2i16Tri c => exact convertElement_storesOne (kk := .int16) (m := .tri) (c := c) h
  | f2i24Tri c => exact convertElement_storesOne (kk := .int24) (m := .tri) (c := c) h
  | f2i16Shp c => exact convertElement_storesOne (kk := .int16) (m := .shp) (c := c) h
  | f2i24Shp c => exact convertElement_storesOne (kk := .int24) (m := .shp) (c := c) h
  | fmrg16 =>
    obtain ⟨x, -, rfl⟩ := mergeElement16_next.1 h
    exact StoresOne.of_store (wrap_lt _ _)
  | fmrg24 =>
    obtain ⟨x, -, rfl⟩ := mergeElement24_next.1 h
    exact StoresOne.of_store (wrap_lt _ _)
  | i2f16 => cases h; exact StoresOne.of_store (BitVec.isLt _)
  | i2f24 => cases h; exact StoresOne.of_store (BitVec.isLt _)
  | fill8 => cases h; exact StoresOne.of_store (Nat.mod_lt _ (by positivity))
  | fill16 => cases h; exact StoresOne.of_store (Nat.mod_lt _ (by positivity))
  | fill32 => cases h; exact StoresOne.of_store (Nat.mod_lt _ (by positivity))
  | cpy16 => cases h; exact StoresOne.of_store (Memory.read_lt _ _ _)
  | cpy32 => cases h; exact StoresOne.of_store (Memory.read_lt _ _ _)
  | mcpy16 => cases h; exact StoresOne.of_store (wrap_lt _ _)
  | mcpy32 => cases h; exact StoresOne.of_store (wrap_lt _ _)
  | mcpyc16 => cases h; exact StoresOne.of_store (wrap_lt _ _)
  | mcpyc32 => cases h; exact StoresOne.of_store (wrap_lt _ _)
  | dclr c => cases h; exact ⟨s, 0, rfl, by simp [destWidth], rfl⟩

/-- A command of class `F2I` is one element loop with its container, its mode and its context field; the
others do not touch contexts or draws. -/
def f2iShape : Instr → Option (Container × DitherMode × CtxNum)
  | .f2i16 c => some (.int16, .none, c)
  | .f2i24 c => some (.int24, .none, c)
  | .f2i16Rect c => some (.int16, .rect, c)
  | .f2i24Rect c => some (.int24, .rect, c)
  | .f2i16Tri c => some (.int16, .tri, c)
  | .f2i24Tri c => some (.int24, .tri, c)
  | .f2i16Shp c => some (.int16, .shp, c)
  | .f2i24Shp c => some (.int24, .shp, c)
  | _ => none

theorem elementOf_f2i {i : Instr} {k : Container} {m : DitherMode} {c : CtxNum}
    (h : f2iShape i = some (k, m, c)) : elementOf i = convertElement k m c := by
  cases i <;> simp only [f2iShape, Option.some.injEq, Prod.mk.injEq, reduceCtorEq] at h <;>
    obtain ⟨rfl, rfl, rfl⟩ := h <;> rfl

/-- Outside the class `F2I` an element changes memory only (R29, R112). -/
theorem elementOf_plain {i : Instr} {k : Nat} {s t : State} (hi : f2iShape i = none)
    (h : elementOf i k s = .next t) : t.dither = s.dither ∧ t.rndIdx = s.rndIdx := by
  cases i with
  | fmrg16 => obtain ⟨x, -, rfl⟩ := mergeElement16_next.1 h; exact ⟨rfl, rfl⟩
  | fmrg24 => obtain ⟨x, -, rfl⟩ := mergeElement24_next.1 h; exact ⟨rfl, rfl⟩
  | _ => first | (cases h; exact ⟨rfl, rfl⟩) | cases hi

/-- Which elements can answer nothing: a fault is `NonFinite` at the element itself, in a float-to-integer or a
float-merge command (R171). -/
theorem elementOf_fault {i : Instr} {k : Nat} {s : State} {f : Fault}
    (h : elementOf i k s = .fault f) :
    f = .nonFinite k ∧ ((∃ p, f2iShape i = some p) ∨ i = .fmrg16 ∨ i = .fmrg24) := by
  have conv : ∀ kk m c, convertElement kk m c k s = .fault f → f = .nonFinite k := by
    intro kk m c hc
    unfold convertElement at hc
    cases hx : scaledSample kk k s with
    | none => simp only [hx, Host.Outcome.fault.injEq] at hc; exact hc.symm
    | some x =>
      cases hq : quantise m c x s with
      | none => simp only [hx, hq, Host.Outcome.fault.injEq] at hc; exact hc.symm
      | some p => simp only [hx, hq, reduceCtorEq] at hc
  cases i with
  | fmrg16 =>
    simp only [elementOf, mergeElement16] at h
    split at h
    · cases h; exact ⟨rfl, .inr (.inl rfl)⟩
    · cases h
  | fmrg24 =>
    simp only [elementOf, mergeElement24] at h
    split at h
    · cases h; exact ⟨rfl, .inr (.inr rfl)⟩
    · cases h
  | f2i16 c => exact ⟨conv .int16 .none c h, .inl ⟨_, rfl⟩⟩
  | f2i24 c => exact ⟨conv .int24 .none c h, .inl ⟨_, rfl⟩⟩
  | f2i16Rect c => exact ⟨conv .int16 .rect c h, .inl ⟨_, rfl⟩⟩
  | f2i24Rect c => exact ⟨conv .int24 .rect c h, .inl ⟨_, rfl⟩⟩
  | f2i16Tri c => exact ⟨conv .int16 .tri c h, .inl ⟨_, rfl⟩⟩
  | f2i24Tri c => exact ⟨conv .int24 .tri c h, .inl ⟨_, rfl⟩⟩
  | f2i16Shp c => exact ⟨conv .int16 .shp c h, .inl ⟨_, rfl⟩⟩
  | f2i24Shp c => exact ⟨conv .int24 .shp c h, .inl ⟨_, rfl⟩⟩
  | _ => cases h

/-- No element refuses. -/
theorem elementOf_not_refused {i : Instr} {k : Nat} {s : State} {r : Refusal} :
    elementOf i k s ≠ .refused r := by
  have conv : ∀ kk m c, convertElement kk m c k s ≠ .refused r := by
    intro kk m c
    unfold convertElement
    split
    · nofun
    · split <;> nofun
  cases i with
  | fmrg16 => simp only [elementOf, mergeElement16]; split <;> nofun
  | fmrg24 => simp only [elementOf, mergeElement24]; split <;> nofun
  | f2i16 c => exact conv .int16 .none c
  | f2i24 c => exact conv .int24 .none c
  | f2i16Rect c => exact conv .int16 .rect c
  | f2i24Rect c => exact conv .int24 .rect c
  | f2i16Tri c => exact conv .int16 .tri c
  | f2i24Tri c => exact conv .int24 .tri c
  | f2i16Shp c => exact conv .int16 .shp c
  | f2i24Shp c => exact conv .int24 .shp c
  | _ => nofun

end Sys2Proof.Machine
end

