-- ==== Sys2Proof/Laws/PerInstr.lean ====
section
/-! SUPPORT. The per-instruction family `EncodesItsRow`: the word of a command is the word of its own row of the
opcode map (R67). -/

namespace Sys2Proof.Laws.EncodesItsRow

/-- The row of the opcode map with the command's mnemonic exists and covers its word. -/
def Statement (i : Instr) : Prop :=
  ∃ r ∈ opcodeRows, r.mnemonic = mnemonic i ∧ r.covers (encode i) = true

theorem f2i16 (c : CtxNum) : Statement (.f2i16 c) := by
  unfold Statement
  revert c
  decide +kernel

theorem f2i24 (c : CtxNum) : Statement (.f2i24 c) := by
  unfold Statement
  revert c
  decide +kernel

theorem f2i16Rect (c : CtxNum) : Statement (.f2i16Rect c) := by
  unfold Statement
  revert c
  decide +kernel

theorem f2i24Rect (c : CtxNum) : Statement (.f2i24Rect c) := by
  unfold Statement
  revert c
  decide +kernel

theorem f2i16Tri (c : CtxNum) : Statement (.f2i16Tri c) := by
  unfold Statement
  revert c
  decide +kernel

theorem f2i24Tri (c : CtxNum) : Statement (.f2i24Tri c) := by
  unfold Statement
  revert c
  decide +kernel

theorem f2i16Shp (c : CtxNum) : Statement (.f2i16Shp c) := by
  unfold Statement
  revert c
  decide +kernel

theorem f2i24Shp (c : CtxNum) : Statement (.f2i24Shp c) := by
  unfold Statement
  revert c
  decide +kernel

theorem fmrg16 : Statement .fmrg16 := by
  unfold Statement
  decide +kernel

theorem fmrg24 : Statement .fmrg24 := by
  unfold Statement
  decide +kernel

theorem i2f16 : Statement .i2f16 := by
  unfold Statement
  decide +kernel

theorem i2f24 : Statement .i2f24 := by
  unfold Statement
  decide +kernel

theorem fill8 : Statement .fill8 := by
  unfold Statement
  decide +kernel

theorem fill16 : Statement .fill16 := by
  unfold Statement
  decide +kernel

theorem fill32 : Statement .fill32 := by
  unfold Statement
  decide +kernel

theorem cpy16 : Statement .cpy16 := by
  unfold Statement
  decide +kernel

theorem cpy32 : Statement .cpy32 := by
  unfold Statement
  decide +kernel

theorem mcpy16 : Statement .mcpy16 := by
  unfold Statement
  decide +kernel

theorem mcpy32 : Statement .mcpy32 := by
  unfold Statement
  decide +kernel

theorem mcpyc16 : Statement .mcpyc16 := by
  unfold Statement
  decide +kernel

theorem mcpyc32 : Statement .mcpyc32 := by
  unfold Statement
  decide +kernel

theorem dclr (c : CtxNum) : Statement (.dclr c) := by
  unfold Statement
  revert c
  decide +kernel

end Sys2Proof.Laws.EncodesItsRow
end

