-- ==== Sys2Proof/Tests/Slice0.lean ====
section
/-! SUPPORT. Tests of the model against the spec's own words and vectors (`95_test_vectors.md`; each test's comment
names the rule or the vector its expected result comes from), and for every statement of
`Certificates/Slice0/Obligations.lean` with hypotheses a witness that meets all of them together. -/

open Sys2Proof Sys2Proof.Machine Sys2Proof.Claims

namespace Sys2Proof.Tests

-- One theorem at a time: the tests then stay within the memory the check gives Lean.
set_option Elab.async false

/-! ### Helpers -/

/-- Bytes stored from an address up. -/
def put (m : Memory) (a : Nat) : List Byte → Memory
  | [] => m
  | b :: rest => put (Memory.writeByte m a b) (a + 1) rest

/-- 32-bit words stored little-endian from an address up (R41). -/
def putWords (m : Memory) (a : Nat) : List Nat → Memory
  | [] => m
  | v :: rest => putWords (Memory.write m a 4 v) (a + 4) rest

/-- A block of four contexts with these operands and this memory. -/
def block (src dst cnt dstride sstride : Word) (mem : Memory) : State :=
  { State.reset with src := src, dst := dst, cnt := cnt, dstride := dstride, sstride := sstride, mem := mem }

/-- One float sample at `0x1000`, destination `0x2000`, `CNT = 1`, `DSTRIDE = 4`, these draws. -/
def oneSample (sample : Nat) (draws : List Draw) : State :=
  { block 0x1000 0x2000 1 4 4 (putWords [] 0x1000 [sample]) with rndKnown := draws }

/-- One source word at `0x1000`, one destination word at `0x2000`, `CNT = 1`, both strides 4. -/
def oneEach (source dest : Nat) : State :=
  block 0x1000 0x2000 1 4 4 (putWords (putWords [] 0x1000 [source]) 0x2000 [dest])

/-- The element of `n` bytes at `a` in a next state; nothing at a stop. -/
def result (r : Result) (a n : Nat) : Option Nat :=
  match r with
  | .next t => some (t.load a n)
  | _ => none

/-- Context `c` in a next state. -/
def contextOf (r : Result) (c : CtxNum) : Option DitherCtx :=
  match r with
  | .next t => some (t.context c)
  | _ => none

/-- The fault of a stop. -/
def faultOf (r : Result) : Option Fault :=
  match r with
  | .fault f => some f
  | _ => none

/-- There is a next state. -/
def goesOn (r : Result) : Bool :=
  match r with
  | .next _ => true
  | _ => false

theorem next_of_goesOn {r : Result} (h : goesOn r = true) : ∃ t, r = .next t := by
  cases r with
  | next t => exact ⟨t, rfl⟩
  | fault f => cases h
  | refused f => cases h

theorem fault_of_faultOf {r : Result} {f : Fault} (h : faultOf r = some f) : r = .fault f := by
  cases r with
  | next t => cases h
  | fault g => simpa [faultOf] using h
  | refused g => cases h

/-- What a word decodes to. -/
def decodesTo (c : Word) (i : Instr) : Bool :=
  match decode c with
  | .ok j => j = i
  | .error _ => false

/-- Why a word is reserved. -/
def reservedAs (c : Word) : Option Reserved :=
  match decode c with
  | .ok _ => none
  | .error e => some e

/-! ### Well-formedness (R65) -/

/-- Context numbers at and beyond `NCH` are refused where the number is used. -/
theorem test_wellFormed_refuses :
    Instr.wellFormed 4 (.dclr 4) = false ∧ Instr.wellFormed 4 (.f2i16Tri 4) = false ∧
    Instr.wellFormed 4 (.f2i24Tri 255) = false ∧ Instr.wellFormed 1 (.f2i16Shp 1) = false ∧
    Instr.wellFormed 255 (.f2i24Shp 255) = false := by decide

/-- The last context is accepted, and so is any number where the field is ignored (X10, X11, X12, X15). -/
theorem test_wellFormed_accepts :
    Instr.wellFormed 4 (.dclr 3) = true ∧ Instr.wellFormed 4 (.f2i16Tri 3) = true ∧
    Instr.wellFormed 4 (.f2i16 5) = true ∧ Instr.wellFormed 4 (.f2i24Rect 255) = true ∧
    Instr.wellFormed 1 .fmrg16 = true := by decide

/-! ### Decoding: words written out from R61 and R67 -/

/-- Class `F2I`: `ZERO`, then `CTX`, then `{OPC, DM, W}` (X10, X11, X12). -/
theorem test_decode_f2i :
    decodesTo 0b0000000000000000_00000101_0001_00_01#32 (.f2i16 5) = true ∧
    decodesTo 0b0000000000000000_00000000_0001_00_10#32 (.f2i24 0) = true ∧
    decodesTo 0b0000000000000000_00000000_0001_01_01#32 (.f2i16Rect 0) = true ∧
    decodesTo 0b0000000000000000_11111111_0001_01_10#32 (.f2i24Rect 255) = true ∧
    decodesTo 0b0000000000000000_00000011_0001_10_01#32 (.f2i16Tri 3) = true ∧
    decodesTo 0b0000000000000000_00000001_0001_10_10#32 (.f2i24Tri 1) = true ∧
    decodesTo 0b0000000000000000_00000000_0001_11_01#32 (.f2i16Shp 0) = true ∧
    decodesTo 0b0000000000000000_00000010_0001_11_10#32 (.f2i24Shp 2) = true := by decide

/-- Classes `FMRG` and `I2F`. -/
theorem test_decode_fmrg_i2f :
    decodesTo 0b0000000000000000_00000000_0010_00_01#32 .fmrg16 = true ∧
    decodesTo 0b0000000000000000_00000000_0010_00_10#32 .fmrg24 = true ∧
    decodesTo 0b0000000000000000_00000000_0011_00_01#32 .i2f16 = true ∧
    decodesTo 0b0000000000000000_00000000_0011_00_10#32 .i2f24 = true := by decide

/-- Classes `FILL` and `CPY`. -/
theorem test_decode_fill_cpy :
    decodesTo 0b0000000000000000_00000000_0100_00_00#32 .fill8 = true ∧
    decodesTo 0b0000000000000000_00000000_0100_00_01#32 .fill16 = true ∧
    decodesTo 0b0000000000000000_00000000_0100_00_10#32 .fill32 = true ∧
    decodesTo 0b0000000000000000_00000000_0101_00_01#32 .cpy16 = true ∧
    decodesTo 0b0000000000000000_00000000_0101_00_10#32 .cpy32 = true := by decide

/-- Classes `MCPY`, `MCPYC` and `DCLR` (X15). -/
theorem test_decode_mcpy_dclr :
    decodesTo 0b0000000000000000_00000000_0110_00_01#32 .mcpy16 = true ∧
    decodesTo 0b0000000000000000_00000000_0110_00_10#32 .mcpy32 = true ∧
    decodesTo 0b0000000000000000_00000000_0111_00_01#32 .mcpyc16 = true ∧
    decodesTo 0b0000000000000000_00000000_0111_00_10#32 .mcpyc32 = true ∧
    decodesTo 0b0000000000000000_00000011_1000_00_00#32 (.dclr 3) = true := by decide

/-- Reserved words, each with its reason (X1 to X9 and R68). -/
theorem test_decode_reserved :
    [0x00000000, 0x00010011, 0x00000013, 0x00000010, 0x00000025, 0x00000131, 0x00000084, 0x00000090,
      0x00000050, 0x00000081, 0x000000F1, 0x80000041, 0x00000043, 0x00000142].map reservedAs =
    [some .opClass, some .zeroField, some .width, some .width, some .ditherMode, some .context,
      some .ditherMode, some .opClass, some .width, some .width, some .opClass, some .zeroField, some .width,
      some .context] := by decide

/-- The numbers the host asks with: the row's word alone, and with bits above the table's. -/
theorem test_decodeTableWord :
    decodeTableWord 32 0x319 = some (.f2i16Tri 3) ∧ decodeTableWord 8 0x319 = some (.f2i16Tri 0) ∧
    decodeTableWord 32 0 = none := by decide

/-! ### Primitives (section 2.1 of the vectors) -/

/-- `ROUND` (R85), the row of section 2.1. -/
theorem test_round :
    [0x3F000000, 0x3FC00000, 0x40200000, 0xBF000000, 0xBFC00000, 0xC0200000, 0x467FFE00, 0x468001 * 256,
      0x4AFFFFFD, 0x4AFFFFFF, 0x3EFFFFFF, 0x3F000001].map roundToInt =
    [0, 2, 2, 0, -2, -2, 16384, 16384, 8388606, 8388608, 0, 1] := by decide +kernel

/-- `CLAMP`, `WRAP` and `ASR8` (R87, R88, R90), section 2.1. -/
theorem test_narrowing :
    [32767, 32768, -32768, -32769, 65534].map (clamp 16) = [32767, 32767, -32768, -32768, 32767] ∧
    [8388607, 8388608, -8388608, -8388609].map (clamp 24) = [8388607, 8388607, -8388608, -8388608] ∧
    wrap 16 40000 = 0x9C40 ∧ wrap 16 (-1) = 0xFFFF ∧ wrap 32 (-8388608 * 256) = 0x80000000 ∧
    [0x7FFFFFFF, 0x80000000, 0xFFFFFFFF, 0xFF, 0xFFFFFF00, 0xFFFFFEFF].map (fun w => asr8 (sext 32 w)) =
      [8388607, -8388608, -1, 0, -1, -2] := by decide +kernel

/-- The variates (R101, R102), section 2.1. -/
theorem test_variates :
    uniform 0x400000 = 0x3E800000 ∧ uniform 0xFFFFFF = 0x3F7FFFFF ∧
    triangular 0x123456 = 0xBF5B9754 ∧ triangular 0xFEDCBA = 0x3F7DB974 := by decide +kernel

/-- The filter (R106): F1a to F1f put one unit error at distance 0 to 5 from the newest, F1h mixes five. -/
theorem test_filter :
    ([0, 7, 6, 5, 4, 3].map fun p =>
      noiseFilter ⟨0, (List.replicate 8 (0 : Word)).set p 0x3F800000, 0⟩) =
      [some 0x40021CAC, some 0xC00A8F5C, some 0x3FFAC083, some 0xBFCB851F, some 0x3F1D6A16, some 0] ∧
    noiseFilter ⟨0, [0xBE800000, 0x3F000000, 0, 0, 0, 0x40000000, 0xBF800000, 0x3E000000], 1⟩ =
      some 0x4093EAE8 := by decide +kernel

/-! ### Float to integer -/

/-- A3: 0.5 is a tie that goes to the even 16384. -/
theorem test_f2i16_tie : result (exec (.f2i16 0) (oneSample 0x3F000000 [])) 0x2000 2 = some 0x4000 := by
  decide +kernel

/-- A8: -2.0 saturates. -/
theorem test_f2i16_saturates :
    result (exec (.f2i16 9) (oneSample 0xC0000000 [])) 0x2000 2 = some 0x8000 := by decide +kernel

/-- A24: -1.0. -/
theorem test_f2i24_minus_one :
    result (exec (.f2i24 0) (oneSample 0xBF800000 [])) 0x2000 4 = some 0x80000100 := by decide +kernel

/-- A30: just above 1.0 saturates at the 24-bit extreme. -/
theorem test_f2i24_saturates :
    result (exec (.f2i24 0) (oneSample 0x3F800001 [])) 0x2000 4 = some 0x7FFFFF00 := by decide +kernel

/-- D11: the variate is subtracted. -/
theorem test_f2i16Rect_subtracts :
    result (exec (.f2i16Rect 0) (oneSample 0 [0x800001])) 0x2000 2 = some 0xFFFF := by decide +kernel

/-- D2: the rounded subtraction keeps the tie. -/
theorem test_f2i16Rect_tie :
    result (exec (.f2i16Rect 0) (oneSample 0x3F000000 [0x000001])) 0x2000 2 = some 0x4000 := by decide +kernel

/-- D16. -/
theorem test_f2i24Rect :
    result (exec (.f2i24Rect 0) (oneSample 0x3F800000 [0x800000])) 0x2000 4 = some 0x7FFFFE00 := by
  decide +kernel

/-- The first two samples of T1: the second subtracts the first one's variate; `prev` is the last variate. -/
theorem test_f2i16Tri_two :
    let s := { block 0x1000 0x2000 2 4 4 (putWords [] 0x1000 [0x3F000000, 0x3F000000]) with
      rndKnown := [0xC00000, 0x400000] }
    result (exec (.f2i16Tri 0) s) 0x2000 2 = some 0x4000 ∧
    result (exec (.f2i16Tri 0) s) 0x2004 2 = some 0x3FFE ∧
    (contextOf (exec (.f2i16Tri 0) s) 0).map DitherCtx.prev = some 0xBF000000 := by decide +kernel

/-- T3d: `prev` 0.5 before, -1.0 after. -/
theorem test_f2i24Tri_prev :
    let s := (oneSample 0xBF800000 [0x000000]).setContext 2 ⟨0x3F000000, List.replicate 8 0, 0⟩
    result (exec (.f2i24Tri 2) s) 0x2000 4 = some 0x80000000 ∧
    contextOf (exec (.f2i24Tri 2) s) 2 = some ⟨0xBF800000, List.replicate 8 0, 0⟩ := by decide +kernel

/-- F2: one noise-shaped sample on the context of F1h. -/
theorem test_f2i16Shp_one :
    let s := (oneSample 0x3E800000 [0xA00000]).setContext 0
      ⟨0x3E800000, [0xBE800000, 0x3F000000, 0, 0, 0, 0x40000000, 0xBF800000, 0x3E000000], 1⟩
    result (exec (.f2i16Shp 0) s) 0x2000 2 = some 8187 ∧
    contextOf (exec (.f2i16Shp 0) s) 0 =
      some ⟨0x3E800000, [0xBE800000, 0x3F000000, 0xBE028000, 0, 0, 0x40000000, 0xBF800000, 0x3E000000], 2⟩ := by
  decide +kernel

/-- H1, samples 0 to 2: `idx` and the errors after them. -/
theorem test_f2i16Shp_three :
    let s := { block 0x1000 0x2000 3 2 4 (putWords [] 0x1000 [0x3DCCCCCD, 0x3DCCCCCD, 0x3DCCCCCD]) with
      rndKnown := [0x800000, 0x800000, 0x800000] }
    result (exec (.f2i16Shp 0) s) 0x2004 2 = some 3278 ∧
    contextOf (exec (.f2i16Shp 0) s) 0 =
      some ⟨0, [0, 0x3E99A000, 0xBDB80000, 0x3EEF8000, 0, 0, 0, 0], 3⟩ := by decide +kernel

/-- By R128 on a zero context with a draw of variate 0: 0.5 scales to 4194303.5, a tie that goes to 4194304, and
the error is +0.5. -/
theorem test_f2i24Shp_first :
    contextOf (exec (.f2i24Shp 1) (oneSample 0x3F000000 [0x800000])) 1 =
      some ⟨0, [0, 0x3F000000, 0, 0, 0, 0, 0, 0], 1⟩ ∧
    result (exec (.f2i24Shp 1) (oneSample 0x3F000000 [0x800000])) 0x2000 4 = some 0x40000000 := by
  decide +kernel

/-- A18, A19, A20: an overflowing product, an infinity and a NaN are violations at element 0. -/
theorem test_nonFinite :
    [0x78B8E3A8, 0x7F800000, 0x7FC00000].map (fun b => faultOf (exec (.f2i16 0) (oneSample b []))) =
      [some (.nonFinite 0), some (.nonFinite 0), some (.nonFinite 0)] := by decide +kernel

/-! ### Merges -/

/-- G1 and G1f: the sum saturates, and so does the incoming sample. -/
theorem test_fmrg16 :
    result (exec .fmrg16 (oneEach 0x3E9C4139 30000)) 0x2000 2 = some 32767 ∧
    result (exec .fmrg16 (oneEach 0xC0000000 32767)) 0x2000 2 = some 0xFFFF := by decide +kernel

/-- G2c and G2e: the sum wraps, and a non-zero low byte of the slot stays. -/
theorem test_fmrg24 :
    result (exec .fmrg24 (oneEach 0xC0000000 0x80000000)) 0x2000 4 = some 0 ∧
    result (exec .fmrg24 (oneEach 0x3F000000 0xFF)) 0x2000 4 = some 0x400000FF := by decide +kernel

/-- G3, with the register strides at 0 (X29). -/
theorem test_mcpyc16 :
    let s := block 0x1000 0x2000 2 0 0 (putWords (putWords [] 0x1000 [0x80007530]) 0x2000 [0xFFFF2710])
    result (exec .mcpyc16 s) 0x2000 4 = some 0x7FFF9C40 := by decide +kernel

/-- G4, first element. -/
theorem test_mcpyc32 :
    result (exec .mcpyc32 (oneEach 0x7FFFFF00 0x7FFFFF00)) 0x2000 4 = some 0xFFFFFE00 := by decide +kernel

/-! ### Integer to float -/

/-- I4 and I8. -/
theorem test_i2f16 :
    result (exec .i2f16 (oneEach 0x4000 0)) 0x2000 4 = some 0x3F000100 ∧
    result (exec .i2f16 (oneEach 0x8000 0)) 0x2000 4 = some 0xBF800100 := by decide +kernel

/-- I20 and I14: the padding byte is shifted out toward minus infinity. -/
theorem test_i2f24 :
    result (exec .i2f24 (oneEach 0x40000000 0)) 0x2000 4 = some 0x3F000001 ∧
    result (exec .i2f24 (oneEach 0xFFFFFFFF 0)) 0x2000 4 = some 0xB4000001 := by decide +kernel

/-! ### Fill, copy, merge-copy -/

/-- The memory of B1. -/
def fillMem : Memory := put [] 0x100
  [0x11, 0x22, 0x33, 0x44, 0x55, 0x66, 0x77, 0x88, 0x99, 0xAA, 0xBB, 0xCC, 0xDD, 0xEE, 0xFF, 0x11]

/-- The block of B1 with these operands. -/
def fillBlock (dst cnt dstride : Word) : State := { block 0 dst cnt dstride 0 fillMem with val := 0x1234ABCD }

/-- B1, step 1. -/
theorem test_fill8 :
    let r := exec .fill8 (fillBlock 0x100 4 4)
    [0x100, 0x104, 0x108, 0x10C].map (result r · 4) =
      [some 0x443322CD, some 0x887766CD, some 0xCCBBAACD, some 0x11FFEECD] := by decide +kernel

/-- The step 2 of B1 on the bytes before step 1. -/
theorem test_fill16 :
    let r := exec .fill16 (fillBlock 0x102 2 8)
    [0x100, 0x104, 0x108, 0x10C].map (result r · 4) =
      [some 0xABCD2211, some 0x88776655, some 0xABCDAA99, some 0x11FFEEDD] := by decide +kernel

/-- X25: a 32-bit fill of the last word of `MEM`. -/
theorem test_fill32 : result (exec .fill32 (fillBlock 0xFFFFFFFC 1 4)) 0xFFFFFFFC 4 = some 0x1234ABCD := by
  decide +kernel

/-- B4: an overlapping copy repeats what the earlier elements stored. -/
theorem test_cpy16_overlap :
    let s := block 0x100 0x102 4 2 2 (put [] 0x100 [1, 2, 3, 4, 5, 6, 7, 8, 9, 10, 11, 12])
    result (exec .cpy16 s) 0x102 4 = some 0x02010201 ∧ result (exec .cpy16 s) 0x106 4 = some 0x02010201 ∧
    result (exec .cpy16 s) 0x10A 2 = some 0x0C0B := by decide +kernel

/-- B6: a NaN pattern is copied. -/
theorem test_cpy32 : result (exec .cpy32 (oneEach 0x7FC00001 0)) 0x2000 4 = some 0x7FC00001 := by decide +kernel

/-- B5, 16 bit: the sum wraps. -/
theorem test_mcpy16 : result (exec .mcpy16 (oneEach 0x7530 0x2710)) 0x2000 4 = some 0x9C40 := by decide +kernel

/-- B5, 32 bit. -/
theorem test_mcpy32 : result (exec .mcpy32 (oneEach 0xF3333300 0x12345678)) 0x2000 4 = some 0x05678978 := by
  decide +kernel

/-! ### `DCLR` and the checks -/

/-- H4: only the named context is cleared; X14: a context that does not exist is a violation. -/
theorem test_dclr :
    let d : DitherCtx := ⟨0x3F000000, [1, 2, 3, 4, 5, 6, 7, 8], 5⟩
    let s := (State.reset.setContext 3 d).setContext 2 d
    contextOf (exec (.dclr 3) s) 3 = some (DitherCtx.zero 8) ∧ contextOf (exec (.dclr 3) s) 2 = some d ∧
    faultOf (exec (.dclr 4) s) = some (.badContext 4) := by decide +kernel

/-- The block of X16. -/
def checked (src dst cnt dstride : Word) : State :=
  { block src dst cnt dstride 0 (putWords [] 0x1000 [0, 0, 0, 0]) with
    owned := [⟨0x1000, 16⟩, ⟨0x2000, 8⟩] }

/-- X16 and X20 complete. -/
theorem test_checks_pass :
    goesOn (exec (.f2i16 0) (checked 0x1000 0x2000 4 2)) = true ∧
    goesOn (exec (.f2i16 0) (checked 0x1000 0x2000 0 0)) = true := by decide +kernel

/-- X17 to X19 and X21 to X24, each with the violation named. -/
theorem test_checks_fault :
    [faultOf (exec (.f2i16 0) (checked 0x1000 0x2000 5 2)),
      faultOf (exec (.f2i16 0) (checked 0x1000 0x2000 4 1)),
      faultOf (exec (.f2i16 0) (checked 0x1000 0x2000 1 1)),
      faultOf (exec (.f2i16 0) (checked 0x1002 0x2000 4 2)),
      faultOf (exec (.f2i16 0) (checked 0x1000 0x2001 4 2)),
      faultOf (exec (.f2i16 0) (checked 0x1000 0x2000 2 3)),
      faultOf (exec (.f2i16 0) (checked 0x1002 0x2000 4 1))] =
    [some (.outOfExtent 0x1010), some (.strideTooSmall .destination 1),
      some (.strideTooSmall .destination 1), some (.misaligned .source 0x1002),
      some (.misaligned .destination 0x2001), some (.misaligned .destination 3),
      some (.strideTooSmall .destination 1)] := by decide +kernel

/-- X26, X13. -/
theorem test_wrap_and_context :
    faultOf (exec .fill32 (fillBlock 0xFFFFFFFC 2 4)) = some (.addressWrap .destination) ∧
    faultOf (exec (.f2i16Tri 4) State.reset) = some (.badContext 4) := by decide +kernel

/-- X30: a command right after reset, found by the step where `withFetchWord` put it. -/
theorem test_step_after_reset :
    goesOn (step (State.reset.withFetchWord 32 0x11)) = true ∧
    faultOf (step (State.reset.withFetchWord 32 0)) = some (.illegalCommand 0) := by decide +kernel

/-- The first three lines of program P1, and the bus writes the vectors list for them. -/
theorem test_program_P1 :
    programWrites [.withOperands .fill16 [(.dst, 0x2000), (.cnt, 4), (.dstride, 4), (.val, 0)],
      .withOperands (.f2i16 0) [(.src, 0x1000), (.dst, 0x2002)], .withOperands .fmrg16 [(.dst, 0x2000)]] =
    [(0x04, 0x2000), (0x08, 4), (0x0C, 4), (0x14, 0), (0x18, 0x41), (0x00, 0x1000), (0x04, 0x2002),
      (0x18, 0x11), (0x04, 0x2000), (0x18, 0x21)] := by
  decide +kernel

/-! ### Witnesses: the hypotheses of each statement hold together -/

/-- A block on which every command with streams is legal: two samples 0.5 and -1.0 at `0x1000`, the destination at
`0x2000`, both strides 4, two draws known. -/
def demo : State :=
  { block 0x1000 0x2000 2 4 4 (putWords [] 0x1000 [0x3F000000, 0xBF800000]) with
    val := 0x1234ABCD, rndKnown := [0xC00000, 0x400000] }

/-- The same with the word `c` in `CMD` and these overlapping actions. -/
def issued (c : Word) (during : List Overlap) : State := { demo with cmd := some c, during := during }

/-- The same with its window at `0x8000` and these actions of the host to come. -/
def hosted (events : List HostEvent) : State := { demo with sfcBase := 0x8000, host := events }

/-- A fill of the last word of `MEM`: the boundary of R47. -/
def lastWord : State := block 0 0xFFFFFFFC 1 4 0 []

/-- `value` of a pattern whose significand and scale are known. -/
theorem value_eq {b : Word} {m e : Int} (hm : signedSig b = m) (he : scale b = e) :
    value b = m * (2 : ℚ) ^ e := by rw [value, hm, he]

theorem value_zero : value 0 = 0 := by rw [value_eq (m := 0) (e := -149)] <;> first | decide | norm_num

theorem value_half : value 0x3F000000 = 1 / 2 := by
  rw [value_eq (m := 8388608) (e := -24)] <;> first | decide | norm_num

theorem value_neg_one : value 0xBF800000 = -1 := by
  rw [value_eq (m := -8388608) (e := -23)] <;> first | decide | norm_num

theorem witness_DecoderAcceptsTheOpcodeMap :
    ∃ r ∈ opcodeRows, r.covers 0x319 = true ∧ decodesTo 0x319 (.f2i16Tri 3) = true := by decide

/-- A reserved word and a command's word, each standing in `CMD`. -/
theorem witness_ReservedWordsFault :
    (∃ s : State, s.cmd = some 0x10 ∧ faultOf (step s) = some (.illegalCommand 0x10)) ∧
    ∃ s : State, s.cmd = some 0x11 ∧ goesOn (step s) = true :=
  ⟨⟨issued 0x10 [], by decide +kernel⟩, ⟨issued 0x11 [], by decide +kernel⟩⟩

/-- The lowest and the highest bit of `ZERO`. -/
theorem witness_ZeroFieldMustBeZero : fieldZero 0x00010011 ≠ 0 ∧ fieldZero 0x80000011 ≠ 0 := by decide

theorem witness_StepRunsTheDecodedCommand :
    ∃ (s : State) (c : Word) (i : Instr), s.cmd = some c ∧ decode c = .ok i ∧ s.during = [] :=
  ⟨issued 0x51 [], 0x51, .cpy16, rfl, rfl, rfl⟩

theorem witness_CmdWriteIssuesTheWord :
    ∃ (s : State) (c : Word) (rest : List HostEvent), s.cmd = none ∧
      s.host = .write (s.sfcBase + 0x18) 4 c :: rest :=
  ⟨hosted [.write 0x8018 4 0x51], 0x51, [], rfl, rfl⟩

theorem witness_IdleBlockHoldsItsState : State.reset.cmd = none ∧ State.reset.host = [] := ⟨rfl, rfl⟩

/-- The first and the last operand register, written and read, and a command that completes. -/
theorem witness_OperandRegistersHoldWhatTheHostWrote :
    (windowReg? 0x00 = some (.operand .src) ∧ windowReg? 0x14 = some (.operand .val)) ∧
    (hosted [.write 0x8000 4 7]).cmd = none ∧
    (hosted [.write 0x8000 4 7]).host = [.write ((hosted []).sfcBase + 0x00) 4 7] ∧
    (hosted [.read 0x8014 4]).host = [.read ((hosted []).sfcBase + 0x14) 4] ∧
    ∃ t, exec .cpy32 demo = .next t :=
  ⟨by decide, rfl, rfl, rfl, next_of_goesOn (by decide +kernel)⟩

/-- A narrow access, a wide one, a misaligned one, one just below the window and one just beyond it. -/
theorem witness_RegisterWindow :
    (hosted [.read 0x8018 4]).host = [.read ((hosted []).sfcBase + 0x18) 4] ∧ (hosted []).cmd = none ∧
    ((2 : Nat) ≠ 4 ∧ (8 : Nat) ≠ 4 ∧ (0x8002 - 0x8000) % 4 ≠ 0 ∧ 0x7FFC < 0x8000 ∧
      0x8000 + 0x1C ≤ 0x801C) ∧
    step (hosted [.write 0x8000 2 7]) = .refused (.windowAccess 0x8000 2) ∧
    step (hosted [.write 0x8000 8 7]) = .refused (.windowAccess 0x8000 8) ∧
    step (hosted [.read 0x8002 4]) = .refused (.windowAccess 0x8002 4) ∧
    step (hosted [.read 0x7FFC 4]) = .refused (.windowAccess 0x7FFC 4) ∧
    step (hosted [.write 0x801C 4 7]) = .refused (.windowAccess 0x801C 4) :=
  ⟨rfl, rfl, by decide, rfl, rfl, rfl, rfl, rfl⟩

theorem witness_ResetRestoresTheResetValues :
    ((hosted [.reset]).cmd = none ∧ (hosted [.reset]).host = [.reset]) ∧
    ∃ (s : State) (c : Word) (i : Instr), s.cmd = some c ∧ decode c = .ok i ∧ Overlap.reset ∈ s.during :=
  ⟨⟨rfl, rfl⟩, issued 0x51 [.reset], 0x51, .cpy16, rfl, rfl, by decide⟩

theorem witness_CommandsRightAfterResetDoNothing :
    Instr.wellFormed 4 (.f2i16Tri 3) = true ∧ ∀ c, Instr.f2i16Tri 3 ≠ .dclr c := by decide

/-- The conflicts: another agent reads the last byte of the last destination element (`0x2005` for `CPY16`), writes
the first byte of the source, another instance reads that last destination byte, a command is in flight on the same
context (with `CNT >= 1`, and for `DCLR` with `CNT = 0`). -/
theorem witness_ConcurrentAccessFaults :
    (∃ t, exec .cpy16 (issued 0x51 [.memRead 0x2005]).retire = .next t) ∧
    (∃ st ∈ streamsOf .cpy16 demo, ∃ k < demo.cnt.toNat, st.element k ≤ 0x2005 ∧
      0x2005 < st.element k + st.width) ∧
    (∃ st ∈ streamsOf .cpy16 demo, ∃ k < demo.cnt.toNat, st.element k ≤ 0x1000 ∧
      0x1000 < st.element k + st.width) ∧
    (∃ k < demo.cnt.toNat, destElement .cpy16 demo k ≤ 0x2005 ∧
      0x2005 < destElement .cpy16 demo k + destWidth .cpy16) ∧
    (usedContext (.f2i16Tri 1) = some 1 ∧ demo.cnt ≠ 0) ∧ usedContext (.dclr 1) = some 1 ∧
    (∃ t, exec (.f2i16Tri 1) (issued 0x119 [.context 1]).retire = .next t) ∧
    [faultOf (step (issued 0x51 [.memRead 0x2005])), faultOf (step (issued 0x51 [.memWrite 0x1000 7])),
      faultOf (step (issued 0x51 [.instanceRead 0x2005])), faultOf (step (issued 0x119 [.context 1])),
      faultOf (step { issued 0x180 [.context 1] with cnt := 0 })] =
      List.replicate 5 (some .concurrentAccess) :=
  ⟨next_of_goesOn (by decide +kernel), by decide +kernel, by decide +kernel, by decide +kernel,
    by decide +kernel, rfl, next_of_goesOn (by decide +kernel), by decide +kernel⟩

/-- No conflict: a write or a read of the byte after the last element, another instance's read of the source (R180) or of that
byte, a command in flight on another context, and one on the same context with `CNT = 0` (R173). -/
theorem witness_ConcurrentAccessFaults_allowed :
    (∀ st ∈ streamsOf .cpy16 demo, ∀ k < demo.cnt.toNat,
      0x2006 < st.element k ∨ st.element k + st.width ≤ 0x2006) ∧
    Unstored .cpy16 demo 0x1000 ∧ Unstored .cpy16 demo 0x2006 ∧ usedContext (.f2i16Tri 1) ≠ some 2 ∧
    ({ issued 0x119 [.context 1] with cnt := 0 } : State).cnt = 0 ∧ Instr.f2i16Tri 1 ≠ .dclr 1 ∧
    [goesOn (step (issued 0x51 [.memWrite 0x2006 7])), goesOn (step (issued 0x51 [.memRead 0x2006])),
      goesOn (step (issued 0x51 [.instanceRead 0x1000])),
      goesOn (step (issued 0x51 [.instanceRead 0x2006])), goesOn (step (issued 0x119 [.context 2])),
      goesOn (step { issued 0x119 [.context 1] with cnt := 0 })] = List.replicate 6 true :=
  ⟨by decide +kernel, by decide +kernel, by decide +kernel, by decide, by decide, by decide,
    by decide +kernel⟩

/-- The first context number that does not exist, an ignored field, and a command whose field must be 0. -/
theorem witness_ContextFieldRules :
    (usedContext (.f2i24Shp 4) = some 4 ∧ State.reset.dither.length ≤ (4 : CtxNum).toNat) ∧
    decodesTo 0x21 .fmrg16 = true ∧ usedContext .fmrg16 = none ∧
    ∀ c, Instr.fmrg16 ≠ .f2i16 c ∧ Instr.fmrg16 ≠ .f2i24 c ∧ Instr.fmrg16 ≠ .f2i16Rect c ∧
      Instr.fmrg16 ≠ .f2i24Rect c := by
  decide +kernel

/-- `CNT = 0` with a stride of 0 and a misaligned base, and with other agents at work: on the context, and on a byte
written twice, while the byte beside it is not written. -/
theorem witness_ZeroCountDoesNothing :
    (Instr.wellFormed 4 .fmrg24 = true ∧ (∀ c, Instr.fmrg24 ≠ .dclr c) ∧
      ({ demo with cnt := 0, dstride := 0, dst := 1 } : State).cnt = 0) ∧
    ∃ (s : State) (c : Word) (i : Instr), s.cmd = some c ∧ decode c = .ok i ∧
      i.wellFormed s.dither.length = true ∧ (∀ x, i ≠ .dclr x) ∧ s.cnt = 0 ∧ Overlap.reset ∉ s.during ∧
      Memory.wf s.mem = true ∧ (∀ v, Overlap.memWrite 0x1001 v ∉ s.during) ∧
      ∃ before after, s.during = before ++ .memWrite 0x1000 9 :: after ∧
        ∀ w, Overlap.memWrite 0x1000 w ∉ after :=
  ⟨by decide,
    { issued 0x119 [.memWrite 0x1000 7, .memWrite 0x1000 9, .context 1] with cnt := 0 }, 0x119, .f2i16Tri 1,
    rfl, rfl, by decide, by decide, rfl, by decide, by decide +kernel, by simp [issued],
    [.memWrite 0x1000 7], [.context 1], rfl, by simp⟩

/-- Both strides one below the width, where the source is named; only the destination's; and a stride of 0. -/
theorem witness_SmallStrideFaults :
    let b : State := { demo with sstride := 3, dstride := 2 }
    let d : State := { demo with dstride := 3 }
    let z : State := { demo with sstride := 0 }
    (b.cnt ≠ 0 ∧ ∃ st ∈ streamsOf .mcpy32 b, st.which = .source ∧ st.fromRegister = true ∧
      st.stride < st.width) ∧
    (∃ st ∈ streamsOf .cpy32 d, st.fromRegister = true ∧ st.stride < st.width ∧
      ∀ src ∈ streamsOf .cpy32 d, src.which = .source → src.fromRegister = true → src.width ≤ src.stride) ∧
    (∃ st ∈ streamsOf .i2f16 z, st.fromRegister = true ∧ st.stride = 0) ∧
    ({ d with cnt := 0 } : State).cnt = 0 ∧
    faultOf (exec .mcpy32 b) = some (.strideTooSmall .source 3) ∧
    faultOf (exec .cpy32 d) = some (.strideTooSmall .destination 3) := by decide +kernel

/-- A base off by one, a stride off by two, and a command that completes. -/
theorem witness_MisalignedFaults :
    let b : State := { demo with dst := 0x2001 }
    let s : State := { demo with dstride := 6 }
    ((∀ st ∈ streamsOf .cpy16 b, st.fromRegister = true → st.width ≤ st.stride) ∧
      ∃ st ∈ streamsOf .cpy16 b, st.base % st.width ≠ 0) ∧
    ((∀ st ∈ streamsOf .cpy32 s, st.fromRegister = true → st.width ≤ st.stride) ∧
      ∃ st ∈ streamsOf .cpy32 s, st.fromRegister = true ∧ st.stride % st.width ≠ 0) ∧
    b.cnt ≠ 0 ∧ s.cnt ≠ 0 ∧ ∃ t, exec .cpy32 demo = .next t :=
  ⟨by decide +kernel, by decide +kernel, by decide, by decide, next_of_goesOn (by decide +kernel)⟩

/-- Two words from the last one on: the second would end beyond 2^32. -/
theorem witness_WrappingAddressFaults :
    let s : State := { lastWord with cnt := 2 }
    s.cnt ≠ 0 ∧
    (∀ st ∈ streamsOf .fill32 s, (st.fromRegister = true → st.width ≤ st.stride) ∧ st.base % st.width = 0 ∧
      (st.fromRegister = true → st.stride % st.width = 0)) ∧
    ∃ st ∈ streamsOf .fill32 s, 2 ^ 32 < st.base + (s.cnt.toNat - 1) * st.stride + st.width := by
  decide +kernel

/-- Only the last byte of the last element is not in `Owned`. -/
theorem witness_ForeignByteFaults :
    let s : State := { demo with owned := [⟨0x1000, 8⟩, ⟨0x2000, 7⟩] }
    s.cnt ≠ 0 ∧
    (∀ st ∈ streamsOf .cpy32 s, (st.fromRegister = true → st.width ≤ st.stride) ∧ st.base % st.width = 0 ∧
      (st.fromRegister = true → st.stride % st.width = 0) ∧
      st.base + (s.cnt.toNat - 1) * st.stride + st.width ≤ 2 ^ 32) ∧
    (∃ st ∈ streamsOf .cpy32 s, ∃ k < s.cnt.toNat, ∃ j < st.width,
      ownedByte s.owned (st.element k + j) = false) ∧
    exec .cpy32 s = .fault (.outOfExtent 0x2007) :=
  ⟨by decide, by decide +kernel, by decide +kernel, fault_of_faultOf (by decide +kernel)⟩

/-- Legal uses, one of them at the end of `MEM`, and one outside the contract. -/
theorem witness_LegalCommandsCompleteOrAreNonFinite :
    Legal .fill32 lastWord ∧ Legal (.f2i16Shp 3) demo ∧ ¬ Legal .fill32 { lastWord with cnt := 2 } :=
  ⟨by decide +kernel, by decide +kernel, by decide +kernel⟩

/-- Sample 1 is a NaN; element 0 completes. -/
theorem witness_NonFiniteSampleFaults :
    let s : State := { demo with mem := putWords [] 0x1000 [0x3F000000, 0x7FC00000] }
    Legal .fmrg16 s ∧ 1 < s.cnt.toNat ∧
    ∃ u, exec .fmrg16 (withCount s 1) = .next u ∧ ¬ SampleFinite Config.k16 u 1 := by
  refine ⟨by decide +kernel, by decide +kernel, ?_⟩
  have h : (match exec .fmrg16 (withCount
      { demo with mem := putWords [] 0x1000 [0x3F000000, 0x7FC00000] } 1) with
    | .next u => !isFinite (sampleWord u 1)
    | _ => false) = true := by decide +kernel
  split at h
  · rename_i u hu
    exact ⟨u, hu, fun hf => by simp [hf.1] at h⟩
  · cases h

/-- A context whose newest error is 2^127: the first product of the filter overflows. -/
theorem witness_NonFiniteShapingFaults :
    let s : State := demo.setContext 1 ⟨0, [0x7F000000, 0, 0, 0, 0, 0, 0, 0], 0⟩
    Legal (.f2i16Shp 1) s ∧ 0 < s.cnt.toNat ∧ exec (.f2i16Shp 1) (withCount s 0) = .next (withCount s 0) ∧
    SampleFinite Config.k16 (withCount s 0) 0 ∧
    ¬ ShapingFinite (scaled Config.k16 (withCount s 0) 0)
      ((withCount s 0).rnd (withCount s 0).rndIdx) ((withCount s 0).context 1) := by
  refine ⟨by decide +kernel, by decide +kernel, rfl, by unfold SampleFinite; decide +kernel, fun h => ?_⟩
  have h0 := h.1 _ List.mem_cons_self
  exact absurd h0 (by decide +kernel)

theorem witness_CommandsChangeMemoryContextsAndDrawsOnly : ∃ t, exec (.f2i24Shp 1) demo = .next t :=
  next_of_goesOn (by decide +kernel)

/-- A byte between two elements, and the byte after the last one. -/
theorem witness_BytesOutsideTheDestinationAreKept :
    Memory.wf demo.mem = true ∧ (∃ t, exec .fmrg16 demo = .next t) ∧ Unstored .fmrg16 demo 0x2002 ∧
    Unstored .fmrg16 demo 0x2006 :=
  ⟨by decide +kernel, next_of_goesOn (by decide +kernel), by decide +kernel, by decide +kernel⟩

theorem witness_ContextsWrittenOnlyByTheirCommands :
    (usedContext (.f2i24Rect 1) = none ∧ ∃ t, exec (.f2i24Rect 1) demo = .next t) ∧
    (usedContext (.f2i24Tri 1) = some 1 ∧ ∃ t, exec (.f2i24Tri 1) demo = .next t) ∧
    (0 : CtxNum) ≠ 1 :=
  ⟨⟨rfl, next_of_goesOn (by decide +kernel)⟩, ⟨rfl, next_of_goesOn (by decide +kernel)⟩, by decide⟩

theorem witness_DrawsPerCommand :
    (∃ t, exec (.f2i24Rect 1) demo = .next t) ∧ (∃ t, exec .mcpyc32 demo = .next t) ∧
    ∀ c, Instr.mcpyc32 ≠ .f2i16Rect c ∧ Instr.mcpyc32 ≠ .f2i24Rect c ∧ Instr.mcpyc32 ≠ .f2i16Tri c ∧
      Instr.mcpyc32 ≠ .f2i24Tri c ∧ Instr.mcpyc32 ≠ .f2i16Shp c ∧ Instr.mcpyc32 ≠ .f2i24Shp c :=
  ⟨next_of_goesOn (by decide +kernel), next_of_goesOn (by decide +kernel), by decide⟩

/-- The memory of `demo` is in canonical form; used by the witnesses below. -/
theorem demo_mem_wf : Memory.wf demo.mem = true := by decide +kernel

theorem witness_FillStoresValAtEveryStride :
    Memory.wf demo.mem = true ∧ Legal .fill8 demo ∧ Legal .fill16 demo ∧ Legal .fill32 demo ∧
    Memory.wf lastWord.mem = true ∧ Legal .fill32 lastWord :=
  ⟨demo_mem_wf, by decide +kernel, by decide +kernel, by decide +kernel, rfl, by decide +kernel⟩

theorem witness_CopyMovesElementsInOrder :
    Memory.wf demo.mem = true ∧ Legal .cpy16 demo ∧ Legal .cpy32 demo :=
  ⟨demo_mem_wf, by decide +kernel, by decide +kernel⟩

theorem witness_MergeCopyAddsModulo :
    Memory.wf demo.mem = true ∧ Legal .mcpy16 demo ∧ Legal .mcpy32 demo :=
  ⟨demo_mem_wf, by decide +kernel, by decide +kernel⟩

theorem witness_ContiguousMergeCopyAddsModulo :
    Memory.wf demo.mem = true ∧ Legal .mcpyc16 demo ∧ Legal .mcpyc32 demo :=
  ⟨demo_mem_wf, by decide +kernel, by decide +kernel⟩

theorem witness_IntegerToFloatDivides :
    Memory.wf demo.mem = true ∧ Legal .i2f16 demo ∧ Legal .i2f24 demo :=
  ⟨demo_mem_wf, by decide +kernel, by decide +kernel⟩

/-- The samples of `demo` are finite and stay so when scaled, and no destination element stands on one. -/
theorem demo_samples :
    SamplesFinite Config.k16 demo ∧ SamplesFinite Config.k24 demo ∧ SourceIntact 2 demo ∧
    SourceIntact 4 demo := by
  unfold SamplesFinite SampleFinite SourceIntact
  decide +kernel

theorem witness_FloatToIntegerWithoutDither :
    Memory.wf demo.mem = true ∧ Legal (.f2i16 9) demo ∧ Legal (.f2i24 9) demo ∧
    SamplesFinite Config.k16 demo ∧ SamplesFinite Config.k24 demo ∧ SourceIntact 2 demo ∧
    SourceIntact 4 demo :=
  ⟨demo_mem_wf, by decide +kernel, by decide +kernel, demo_samples⟩

theorem witness_FloatToIntegerRectangular :
    Memory.wf demo.mem = true ∧ Legal (.f2i16Rect 9) demo ∧ Legal (.f2i24Rect 9) demo ∧
    SamplesFinite Config.k16 demo ∧ SamplesFinite Config.k24 demo ∧ SourceIntact 2 demo ∧
    SourceIntact 4 demo :=
  ⟨demo_mem_wf, by decide +kernel, by decide +kernel, demo_samples⟩

theorem witness_FloatToIntegerTriangular :
    Memory.wf demo.mem = true ∧ prevInRange (demo.context 3).prev = true ∧ Legal (.f2i16Tri 3) demo ∧
    Legal (.f2i24Tri 3) demo ∧ SamplesFinite Config.k16 demo ∧ SamplesFinite Config.k24 demo ∧
    SourceIntact 2 demo ∧ SourceIntact 4 demo :=
  ⟨demo_mem_wf, by decide +kernel, by decide +kernel, by decide +kernel, demo_samples⟩

/-- Where the shaper answers, every operation was finite. -/
theorem shapingFinite_of_isSome {x : Word} {w : Draw} {d : DitherCtx}
    (h : (quantShp x w d).isSome = true) : ShapingFinite x w d := by
  obtain ⟨⟨y, t⟩, h⟩ := Option.isSome_iff_exists.mp h
  simp only [quantShp, noiseFilter, finite?, Option.bind_eq_bind, Option.bind_eq_some_iff,
    Option.ite_none_right_eq_some, Option.some.injEq, exists_and_left,
    exists_eq_left', and_assoc] at h
  obtain ⟨a0, a1, a2, a3, a4, s1, s2, s3, s4, xe, df, xq, er, -⟩ := h
  have cons {b : Word} {l : List Word} (hb : isFinite b = true) (hl : ∀ f ∈ l, isFinite f = true) :
      ∀ f ∈ b :: l, isFinite f = true := List.forall_mem_cons.mpr ⟨hb, hl⟩
  have nil : ∀ f ∈ ([] : List Word), isFinite f = true := by simp
  exact ⟨cons a0 (cons a1 (cons a2 (cons a3 (cons a4 (cons s1 (cons s2 (cons s3 (cons s4 nil)))))))),
    cons xe (cons df (cons xq (cons er nil)))⟩

theorem witness_FloatToIntegerNoiseShaped :
    Memory.wf demo.mem = true ∧ Legal (.f2i16Shp 3) demo ∧ Legal (.f2i24Shp 3) demo ∧
    (SamplesFinite Config.k16 demo ∧ SamplesFinite Config.k24 demo ∧ SourceIntact 2 demo ∧
      SourceIntact 4 demo) ∧
    (∀ k < demo.cnt.toNat,
      ShapingFinite (scaled Config.k16 demo k) (drawOf demo k) (contextBefore Config.k16 demo 3 k)) ∧
    ∀ k < demo.cnt.toNat,
      ShapingFinite (scaled Config.k24 demo k) (drawOf demo k) (contextBefore Config.k24 demo 3 k) := by
  have h16 : ∀ k < demo.cnt.toNat,
      (quantShp (scaled Config.k16 demo k) (drawOf demo k) (contextBefore Config.k16 demo 3 k)).isSome = true := by
    decide +kernel
  have h24 : ∀ k < demo.cnt.toNat,
      (quantShp (scaled Config.k24 demo k) (drawOf demo k) (contextBefore Config.k24 demo 3 k)).isSome = true := by
    decide +kernel
  exact ⟨demo_mem_wf, by decide +kernel, by decide +kernel, demo_samples,
    fun k hk => shapingFinite_of_isSome (h16 k hk), fun k hk => shapingFinite_of_isSome (h24 k hk)⟩

theorem witness_FloatMergeSaturatesAt16AndWrapsAt24 :
    Memory.wf demo.mem = true ∧ Legal .fmrg16 demo ∧ Legal .fmrg24 demo ∧
    SamplesFinite Config.k16 demo ∧ SamplesFinite Config.k24 demo ∧ SourceIntact 2 demo ∧
    SourceIntact 4 demo :=
  ⟨demo_mem_wf, by decide +kernel, by decide +kernel, demo_samples⟩

/-- The last context that exists and the first that does not. -/
theorem witness_DclrClearsOneContext :
    (3 : CtxNum).toNat < demo.dither.length ∧ demo.dither.length ≤ (4 : CtxNum).toNat := by decide

theorem witness_StepKeepsInvariant :
    ∃ s t : State, s.inv = true ∧ step s = .next t := by
  have ⟨t, ht⟩ := next_of_goesOn (r := step (issued 0x1D [])) (by decide +kernel)
  exact ⟨_, t, by decide +kernel, ht⟩

/-- The least and the greatest block the spec allows with a history of 8, and a history of 16. -/
theorem witness_ResetMeetsInvariant :
    (1 : Nat) ≤ 256 ∧ historySizeOk 8 = true ∧ historySizeOk 16 = true ∧ historySizeOk 12 = false := by decide

/-- Halves that complete, and the whole that does. -/
theorem witness_TwoHalvesMakeTheWhole :
    (∀ c, Instr.f2i16Tri 1 ≠ .dclr c) ∧ Legal (.f2i16Tri 1) demo ∧ 1 ≤ demo.cnt.toNat ∧
    (∃ v, exec (.f2i16Tri 1) demo = .next v) ∧
    ∃ t u, exec (.f2i16Tri 1) (withCount demo 1) = .next t ∧
      exec (.f2i16Tri 1) (secondHalf (.f2i16Tri 1) demo t 1) = .next u := by
  refine ⟨by decide, by decide +kernel, by decide +kernel, next_of_goesOn (by decide +kernel), ?_⟩
  have h : (match exec (.f2i16Tri 1) (withCount demo 1) with
    | .next t => goesOn (exec (.f2i16Tri 1) (secondHalf (.f2i16Tri 1) demo t 1))
    | _ => false) = true := by decide +kernel
  split at h
  · rename_i t ht
    have ⟨u, hu⟩ := next_of_goesOn h
    exact ⟨t, u, ht, hu⟩
  · cases h

/-- The block of `demo` with a history of 16. -/
def demo16 : State := { demo with dither := List.replicate 4 (DitherCtx.zero 16) }

theorem witness_HistorySizeDoesNotMatter :
    SameButHistorySize demo demo16 ∧ (∃ t, exec (.f2i16Shp 3) demo = .next t) ∧
    ∃ f, exec (.f2i16Shp 4) demo = .fault f := by
  refine ⟨⟨rfl, by decide, fun c hc => ?_⟩, next_of_goesOn (by decide +kernel), .badContext 4,
    fault_of_faultOf (by decide +kernel)⟩
  have hc : c.toNat < 4 := hc
  have h8 : demo.context c = DitherCtx.zero 8 := List.getD_replicate _ hc
  have h16 : demo16.context c = DitherCtx.zero 16 := List.getD_replicate _ hc
  unfold SameRecent
  rw [h8, h16]
  decide

theorem witness_EqualContextsGiveEqualOutput :
    (0 : CtxNum).toNat < demo.dither.length ∧ (3 : CtxNum).toNat < demo.dither.length ∧
    demo.context 0 = demo.context 3 ∧ (∃ t, exec (.f2i16Shp 0) demo = .next t) ∧
    ∃ q, exec (.f2i16Shp 0) { demo with dstride := 0 } = .fault q :=
  ⟨by decide, by decide, by decide, next_of_goesOn (by decide +kernel), .strideTooSmall .destination 0,
    fault_of_faultOf (by decide +kernel)⟩

/-- Two memories that agree on the two buffers given to the block and differ at the byte after the first. -/
theorem witness_ForeignBytesAreNeitherReadNorWritten :
    let s : State := { demo with owned := [⟨0x1000, 8⟩, ⟨0x2000, 8⟩] }
    let m := Memory.writeByte s.mem 0x1008 7
    Memory.wf s.mem = true ∧ Memory.wf m = true ∧
    (∀ a, ownedByte s.owned a = true → Memory.readByte m a = Memory.readByte s.mem a) ∧
    (∃ t, exec .cpy32 s = .next t) ∧ ∃ f, exec .cpy32 { s with cnt := 3 } = .fault f := by
  refine ⟨by decide +kernel, by decide +kernel, fun a ha => ?_, next_of_goesOn (by decide +kernel),
    .outOfExtent 0x1008, fault_of_faultOf (by decide +kernel)⟩
  rw [Memory.readByte_writeByte demo_mem_wf, if_neg]
  rintro rfl
  exact absurd ha (by decide)

theorem witness_NominalNoiseShapingNeverFaults :
    Memory.wf demo.mem = true ∧ Legal (.f2i24Shp 3) demo ∧ SourceIntact 4 demo ∧
    8 ≤ (demo.context 3).err.length ∧ (demo.context 3).idx < (demo.context 3).err.length ∧
    prevInRange (demo.context 3).prev = true ∧
    (∀ e ∈ (demo.context 3).err, isFinite e = true ∧ |value e| ≤ 4) ∧
    ∀ k < demo.cnt.toNat, isFinite (sampleWord demo k) = true ∧ |value (sampleWord demo k)| ≤ 1 := by
  have hctx : demo.context 3 = DitherCtx.zero 8 := List.getD_replicate (n := 4) _ (by decide)
  rw [hctx]
  refine ⟨demo_mem_wf, by decide +kernel, demo_samples.2.2.2, by decide, by decide, by decide, ?_, ?_⟩
  · intro e he
    rw [List.eq_of_mem_replicate he, value_zero]
    exact ⟨by decide, by norm_num⟩
  · intro k hk
    have h : k = 0 ∨ k = 1 := by
      have : demo.cnt.toNat = 2 := by decide
      omega
    have h0 : sampleWord demo 0 = 0x3F000000 := by decide +kernel
    have h1 : sampleWord demo 1 = 0xBF800000 := by decide +kernel
    rcases h with rfl | rfl
    · rw [h0, value_half]; exact ⟨by decide, by norm_num⟩
    · rw [h1, value_neg_one]; exact ⟨by decide, by norm_num⟩

/-- The in-place vector of R134. -/
theorem witness_InPlaceConversionTo24 :
    let s := block 0x100 0x100 3 4 0 (putWords [] 0x100 [0x3F000000, 0xBF800000, 0x3DCCCCCD])
    Memory.wf s.mem = true ∧ Legal (.f2i24 0) s ∧ s.dst = s.src ∧ s.dstride = 4 ∧
    SamplesFinite Config.k24 s ∧
    [0x100, 0x104, 0x108].map (result (exec (.f2i24 0) s) · 4) =
      [some 0x40000000, some 0x80000100, some 0x0CCCCD00] := by
  dsimp only [SamplesFinite, SampleFinite]
  decide +kernel

theorem witness_TwentyFourBitWordsAreLeftJustified :
    Memory.wf demo.mem = true ∧ (∃ t, exec (.f2i24Shp 0) demo = .next t) ∧ 1 < demo.cnt.toNat :=
  ⟨demo_mem_wf, next_of_goesOn (by decide +kernel), by decide⟩

theorem witness_ContiguousMergeCopyIsTheStridedOne :
    (∃ t, exec .mcpyc16 { demo with dstride := 0, sstride := 0 } = .next t) ∧
    ∃ t, exec .mcpy16 { demo with sstride := BitVec.ofNat 32 2, dstride := BitVec.ofNat 32 2 } = .next t :=
  ⟨next_of_goesOn (by decide +kernel), next_of_goesOn (by decide +kernel)⟩

/-- Finite operands with finite results of every operation, a divisor that is not zero. -/
theorem witness_OperationsRoundToNearest :
    isFinite 0x3DCCCCCD = true ∧ isFinite 0xBF800000 = true ∧
    isFinite (fmul 0x3DCCCCCD 0xBF800000) = true ∧ isFinite (fadd 0x3DCCCCCD 0xBF800000) = true ∧
    isFinite (fsub 0x3DCCCCCD 0xBF800000) = true ∧ significand 0xBF800000 ≠ 0 ∧
    isFinite (fdiv 0x3DCCCCCD 0xBF800000) = true := by decide +kernel

/-- The greatest finite value and itself, and that value by the least subnormal: operands of an overflow. -/
theorem witness_OverflowThreshold :
    isFinite 0x7F7FFFFF = true ∧ isFinite (fadd 0x7F7FFFFF 0x7F7FFFFF) = false ∧
    isFinite (fsub 0x7F7FFFFF 0x7F7FFFFF) = true ∧ isFinite 0x00000001 = true ∧
    significand 0x00000001 ≠ 0 ∧ isFinite (fdiv 0x7F7FFFFF 0x00000001) = false := by decide +kernel

theorem witness_SignsOfZeroResults :
    isFinite 0 = true ∧ isFinite 0xBF800000 = true ∧ value 0 = 0 ∧ value 0xBF800000 ≠ 0 ∧
    value 0 * value 0xBF800000 = 0 ∧ value 0 + value 0 = 0 := by
  rw [value_zero, value_neg_one]
  exact ⟨by decide, by decide, rfl, by norm_num, by norm_num, by norm_num⟩

/-- The least subnormal and the greatest finite value. -/
theorem witness_RepresentableValuesAreExact :
    (isFinite 0x00000001 = true ∧ significand 0x00000001 ≠ 0) ∧
    isFinite 0x7F7FFFFF = true ∧ significand 0x7F7FFFFF ≠ 0 := by decide

theorem witness_IntegerConversionIsExact :
    |(-16777216 : Int)| ≤ 2 ^ 24 ∧ isFinite 0x7F7FFFFF = true := by
  exact ⟨by decide, by decide⟩

/-- A tie with an even and one with an odd integer below it: 0.5 and -0.5. -/
theorem witness_RoundIsNearestTiesToEven :
    isFinite 0x3F000000 = true ∧ value 0x3F000000 - ⌊value 0x3F000000⌋ = 1 / 2 ∧
    ⌊value 0x3F000000⌋ % 2 = 0 := by
  have h : ⌊value 0x3F000000⌋ = 0 := by rw [value_half, Int.floor_eq_iff]; norm_num
  exact ⟨by decide, by rw [h, value_half]; norm_num, by rw [h]; rfl⟩

/-- Values just beyond the 16-bit range on both sides and the extremes of the range. -/
theorem witness_IntegerNarrowing :
    (2 : Int) ^ (16 - 1) - 1 < 32768 ∧ (-32769 : Int) < -2 ^ (16 - 1) ∧
    (-2 : Int) ^ (16 - 1) ≤ -32768 ∧ (32767 : Int) ≤ 2 ^ (16 - 1) - 1 := by decide

theorem witness_SixteenBitRoundTripIsIdentity :
    (-32768 : Int) ≤ -32768 ∧ (-32768 : Int) ≤ 32767 := by decide

theorem witness_QuantizationErrorBelowOneLsb : isFinite 0xBF800000 = true ∧ |value 0xBF800000| ≤ 1 := by
  rw [value_neg_one]
  exact ⟨by decide, by norm_num⟩

/-- The last word of `MEM`, the greatest value it holds, and the byte before it. -/
theorem witness_ElementWriteThenRead :
    Memory.wf demo.mem = true ∧ 0xFFFFFFFC + 4 ≤ 2 ^ 32 ∧ 0xFFFFFFFF < 2 ^ (8 * 4) ∧
    (0xFFFFFFFB : Nat) < 0xFFFFFFFC := ⟨demo_mem_wf, by decide, by decide, by decide⟩

theorem witness_OperandListFormRuns :
    ∃ (s : State) (rest : List HostEvent), s.cmd = none ∧ s.during = [] ∧
      s.host = hostWrites s.sfcBase (ProgramLine.withOperands .cpy16 [(.src, 0x1000), (.cnt, 1)]).writes ++
        rest :=
  ⟨hosted (.write 0x8000 4 0x1000 :: .write 0x8008 4 1 :: .write 0x8018 4 0x51 :: [.read 0x8000 4]),
    [.read 0x8000 4], rfl, rfl, rfl⟩

end Sys2Proof.Tests
end

