-- ==== Sys2Proof/Proofs/Commands.lean ====
section
/-! SUPPORT. What a command that completes can have done, said once for every command: the two ways in which it
completes, what it leaves alone (R22), where its elements stand, and which context it can touch (R29). -/

namespace Sys2Proof.Machine

/-! ### Completion -/

/-- A command that completes is `DCLR` on a context that exists, or a legal command whose element loop completes. -/
theorem exec_next_cases {i : Instr} {s t : State} (h : exec i s = .next t) :
    (∃ c, i = .dclr c ∧ c.toNat < s.dither.length ∧ t = s.setContext c (s.context c).cleared) ∨
    ((∀ c, i ≠ .dclr c) ∧ Legal i s ∧ forElements (elementOf i) s.cnt.toNat 0 s = .next t) := by
  by_cases hi : ∃ c, i = .dclr c
  · obtain ⟨c, rfl⟩ := hi
    by_cases hc : c.toNat < s.dither.length
    · rw [exec_dclr hc, Host.Outcome.next.injEq] at h
      exact .inl ⟨c, rfl, hc, h.symm⟩
    · simp [exec, execDclr, contextViolation, usedContext, hc] at h
  · have hi' : ∀ c, i ≠ .dclr c := fun c hc => hi ⟨c, hc⟩
    rw [exec_eq_runCommand hi'] at h
    exact .inr ⟨hi', runCommand_next h⟩

/-- A legal command other than `DCLR` is its element loop. -/
theorem exec_legal {i : Instr} {s : State} (hi : ∀ c, i ≠ .dclr c) (h : Legal i s) :
    exec i s = forElements (elementOf i) s.cnt.toNat 0 s := by
  rw [exec_eq_runCommand hi, runCommand_legal h]

/-- With `CNT = 0` a command other than `DCLR` whose context exists does nothing (R133, step 3). -/
theorem exec_of_cnt_eq_zero {i : Instr} {s : State} (hi : ∀ c, i ≠ .dclr c)
    (hw : i.wellFormed s.dither.length = true) (h0 : s.cnt = 0) : exec i s = .next s := by
  rw [exec_legal hi ⟨hw, fun hn => absurd h0 hn⟩, h0]
  rfl

/-! ### The frame of a command -/

/-- `t` is `s` but for memory, the contexts and the draw index. -/
def KeepsFrame (s t : State) : Prop := t = { s with mem := t.mem, dither := t.dither, rndIdx := t.rndIdx }

theorem KeepsFrame.refl (s : State) : KeepsFrame s s := rfl

theorem KeepsFrame.trans {s t u : State} (h₁ : KeepsFrame s t) (h₂ : KeepsFrame t u) : KeepsFrame s u := by
  unfold KeepsFrame at h₁ h₂ ⊢
  rw [h₂, h₁]

/-- No operand register is in what may change (R22). -/
theorem KeepsFrame.readReg_eq {s t : State} (h : KeepsFrame s t) (r : OperandReg) : t.readReg r = s.readReg r := by
  rw [h]
  cases r <;> rfl

/-- The destination stands where it stood. -/
theorem KeepsFrame.destElement_eq {s t : State} (h : KeepsFrame s t) (i : Instr) (k : Nat) :
    destElement i t k = destElement i s k := by
  rw [h]
  cases i <;> rfl

theorem StoresOne.keepsFrame {a w : Nat} {s t : State} (h : StoresOne a w s t) : KeepsFrame s t := by
  obtain ⟨u, v, rfl, -, hu⟩ := h
  unfold KeepsFrame
  rw [hu]
  rfl

theorem elementOf_keepsFrame {i : Instr} {k : Nat} {s t : State} (h : elementOf i k s = .next t) :
    KeepsFrame s t :=
  (elementOf_storesOne h).keepsFrame

/-- Of a command's next state only memory, the contexts and the draw index can differ. -/
theorem exec_keepsFrame {i : Instr} {s t : State} (h : exec i s = .next t) : KeepsFrame s t := by
  obtain ⟨c, -, -, rfl⟩ | ⟨-, -, hl⟩ := exec_next_cases h
  · rfl
  · exact forElements_keeps (P := fun _ u => KeepsFrame s u) (KeepsFrame.refl s)
      (fun k u v _ _ hu hv => hu.trans (elementOf_keepsFrame hv)) hl

/-! ### Where the destination elements stand -/

/-- The destination of every command but `DCLR` is one of its streams, strided by `DSTRIDE` or by its width (R52). -/
theorem dest_strided_or_fixed {i : Instr} (hi : ∀ c, i ≠ .dclr c) (s : State) :
    (stridedDest s (destWidth i) ∈ streamsOf i s ∧ destElement i s = dstStrided s) ∨
    (fixedDest s (destWidth i) ∈ streamsOf i s ∧ destElement i s = dstFixed (destWidth i) s) := by
  cases i with
  | dclr c => exact absurd rfl (hi c)
  | i2f16 | i2f24 | mcpyc16 | mcpyc32 => exact .inr ⟨by simp [streamsOf, destWidth], rfl⟩
  | _ => exact .inl ⟨by simp [streamsOf, destWidth], rfl⟩

/-- Element `k` of a command's destination is element `k` of one of its streams. -/
theorem exists_stream_destElement {i : Instr} (hi : ∀ c, i ≠ .dclr c) (s : State) :
    ∃ st ∈ streamsOf i s, st.width = destWidth i ∧ ∀ k, st.element k = destElement i s k := by
  obtain ⟨hm, he⟩ | ⟨hm, he⟩ := dest_strided_or_fixed hi s
  · exact ⟨_, hm, rfl, fun k => by rw [he]; rfl⟩
  · exact ⟨_, hm, rfl, fun k => by rw [he, dstFixed, Nat.mul_comm]; rfl⟩

/-- Every element of a legal stream ends at or below 2^32 (R47 asks it of the last one). -/
theorem element_le_of_streamLegal {owned : List Extent} {cnt k : Nat} {st : Stream}
    (h : StreamLegal owned cnt st) (hk : k < cnt) : st.element k + st.width ≤ Config.addressSpace := by
  obtain ⟨-, -, -, hlast, -⟩ := h
  have hmul : k * st.stride ≤ (cnt - 1) * st.stride := Nat.mul_le_mul_right _ (by omega)
  unfold Stream.element Config.addressSpace
  omega

/-- Every destination element of a legal command lies in the address space. -/
theorem destElement_le_of_legal {i : Instr} {s : State} {k : Nat} (hi : ∀ c, i ≠ .dclr c) (h : Legal i s)
    (hk : k < s.cnt.toNat) : destElement i s k + destWidth i ≤ Config.addressSpace := by
  obtain ⟨st, hst, hw, he⟩ := exists_stream_destElement hi s
  have h0 : s.cnt ≠ 0 := count_toNat_ne_zero.2 (by omega)
  rw [← hw, ← he k]
  exact element_le_of_streamLegal (h.2 h0 st hst) hk

/-! ### Which context a command uses -/

/-- Of the float-to-integer commands the triangular and the noise-shaped ones use their context (R65). -/
theorem usedContext_of_f2iShape {i : Instr} {kk : Container} {m : DitherMode} {c : CtxNum}
    (h : f2iShape i = some (kk, m, c)) :
    usedContext i = none ∧ (m = .none ∨ m = .rect) ∨ usedContext i = some c ∧ (m = .tri ∨ m = .shp) := by
  cases i <;> simp only [f2iShape, Option.some.injEq, Prod.mk.injEq, reduceCtorEq] at h <;>
    obtain ⟨rfl, rfl, rfl⟩ := h <;> simp [usedContext]

/-- `d'` is what one sample with the draw `w` makes of the context `d`, in the triangular or the noise-shaped mode `m`
(R105, R107). -/
def SampleMakes (m : DitherMode) (w : Draw) (d d' : DitherCtx) : Prop :=
  (m = .tri ∧ ∃ x y, quantTri x w d = some (y, d')) ∨ (m = .shp ∧ ∃ x y, quantShp x w d = some (y, d'))

/-- What an element does to the contexts: nothing, or it replaces the one its command uses by what one sample makes
of it (R110). -/
theorem elementOf_dither_cases {i : Instr} {k : Nat} {s t : State} (h : elementOf i k s = .next t) :
    t.dither = s.dither ∨
    ∃ kk m c d, f2iShape i = some (kk, m, c) ∧ usedContext i = some c ∧
      SampleMakes m s.nextDraw (s.context c) d ∧ t.dither = s.dither.set c.toNat d := by
  cases hs : f2iShape i with
  | none => exact .inl (elementOf_plain hs h).1
  | some p =>
    obtain ⟨kk, m, c⟩ := p
    rw [elementOf_f2i hs] at h
    obtain ⟨-, hm⟩ | ⟨hu, -⟩ := usedContext_of_f2iShape hs
    · exact .inl (convertElement_dither hm h)
    · obtain ⟨x, y, u, -, hq, rfl⟩ := convertElement_next.1 h
      obtain ⟨-, -, rfl⟩ | ⟨-, -, rfl⟩ | ⟨rfl, d, hd, rfl⟩ | ⟨rfl, d, hd, rfl⟩ := quantise_cases hq
      · exact .inl rfl
      · exact .inl rfl
      · exact .inr ⟨kk, .tri, c, d, rfl, hu, .inl ⟨rfl, x, y, hd⟩, rfl⟩
      · exact .inr ⟨kk, .shp, c, d, rfl, hu, .inr ⟨rfl, x, y, hd⟩, rfl⟩

/-- An element keeps the number of contexts. -/
theorem elementOf_length {i : Instr} {k : Nat} {s t : State} (h : elementOf i k s = .next t) :
    t.dither.length = s.dither.length := by
  obtain hd | ⟨-, -, c, d, -, -, -, hd⟩ := elementOf_dither_cases h
  · rw [hd]
  · rw [hd, List.length_set]

/-- A context that a well-formed command uses exists (R65). -/
theorem lt_length_of_wellFormed {i : Instr} {nch : Nat} {c : CtxNum} (h : i.wellFormed nch = true)
    (hc : usedContext i = some c) : c.toNat < nch := by
  simpa [Instr.wellFormed, hc] using h

theorem State.context_eq_of_dither_eq {s t : State} (h : t.dither = s.dither) (c : CtxNum) :
    t.context c = s.context c := by
  simp [State.context, h]

/-- Replacing one context leaves the others alone, for any two states whose contexts stand so. -/
theorem State.context_eq_of_dither_set {s t : State} {c e : CtxNum} {d : DitherCtx}
    (h : t.dither = s.dither.set c.toNat d) (he : e ≠ c) : t.context e = s.context e := by
  rw [State.context_eq_of_dither_eq (s := s.setContext c d) h, State.context_setContext_other _ _ _ _ he]

end Sys2Proof.Machine
end

