-- ==== Sys2Proof/Proofs/Edge.lean ====
section
/-! SUPPORT. The block's edge, forwards and backwards: what a host access to an operand register and an issued command
do, and what a step that goes on can have been (R22, R23, R182). -/

namespace Sys2Proof.Machine

/-! ### Operand registers -/

/-- What an operand register holds after a write of any of them. -/
theorem State.readReg_writeReg (s : State) (r q : OperandReg) (v : Word) :
    (s.writeReg r v).readReg q = if q = r then v else s.readReg q := by
  split
  · next h =>
    subst h
    exact State.readReg_writeReg_same s q v
  · next h => exact State.readReg_writeReg_other s r q v h

/-- A word write at the offset of an operand register stores the value and does nothing else. -/
theorem step_writeReg {s : State} {r : OperandReg} {v : Word} {rest : List HostEvent} {offset : Nat}
    (hc : s.cmd = none) (ho : windowReg? offset = some (.operand r))
    (hh : s.host = .write (s.sfcBase + offset) 4 v :: rest) :
    step s = .next (State.writeReg { s with host := rest } r v) := by
  rw [step_host hc hh]
  simp [hostEvent, windowWrite, ho]

/-- A word read at the offset of an operand register returns its value and does nothing else. -/
theorem step_readReg {s : State} {r : OperandReg} {rest : List HostEvent} {offset : Nat}
    (hc : s.cmd = none) (ho : windowReg? offset = some (.operand r))
    (hh : s.host = .read (s.sfcBase + offset) 4 :: rest) :
    step s = .next { s with host := rest, readData := s.readReg r } := by
  rw [step_host hc hh]
  simp only [hostEvent, windowRead, windowAccess?_offset, ho]
  cases r <;> rfl

/-- What a host write to the register window can do: store an operand register or put a word into `CMD`. -/
theorem windowWrite_next {addr width : Nat} {v : Word} {s t : State} (h : windowWrite addr width v s = .next t) :
    (∃ r, t = s.writeReg r v) ∨ t = { s with cmd := some v } := by
  unfold windowWrite at h
  split at h
  · next r _ => cases h; exact .inl ⟨r, rfl⟩
  · cases h; exact .inr rfl
  · cases h

/-- What a host read of the register window can do: change what the host sees. -/
theorem windowRead_next {addr width : Nat} {s t : State} (h : windowRead addr width s = .next t) :
    ∃ v, t = { s with readData := v } := by
  unfold windowRead at h
  split at h
  · cases h; exact ⟨_, rfl⟩
  · cases h; exact ⟨_, rfl⟩
  · cases h

/-! ### Issue and step -/

theorem andThen_pure (r : Result) : (andThen r fun s => .next s) = r := by
  cases r <;> rfl

/-- With no other agent at work an issued command is just the command. -/
theorem runIssued_of_during_nil {i : Instr} {s : State} (h : s.during = []) :
    runIssued i s = exec i s.retire := by
  simp [runIssued, h, andThen_pure]

/-- A command's word with no reset among what other agents do is that command, issued. -/
theorem issue_of_decode {c : Word} {i : Instr} {s : State} (hd : decode c = .ok i)
    (hr : Overlap.reset ∉ s.during) : issue c s = runIssued i s := by
  simp [issue, hd, hr]

/-- What an issued command that goes on has done: its word was a command's, the command completed, and the foreign
bytes were stored after it. -/
theorem issue_next {c : Word} {s t : State} (h : issue c s = .next t) :
    ∃ i u, decode c = .ok i ∧ exec i s.retire = .next u ∧ t = s.during.foldl applyOverlap u := by
  unfold issue at h
  split at h
  · cases h
  · next i hi =>
    split at h
    · cases h
    · obtain ⟨u, hu, -, rfl⟩ := runIssued_eq_next.1 h
      exact ⟨i, u, hi, hu, rfl⟩

/-- What a step can be: an issued command, an action of the host, or nothing (R23, R182). -/
theorem step_next_cases {s t : State} (h : step s = .next t) :
    (∃ c, s.cmd = some c ∧ issue c s = .next t) ∨
    (∃ e rest, s.cmd = none ∧ s.host = e :: rest ∧ hostEvent e { s with host := rest } = .next t) ∨
    s.cmd = none ∧ s.host = [] ∧ t = s := by
  obtain hc | ⟨c, hc⟩ := s.cmd.eq_none_or_eq_some
  · by_cases hh : s.host = []
    · rw [step_idle hc hh, Host.Outcome.next.injEq] at h
      exact .inr (.inr ⟨hc, hh, h.symm⟩)
    · obtain ⟨e, rest, hh⟩ := List.exists_cons_of_ne_nil hh
      exact .inr (.inl ⟨e, rest, hc, hh, step_host hc hh ▸ h⟩)
  · exact .inl ⟨c, hc, step_cmd hc ▸ h⟩

end Sys2Proof.Machine
end

