-- ==== Sys2Proof/Proofs/Variates.lean ====
section
/-! SUPPORT. The triangular base variate lies in [-1, 1) (R102): its integer is below 2^24 in magnitude, so the one
rounding it goes through is exact, and the pattern can be compared with that of 1.0. -/

namespace Sys2Proof.Machine

theorem divHalfEven_one (n : Nat) : divHalfEven n 1 = n := by
  simp [divHalfEven, Nat.mod_one]

/-- The binary logarithm of an integer times a power of two. -/
theorem floorLog2_den_one {n : Nat} (h : n ≠ 0) (exp : Int) : floorLog2 n 1 exp = Nat.log2 n + exp := by
  have hle : 2 ^ Nat.log2 n ≤ n := Nat.log2_self_le h
  have h1 : Nat.log2 1 = 0 := by decide
  simp [floorLog2, h1, hle]

/-- Where the unit in the last place is no larger than the operand's own, nothing is rounded away. -/
theorem roundToUlp_exact {n : Nat} {exp ulp : Int} (h : ulp ≤ exp) :
    roundToUlp n 1 exp ulp = n * 2 ^ (exp - ulp).toNat := by
  rw [roundToUlp, if_pos h, divHalfEven_one]

/-- An integer of at most 24 bits, scaled so that it is no subnormal, is rounded to itself (R81): its significand
is the integer moved up to 24 bits. -/
theorem rnd32_exact {neg : Bool} {n : Nat} {exp : Int} (h0 : n ≠ 0) (h24 : n < 2 ^ 24)
    (hexp : -126 ≤ Nat.log2 n + exp) :
    rnd32 neg n 1 exp =
      BitVec.ofNat 32 ((if neg then 2 ^ 31 else 0) +
        magnitudeBits (n * 2 ^ (23 - Nat.log2 n)) (Nat.log2 n + exp - 23)) := by
  have hlog : Nat.log2 n < 24 := (Nat.log2_lt h0).2 h24
  have hshift : (exp - (Nat.log2 n + exp - 23)).toNat = 23 - Nat.log2 n := by omega
  rw [rnd32, floorLog2_den_one h0, max_eq_left hexp, roundToUlp_exact (by omega), hshift]
  cases neg <;> simp

/-- An integer moved up to 24 bits has no more than 24 bits. -/
theorem mul_two_pow_sub_log2_lt {n : Nat} (h : n < 2 ^ 24) : n * 2 ^ (23 - Nat.log2 n) < 2 ^ 24 := by
  by_cases h0 : n = 0
  · simp [h0]
  have hlog : Nat.log2 n < 24 := (Nat.log2_lt h0).2 h
  calc n * 2 ^ (23 - Nat.log2 n)
      < 2 ^ (Nat.log2 n + 1) * 2 ^ (23 - Nat.log2 n) := Nat.mul_lt_mul_of_pos_right Nat.lt_log2_self (by positivity)
    _ = 2 ^ 24 := by rw [← pow_add, show Nat.log2 n + 1 + (23 - Nat.log2 n) = 24 by omega]

/-- The pattern of a magnitude below 1.0, `n * 2^-23` with `n < 2^23`, is below that of 1.0. -/
theorem magnitudeBits_lt_one {n : Nat} (h0 : n ≠ 0) (h : n < 2 ^ 23) :
    magnitudeBits (n * 2 ^ (23 - Nat.log2 n)) (Nat.log2 n + -23 - 23) < 0x3F800000 := by
  have hlog : Nat.log2 n < 23 := (Nat.log2_lt h0).2 h
  have hsig := mul_two_pow_sub_log2_lt (h.trans (by norm_num))
  have hfield : ((Nat.log2 n : Int) + -23 - 23 + 149).toNat = Nat.log2 n + 103 := by omega
  rw [magnitudeBits, hfield, if_neg (by omega)]
  omega

/-- A pattern whose magnitude bits are below those of 1.0 is in the range of R27, whatever its sign. -/
theorem prevInRange_of_magnitude_lt {neg : Bool} {m : Nat} (h : m < 0x3F800000) :
    prevInRange (BitVec.ofNat 32 ((if neg then 2 ^ 31 else 0) + m)) = true := by
  have hmod : (BitVec.ofNat 32 ((if neg then 2 ^ 31 else 0) + m)).toNat % 2 ^ 31 = m := by
    rw [BitVec.toNat_ofNat]
    cases neg <;> simp <;> omega
  rw [prevInRange, hmod, decide_eq_true h, Bool.true_or]

/-- `m * 2^-23` for an integer `m` from -2^23 to 2^23 - 1 is in the range of R27. -/
theorem prevInRange_ofScaled {m : Int} (hlo : -2 ^ 23 ≤ m) (hhi : m < 2 ^ 23) :
    prevInRange (ofScaled m (-23)) = true := by
  unfold ofScaled
  split
  · decide
  · next h0 =>
    by_cases hm : m = -2 ^ 23
    · subst hm
      decide +kernel
    · rw [rnd32_exact (by omega) (by omega) (by omega)]
      exact prevInRange_of_magnitude_lt (magnitudeBits_lt_one (by omega) (by omega))

/-- The triangular base variate of every draw is in [-1, 1) (R102, R27). -/
theorem prevInRange_triangular (w : Draw) : prevInRange (triangular w) = true := by
  have hw : w.toNat < 2 ^ 24 := w.isLt
  exact prevInRange_ofScaled (by omega) (by omega)

end Sys2Proof.Machine
end

