-- ==== Sys2Proof/Proofs/Contexts.lean ====
section
/-! SUPPORT. What one sample does to a dither context (R105, R107), and that it keeps the context as R27 says. -/

namespace Sys2Proof.Machine

theorem DitherCtx.wf_iff {n : Nat} {d : DitherCtx} :
    d.wf n = true ↔
      d.err.length = n ∧ d.idx < n ∧ prevInRange d.prev = true ∧ ∀ e ∈ d.err, isFinite e = true := by
  simp [DitherCtx.wf, and_assoc]

theorem finite?_eq_some {b x : Word} : finite? b = some x ↔ x = b ∧ isFinite b = true := by
  unfold finite?
  split <;> rename_i h <;> simp [h, eq_comm]

/-- A triangular sample replaces `prev` by its variate and nothing else (R105). -/
theorem quantTri_context {x : Word} {w : Draw} {d d' : DitherCtx} {y : Int} (h : quantTri x w d = some (y, d')) :
    d' = { d with prev := triangular w } := by
  simp only [quantTri, Option.bind_eq_bind, Option.bind_eq_some_iff, Option.some.injEq, Prod.mk.injEq] at h
  obtain ⟨_, _, _, _, -, rfl⟩ := h
  rfl

/-- A noise-shaped sample replaces `prev` by its variate and stores a finite error at the next position (R107). -/
theorem quantShp_context {x : Word} {w : Draw} {d d' : DitherCtx} {y : Int} (h : quantShp x w d = some (y, d')) :
    ∃ e, isFinite e = true ∧ d' = { prev := triangular w, err := d.err.set d.nextIdx e, idx := d.nextIdx } := by
  simp only [quantShp, Option.bind_eq_bind, Option.bind_eq_some_iff, Option.some.injEq, Prod.mk.injEq] at h
  obtain ⟨_, _, _, _, _, _, _, _, e, he, -, rfl⟩ := h
  obtain ⟨rfl, hfin⟩ := finite?_eq_some.1 he
  exact ⟨_, hfin, rfl⟩

/-- A context at its reset value is as R27 says. -/
theorem DitherCtx.wf_zero {n : Nat} (h : 0 < n) : (DitherCtx.zero n).wf n = true := by
  refine DitherCtx.wf_iff.2 ⟨List.length_replicate, h, (by decide : prevInRange 0 = true), fun e he => ?_⟩
  rw [List.eq_of_mem_replicate he]
  decide

theorem DitherCtx.wf_cleared {n : Nat} {d : DitherCtx} (h : d.wf n = true) : d.cleared.wf n = true := by
  obtain ⟨hlen, hidx, -, -⟩ := DitherCtx.wf_iff.1 h
  rw [DitherCtx.cleared, hlen]
  exact DitherCtx.wf_zero (by omega)

/-- The triangular quantiser keeps a context as R27 says. -/
theorem quantTri_wf {n : Nat} {x : Word} {w : Draw} {d d' : DitherCtx} {y : Int} (hd : d.wf n = true)
    (h : quantTri x w d = some (y, d')) : d'.wf n = true := by
  obtain ⟨hlen, hidx, -, herr⟩ := DitherCtx.wf_iff.1 hd
  rw [quantTri_context h]
  exact DitherCtx.wf_iff.2 ⟨hlen, hidx, prevInRange_triangular w, herr⟩

/-- The noise-shaping quantiser keeps a context as R27 says. -/
theorem quantShp_wf {n : Nat} {x : Word} {w : Draw} {d d' : DitherCtx} {y : Int} (hd : d.wf n = true)
    (h : quantShp x w d = some (y, d')) : d'.wf n = true := by
  obtain ⟨hlen, hidx, -, herr⟩ := DitherCtx.wf_iff.1 hd
  obtain ⟨e, he, rfl⟩ := quantShp_context h
  have hnext : d.nextIdx < n := by
    rw [DitherCtx.nextIdx, hlen]
    exact Nat.mod_lt _ (by omega)
  refine DitherCtx.wf_iff.2 ⟨by rw [List.length_set, hlen], hnext, prevInRange_triangular w, fun f hf => ?_⟩
  obtain hf | rfl := List.mem_or_eq_of_mem_set hf
  · exact herr f hf
  · exact he

/-- One sample keeps a context as R27 says. -/
theorem SampleMakes.wf {m : DitherMode} {n : Nat} {w : Draw} {d d' : DitherCtx} (h : SampleMakes m w d d')
    (hd : d.wf n = true) : d'.wf n = true := by
  obtain ⟨-, x, y, hq⟩ | ⟨-, x, y, hq⟩ := h
  · exact quantTri_wf hd hq
  · exact quantShp_wf hd hq

/-- A context that exists is one of the block's. -/
theorem State.context_mem {s : State} {c : CtxNum} (h : c.toNat < s.dither.length) : s.context c ∈ s.dither := by
  simp [State.context, List.getD, h]

end Sys2Proof.Machine
end

