-- ==== Sys2Proof/Proofs/Invariant.lean ====
section
/-! SUPPORT. The invariant of R27, operation by operation: it looks at memory and the contexts only, and every element,
every command, every action of the host and every foreign byte keeps it. -/

namespace Sys2Proof.Machine

/-- The part of the invariant about the contexts: 1 to 256 of them, one history size, each as R27 says. -/
def ContextsWf (ds : List DitherCtx) : Prop :=
  1 ≤ ds.length ∧ ds.length ≤ 256 ∧ ∃ n, historySizeOk n = true ∧ ∀ d ∈ ds, d.wf n = true

/-- The invariant, with the history size named by any context instead of by context 0. -/
theorem State.inv_iff {s : State} : s.inv = true ↔ Memory.wf s.mem = true ∧ ContextsWf s.dither := by
  simp only [State.inv, ContextsWf, Bool.and_eq_true, decide_eq_true_eq, List.all_eq_true, and_assoc]
  refine and_congr_right fun _ => and_congr_right fun h1 => and_congr_right fun _ =>
    ⟨fun h => ⟨s.historySize, h⟩, fun ⟨n, hn, hd⟩ => ?_⟩
  obtain ⟨hlen, -⟩ := DitherCtx.wf_iff.1 (hd _ (State.context_mem (c := 0) h1))
  have hsize : s.historySize = n := hlen
  exact hsize ▸ ⟨hn, hd⟩

theorem historySizeOk_pos {n : Nat} (h : historySizeOk n = true) : 0 < n := by
  have h8 : 8 ≤ n := by simp_all [historySizeOk]
  omega

/-- Replacing a context by one that is as R27 says, if the one before was, keeps the contexts' part. -/
theorem ContextsWf.set_context {s : State} {c : CtxNum} {d : DitherCtx} (hs : ContextsWf s.dither)
    (hc : c.toNat < s.dither.length) (hd : ∀ n, (s.context c).wf n = true → d.wf n = true) :
    ContextsWf (s.dither.set c.toNat d) := by
  obtain ⟨hlo, hhi, n, hn, hall⟩ := hs
  refine ⟨by rwa [List.length_set], by rwa [List.length_set], n, hn, fun e he => ?_⟩
  obtain he | rfl := List.mem_or_eq_of_mem_set he
  · exact hall e he
  · exact hd n (hall _ (State.context_mem hc))

/-- Clearing every context keeps the contexts' part. -/
theorem ContextsWf.map_cleared {ds : List DitherCtx} (h : ContextsWf ds) :
    ContextsWf (ds.map DitherCtx.cleared) := by
  obtain ⟨hlo, hhi, n, hn, hall⟩ := h
  refine ⟨by rwa [List.length_map], by rwa [List.length_map], n, hn, fun d hd => ?_⟩
  obtain ⟨d', hd', rfl⟩ := List.mem_map.1 hd
  exact DitherCtx.wf_cleared (hall d' hd')

/-- Contexts right after reset are as R27 says. -/
theorem ContextsWf.replicate_zero {nch n : Nat} (h1 : 1 ≤ nch) (h2 : nch ≤ 256) (hn : historySizeOk n = true) :
    ContextsWf (List.replicate nch (DitherCtx.zero n)) := by
  refine ⟨by rwa [List.length_replicate], by rwa [List.length_replicate], n, hn, fun d hd => ?_⟩
  rw [List.eq_of_mem_replicate hd]
  exact DitherCtx.wf_zero (historySizeOk_pos hn)

/-- The block right after reset, of any size the spec allows, meets the invariant. -/
theorem State.inv_resetOf {nch n : Nat} (base : Nat) (h1 : 1 ≤ nch) (h2 : nch ≤ 256)
    (hn : historySizeOk n = true) : (State.resetOf nch n base).inv = true :=
  State.inv_iff.2 ⟨rfl, ContextsWf.replicate_zero h1 h2 hn⟩

/-! ### Commands -/

/-- An element inside the address space, of a command whose context exists, keeps the invariant. -/
theorem elementOf_inv {i : Instr} {k : Nat} {s t : State} (hs : s.inv = true)
    (hw : i.wellFormed s.dither.length = true) (ha : destElement i s k + destWidth i ≤ Config.addressSpace)
    (h : elementOf i k s = .next t) : t.inv = true := by
  obtain ⟨hmem, hctx⟩ := State.inv_iff.1 hs
  refine State.inv_iff.2 ⟨?_, ?_⟩
  · obtain ⟨u, v, rfl, -, hu⟩ := elementOf_storesOne h
    rw [State.store_mem, hu]
    exact Memory.write_wf ha hmem
  · obtain hd | ⟨_, _, c, d, -, hu, hmakes, hd⟩ := elementOf_dither_cases h
    · rwa [hd]
    · rw [hd]
      exact hctx.set_context (lt_length_of_wellFormed hw hu) fun n hn => hmakes.wf hn

/-- Every command keeps the invariant. -/
theorem exec_inv {i : Instr} {s t : State} (hs : s.inv = true) (h : exec i s = .next t) : t.inv = true := by
  obtain ⟨c, rfl, hc, rfl⟩ | ⟨hi, hl, hloop⟩ := exec_next_cases h
  · obtain ⟨hmem, hctx⟩ := State.inv_iff.1 hs
    exact State.inv_iff.2 ⟨hmem, hctx.set_context hc fun n hn => DitherCtx.wf_cleared hn⟩
  · have hkept := forElements_keeps
      (P := fun _ u => u.inv = true ∧ KeepsFrame s u ∧ u.dither.length = s.dither.length)
      ⟨hs, KeepsFrame.refl s, rfl⟩ (fun k u v _ hk ⟨hu, hf, hlen⟩ hv => ?_) hloop
    · exact hkept.1
    · have ha : destElement i u k + destWidth i ≤ Config.addressSpace := by
        rw [hf.destElement_eq]
        exact destElement_le_of_legal hi hl (by omega)
      exact ⟨elementOf_inv hu (hlen ▸ hl.1) ha hv, hf.trans (elementOf_keepsFrame hv),
        (elementOf_length hv).trans hlen⟩

/-! ### The block's edge -/

/-- The invariant looks at memory and the contexts only. -/
theorem State.inv_congr {s t : State} (hm : t.mem = s.mem) (hd : t.dither = s.dither) : t.inv = s.inv := by
  simp [State.inv, State.historySize, State.context, hm, hd]

/-- A byte stored at an address of `MEM` keeps the invariant. -/
theorem State.inv_writeByte {s : State} (hs : s.inv = true) (a : Word) (v : Byte) :
    State.inv { s with mem := Memory.writeByte s.mem a.toNat v } = true := by
  obtain ⟨hmem, hctx⟩ := State.inv_iff.1 hs
  exact State.inv_iff.2 ⟨Memory.writeByte_wf a.isLt hmem, hctx⟩

theorem State.inv_applyReset {s : State} (hs : s.inv = true) : s.applyReset.inv = true := by
  obtain ⟨hmem, hctx⟩ := State.inv_iff.1 hs
  exact State.inv_iff.2 ⟨hmem, hctx.map_cleared⟩

/-- What another agent leaves behind keeps the invariant. -/
theorem applyOverlap_inv {s : State} (hs : s.inv = true) (o : Overlap) : (applyOverlap s o).inv = true := by
  cases o with
  | memWrite a v => exact State.inv_writeByte hs a v
  | _ => exact hs

theorem foldl_applyOverlap_inv {s : State} (hs : s.inv = true) (os : List Overlap) :
    (os.foldl applyOverlap s).inv = true := by
  induction os generalizing s with
  | nil => exact hs
  | cons o os ih => exact ih (applyOverlap_inv hs o)

/-- Every action of the host keeps the invariant. -/
theorem hostEvent_inv {e : HostEvent} {s t : State} (hs : s.inv = true) (h : hostEvent e s = .next t) :
    t.inv = true := by
  cases e with
  | write addr width v =>
    obtain ⟨r, rfl⟩ | rfl := windowWrite_next h
    · rwa [State.inv_congr (s := s) (by simp) (by simp)]
    · exact hs
  | read addr width =>
    obtain ⟨v, rfl⟩ := windowRead_next h
    exact hs
  | memWrite a v => cases h; exact State.inv_writeByte hs a v
  | memRead a => cases h; exact hs
  | own extents => cases h; exact hs
  | reset => cases h; exact State.inv_applyReset hs

/-- Every step keeps the invariant. -/
theorem step_inv {s t : State} (hs : s.inv = true) (h : step s = .next t) : t.inv = true := by
  obtain ⟨c, -, h⟩ | ⟨e, rest, -, -, h⟩ | ⟨-, -, rfl⟩ := step_next_cases h
  · obtain ⟨i, u, -, hu, rfl⟩ := issue_next h
    exact foldl_applyOverlap_inv (exec_inv (s := s.retire) hs hu) _
  · exact hostEvent_inv (s := { s with host := rest }) hs h
  · exact hs

end Sys2Proof.Machine
end

