-- ==== Sys2Proof/Proofs/ContextUse.lean ====
section
/-! SUPPORT. Who writes a context and who reads one (R29, R110): element by element, then over the element loop. -/

namespace Sys2Proof.Machine

/-! ### Commands that use no context -/

theorem elementOf_dither_eq {i : Instr} {k : Nat} {s t : State} (hi : usedContext i = none)
    (h : elementOf i k s = .next t) : t.dither = s.dither := by
  obtain hd | ⟨-, -, c, -, -, hu, -⟩ := elementOf_dither_cases h
  · exact hd
  · rw [hi] at hu
    cases hu

/-- A command that uses no context writes none. -/
theorem exec_dither_eq {i : Instr} {s t : State} (hi : usedContext i = none) (h : exec i s = .next t) :
    t.dither = s.dither := by
  obtain ⟨c, rfl, -⟩ | ⟨-, -, hl⟩ := exec_next_cases h
  · cases hi
  · exact forElements_keeps (P := fun _ u => u.dither = s.dither) rfl
      (fun k u v _ _ hu hv => (elementOf_dither_eq hi hv).trans hu) hl

/-- A change of the state that every element carries over to its next state, the loop carries over. -/
theorem forElements_map {el : Nat → State → Result} {f : State → State}
    (hel : ∀ k u v, el k u = .next v → el k (f u) = .next (f v)) {n i : Nat} {s t : State}
    (h : forElements el n i s = .next t) : forElements el n i (f s) = .next (f t) := by
  induction n generalizing i s with
  | zero =>
    cases h
    rfl
  | succ n ih =>
    rw [forElements_succ, andThen_eq_next] at h ⊢
    obtain ⟨u, hu, ht⟩ := h
    exact ⟨f u, hel i s u hu, ih ht⟩

/-- The state with these contexts in place of its own. -/
def State.withContexts (ds : List DitherCtx) (s : State) : State := { s with dither := ds }

/-- Without dither and with rectangular dither the quantiser reads no context (R103, R104). -/
theorem quantise_withContexts {m : DitherMode} {c : CtxNum} {x : Word} {s u : State} {y : Int}
    (ds : List DitherCtx) (hm : m = .none ∨ m = .rect) (h : quantise m c x s = some (y, u)) :
    quantise m c x (s.withContexts ds) = some (y, u.withContexts ds) := by
  obtain ⟨rfl, rfl, rfl⟩ | ⟨rfl, hq, rfl⟩ | ⟨rfl, -⟩ | ⟨rfl, -⟩ := quantise_cases h
  · rfl
  · have hq' : quantRect x (s.withContexts ds).nextDraw = some y := hq
    simp only [quantise, hq']
    rfl
  · simp at hm
  · simp at hm

theorem convertElement_withContexts {kk : Container} {m : DitherMode} {c : CtxNum} {k : Nat} {s t : State}
    (ds : List DitherCtx) (hm : m = .none ∨ m = .rect) (h : convertElement kk m c k s = .next t) :
    convertElement kk m c k (s.withContexts ds) = .next (t.withContexts ds) := by
  obtain ⟨x, y, u, hx, hq, rfl⟩ := convertElement_next.1 h
  exact convertElement_next.2 ⟨x, y, u.withContexts ds, hx, quantise_withContexts ds hm hq, rfl⟩

/-- An element of a command that uses no context does the same whatever the contexts hold. -/
theorem elementOf_withContexts {i : Instr} {k : Nat} {s t : State} (ds : List DitherCtx)
    (hi : usedContext i = none) (h : elementOf i k s = .next t) :
    elementOf i k (s.withContexts ds) = .next (t.withContexts ds) := by
  cases hs : f2iShape i with
  | some p =>
    obtain ⟨kk, m, c⟩ := p
    rw [elementOf_f2i hs] at h ⊢
    obtain ⟨-, hm⟩ | ⟨hu, -⟩ := usedContext_of_f2iShape hs
    · exact convertElement_withContexts ds hm h
    · rw [hi] at hu
      cases hu
  | none =>
    cases i with
    | fmrg16 =>
      obtain ⟨x, hx, rfl⟩ := mergeElement16_next.1 h
      exact mergeElement16_next.2 ⟨x, hx, rfl⟩
    | fmrg24 =>
      obtain ⟨x, hx, rfl⟩ := mergeElement24_next.1 h
      exact mergeElement24_next.2 ⟨x, hx, rfl⟩
    | i2f16 | i2f24 | fill8 | fill16 | fill32 | cpy16 | cpy32 | mcpy16 | mcpy32 | mcpyc16 | mcpyc32 =>
      cases h
      rfl
    | dclr c => cases hi
    | _ => cases hs

/-- The contract of a command that uses no context does not look at the contexts. -/
theorem legal_withContexts {i : Instr} {s : State} (ds : List DitherCtx) (hi : usedContext i = none)
    (h : Legal i s) : Legal i (s.withContexts ds) := by
  have hstreams : streamsOf i (s.withContexts ds) = streamsOf i s := by cases i <;> rfl
  refine ⟨by simp [Instr.wellFormed, hi], fun h0 st hst => ?_⟩
  rw [hstreams] at hst
  exact h.2 h0 st hst

/-- A command that uses no context reads none: it does the same whatever they hold. -/
theorem exec_withContexts {i : Instr} {s t : State} (ds : List DitherCtx) (hi : usedContext i = none)
    (h : exec i s = .next t) : exec i (s.withContexts ds) = .next (t.withContexts ds) := by
  obtain ⟨c, rfl, -⟩ | ⟨hnd, hl, hloop⟩ := exec_next_cases h
  · cases hi
  · rw [exec_legal hnd (legal_withContexts ds hi hl)]
    exact forElements_map (fun k u v => elementOf_withContexts ds hi) hloop

/-! ### Commands that use a context -/

/-- An element writes only the context its command uses. -/
theorem elementOf_context_other {i : Instr} {k : Nat} {s t : State} {c e : CtxNum} (hi : usedContext i = some c)
    (he : e ≠ c) (h : elementOf i k s = .next t) : t.context e = s.context e := by
  obtain hd | ⟨-, -, c', d, -, hu, -, hd⟩ := elementOf_dither_cases h
  · exact State.context_eq_of_dither_eq hd e
  · obtain rfl : c = c' := by simpa [hi] using hu
    exact State.context_eq_of_dither_set hd he

/-- A command that uses a context writes only that one. -/
theorem exec_context_other {i : Instr} {s t : State} {c e : CtxNum} (hi : usedContext i = some c) (he : e ≠ c)
    (h : exec i s = .next t) : t.context e = s.context e := by
  obtain ⟨c', rfl, -, rfl⟩ | ⟨-, -, hl⟩ := exec_next_cases h
  · obtain rfl : c' = c := by simpa [usedContext] using hi
    exact State.context_setContext_other _ _ _ _ he
  · exact forElements_keeps (P := fun _ u => u.context e = s.context e) rfl
      (fun k u v _ _ hu hv => (elementOf_context_other hi he hv).trans hu) hl

/-- No command makes or removes a context. -/
theorem exec_length {i : Instr} {s t : State} (h : exec i s = .next t) :
    t.dither.length = s.dither.length := by
  obtain ⟨c, -, -, rfl⟩ | ⟨-, -, hl⟩ := exec_next_cases h
  · exact List.length_set
  · exact forElements_keeps (P := fun _ u => u.dither.length = s.dither.length) rfl
      (fun k u v _ _ hu hv => (elementOf_length hv).trans hu) hl

/-- `t` has the errors and the position of context `c` of `s`. -/
def SameErrors (c : CtxNum) (s t : State) : Prop :=
  (t.context c).err = (s.context c).err ∧ (t.context c).idx = (s.context c).idx

theorem SameErrors.trans {c : CtxNum} {s t u : State} (h₁ : SameErrors c s t) (h₂ : SameErrors c t u) :
    SameErrors c s u :=
  ⟨h₂.1.trans h₁.1, h₂.2.trans h₁.2⟩

/-- An element of a triangular command writes only `prev` of its context (R105). -/
theorem elementOf_tri_sameErrors {i : Instr} {kk : Container} {k : Nat} {s t : State} {c : CtxNum}
    (hi : f2iShape i = some (kk, .tri, c)) (hc : c.toNat < s.dither.length) (h : elementOf i k s = .next t) :
    SameErrors c s t := by
  obtain hd | ⟨kk', m, c', d, hs, -, hmakes, hd⟩ := elementOf_dither_cases h
  · rw [SameErrors, State.context_eq_of_dither_eq hd]
    exact ⟨rfl, rfl⟩
  · obtain ⟨-, rfl, rfl⟩ : kk = kk' ∧ .tri = m ∧ c = c' := by simpa [hi] using hs
    obtain ⟨-, x, y, hq⟩ | ⟨h, -⟩ := hmakes
    · rw [SameErrors, State.context_eq_of_dither_eq (s := s.setContext c d) hd,
        State.context_setContext_same _ _ _ hc, quantTri_context hq]
      exact ⟨rfl, rfl⟩
    · cases h

/-- A triangular command writes only `prev` of its context. -/
theorem exec_tri_sameErrors {i : Instr} {kk : Container} {s t : State} {c : CtxNum}
    (hi : f2iShape i = some (kk, .tri, c)) (h : exec i s = .next t) : SameErrors c s t := by
  obtain ⟨c', rfl, -⟩ | ⟨-, hl, hloop⟩ := exec_next_cases h
  · cases hi
  · have hused : usedContext i = some c := by
      obtain ⟨-, hm⟩ | ⟨hu, -⟩ := usedContext_of_f2iShape hi
      · simp at hm
      · exact hu
    have hc : c.toNat < s.dither.length := lt_length_of_wellFormed hl.1 hused
    have hkept := forElements_keeps (P := fun _ u => u.dither.length = s.dither.length ∧ SameErrors c s u)
      ⟨rfl, rfl, rfl⟩
      (fun k u v _ _ ⟨hlen, hu⟩ hv => ⟨(elementOf_length hv).trans hlen,
        hu.trans (elementOf_tri_sameErrors hi (hlen ▸ hc) hv)⟩) hloop
    exact hkept.2

end Sys2Proof.Machine
end

