-- ==== Sys2Proof/Proofs/StateFamily.lean ====
section
/-! The statements about the state (10_state.md), each a short use of the lemmas above. -/

namespace Sys2Proof.Machine

/-- Settles O39. A step is a command with the foreign bytes after it, an action of the host, or nothing; each keeps
memory canonical and the contexts as R27 says. -/
theorem stepKeepsInvariant : Obligations.StepKeepsInvariant :=
  fun _ _ => step_inv

/-- Settles O24: every element stores memory and moves only a context and the draw index. -/
theorem commandsChangeMemoryContextsAndDrawsOnly : Obligations.CommandsChangeMemoryContextsAndDrawsOnly :=
  fun _ _ _ => exec_keepsFrame

/-- Settles O10: the window's laws for the host, the frame of a command for the last part. -/
theorem operandRegistersHoldWhatTheHostWrote : Obligations.OperandRegistersHoldWhatTheHostWrote :=
  ⟨fun _ _ _ _ hc _ ho => ⟨step_writeReg hc ho, step_readReg hc ho⟩, State.readReg_writeReg,
    fun _ _ _ r h => (exec_keepsFrame h).readReg_eq r⟩

/-- Settles O26: who writes a context goes element by element over the loop; who reads none does the same on any
contexts. -/
theorem contextsWrittenOnlyByTheirCommands : Obligations.ContextsWrittenOnlyByTheirCommands := by
  refine ⟨fun i s t => exec_dither_eq,
    fun i s t c hi h => ⟨exec_length h, fun e he => exec_context_other hi he h⟩,
    fun s t c h => ?_, fun i s t ds => exec_withContexts ds⟩
  obtain h | h := h
  · exact exec_tri_sameErrors (i := .f2i16Tri c) rfl h
  · exact exec_tri_sameErrors (i := .f2i24Tri c) rfl h

/-- Settles O6: with no other agent at work nothing conflicts and nothing is stored after the command. -/
theorem stepRunsTheDecodedCommand : Obligations.StepRunsTheDecodedCommand := by
  intro s c i hc hd hdur
  have hretire : s.retire = { s with cmd := none } := by rw [State.retire, ← hdur]
  rw [step_cmd hc, issue_of_decode hd (by simp [hdur]), runIssued_of_during_nil hdur, hretire]

/-- Settles O7: offset `0x18` is `CMD`'s place in the window (R60). -/
theorem cmdWriteIssuesTheWord : Obligations.CmdWriteIssuesTheWord := by
  intro s c rest hc hh
  have hcmd : windowReg? 0x18 = some .cmd := rfl
  rw [step_host hc hh]
  simp only [hostEvent, windowWrite, windowAccess?_offset, hcmd]

/-- Settles O13: the reset values of R33, and `CNT = 0` for a command issued at once (R191). -/
theorem commandsRightAfterResetDoNothing : Obligations.CommandsRightAfterResetDoNothing := by
  refine ⟨fun nch n base => ⟨fun r => by cases r <;> rfl, rfl, rfl, List.length_replicate, fun d hd => ?_⟩,
    fun nch n base i hw hi => exec_of_cnt_eq_zero hi ?_ rfl⟩
  · rw [List.eq_of_mem_replicate hd]
    exact ⟨rfl, rfl, rfl⟩
  · have hlen : (State.resetOf nch n base).dither.length = nch := List.length_replicate
    rwa [hlen]

/-- Settles O40; `State.reset` is the block of four contexts with a history of 8. -/
theorem resetMeetsInvariant : Obligations.ResetMeetsInvariant :=
  ⟨fun _ _ base => State.inv_resetOf base,
    State.inv_resetOf Config.resetBase (by decide) (by decide) (by decide)⟩

end Sys2Proof.Machine
end

