-- ==== Sys2Proof/Proofs/Checks.lean ====
section
/-! SUPPORT. The streams of a command and the checks of R133 on them: how the streams stand (R52), what each check
reports, and which check a command outside the contract faults at (R173). -/

namespace Sys2Proof.Machine

/-! ### The streams of a command -/

/-- A command over streams has at most one source stream and then its destination stream (R52). -/
theorem streamsOf_eq_append {i : Instr} (hi : ∀ c, i ≠ .dclr c) (s : State) :
    ∃ (src : Option Stream) (d : Stream), streamsOf i s = src.toList ++ [d] ∧
      (∀ a ∈ src, a.which = .source) ∧ d.which = .destination ∧ d.width = destWidth i ∧
      ∀ k, d.element k = destElement i s k := by
  cases i with
  | dclr c => exact absurd rfl (hi c)
  | fill8 | fill16 | fill32 => exact ⟨none, stridedDest s _, rfl, nofun, rfl, rfl, fun _ => rfl⟩
  | i2f16 | i2f24 =>
    exact ⟨some (stridedSource s _), fixedDest s _, rfl, by rintro _ ⟨⟩; rfl, rfl, rfl,
      fun k => congrArg (_ + ·) (Nat.mul_comm k _)⟩
  | mcpyc16 | mcpyc32 =>
    exact ⟨some (fixedSource s _), fixedDest s _, rfl, by rintro _ ⟨⟩; rfl, rfl, rfl,
      fun k => congrArg (_ + ·) (Nat.mul_comm k _)⟩
  | cpy16 | cpy32 | mcpy16 | mcpy32 =>
    exact ⟨some (stridedSource s _), stridedDest s _, rfl, by rintro _ ⟨⟩; rfl, rfl, rfl, fun _ => rfl⟩
  | _ => exact ⟨some (fixedSource s _), stridedDest s _, rfl, by rintro _ ⟨⟩; rfl, rfl, rfl, fun _ => rfl⟩

/-- Only `DCLR` has no stream. -/
theorem streamsOf_eq_nil {i : Instr} {s : State} : streamsOf i s = [] ↔ ∃ c, i = .dclr c := by
  refine ⟨fun h => ?_, by rintro ⟨c, rfl⟩; rfl⟩
  by_contra hi
  obtain ⟨src, d, heq, -⟩ := streamsOf_eq_append (not_exists.1 hi) s
  simp [heq] at h

/-- A command that has a stream is no `DCLR`. -/
theorem ne_dclr_of_mem_streamsOf {i : Instr} {s : State} {st : Stream} (h : st ∈ streamsOf i s) (c : CtxNum) :
    i ≠ .dclr c := by
  rintro rfl
  cases h

/-- A stream's elements are not empty, and a stride that comes from no register is the element width (R43, R44). -/
theorem width_pos_and_stride_of_mem_streamsOf {i : Instr} {s : State} {st : Stream} (h : st ∈ streamsOf i s) :
    0 < st.width ∧ (st.fromRegister = false → st.stride = st.width) := by
  cases i with
  | dclr c => cases h
  | fill8 | fill16 | fill32 =>
    obtain rfl : st = _ := List.mem_singleton.1 h
    exact ⟨by simp [stridedDest], nofun⟩
  | _ =>
    simp only [streamsOf, List.mem_cons, List.not_mem_nil, or_false] at h
    obtain rfl | rfl := h <;> simp [fixedSource, stridedSource, fixedDest, stridedDest]

/-! ### What each check reports -/

theorem strideViolation_eq_some {st : Stream} {f : Fault} :
    strideViolation st = some f ↔
      st.fromRegister = true ∧ st.stride < st.width ∧ f = .strideTooSmall st.which st.stride := by
  simp [strideViolation, and_assoc, @eq_comm _ f]

theorem alignViolation_eq_some {st : Stream} {f : Fault} :
    alignViolation st = some f ↔
      (st.base % st.width ≠ 0 ∧ f = .misaligned st.which st.base) ∨
      (st.base % st.width = 0 ∧ st.fromRegister = true ∧ st.stride % st.width ≠ 0 ∧
        f = .misaligned st.which st.stride) := by
  unfold alignViolation
  by_cases hb : st.base % st.width = 0 <;> simp [hb, and_assoc, @eq_comm _ f]

theorem wrapViolation_eq_some {cnt : Nat} {st : Stream} {f : Fault} :
    wrapViolation cnt st = some f ↔
      2 ^ 32 < st.base + (cnt - 1) * st.stride + st.width ∧ f = .addressWrap st.which := by
  unfold wrapViolation Config.addressSpace
  split
  · next h => simp only [h, true_and, Option.some.injEq, eq_comm]
  · next h => simp only [h, false_and, reduceCtorEq]

/-- What the extent check reports is a foreign byte of an element (R48). -/
theorem extentViolation_eq_some {owned : List Extent} {cnt : Nat} {st : Stream} {f : Fault}
    (h : extentViolation owned cnt st = some f) :
    ∃ k < cnt, ∃ j < st.width, ownedByte owned (st.element k + j) = false ∧
      f = .outOfExtent (st.element k + j) := by
  obtain ⟨k, hk, hel⟩ := List.exists_of_findSome?_eq_some h
  obtain ⟨j, hj, hf⟩ := List.exists_of_findSome?_eq_some hel
  refine ⟨k, List.mem_range.1 hk, j, List.mem_range.1 hj, ?_⟩
  split at hf
  · cases hf
  · next hown => exact ⟨by simpa using hown, (Option.some.inj hf).symm⟩

/-! ### The check a command faults at -/

/-- Where some element is reported by a check, the search over the list reports one of them. -/
theorem exists_findSome?_eq_some {α β : Type} {c : α → Option β} {l : List α} (h : ∃ x ∈ l, c x ≠ none) :
    ∃ x ∈ l, ∃ f, c x = some f ∧ l.findSome? c = some f := by
  obtain ⟨x, hx, hne⟩ := h
  obtain ⟨f, hf⟩ := Option.ne_none_iff_exists'.1 fun hn => hne (List.findSome?_eq_none_iff.1 hn x hx)
  obtain ⟨y, hy, hcy⟩ := List.exists_of_findSome?_eq_some hf
  exact ⟨y, hy, f, hcy, hf⟩

section
variable {i : Instr} {s : State} {f : Fault}

/-- What the context check reports is the command's fault: it comes first (R133). -/
theorem exec_of_contextViolation (h : contextViolation i s = some f) : exec i s = .fault f := by
  by_cases hi : ∃ c, i = .dclr c
  · obtain ⟨c, rfl⟩ := hi
    simp only [exec, execDclr, h]
  · rw [exec_eq_runCommand (not_exists.1 hi)]
    simp only [runCommand, h]

/-- What the operand checks report is the command's fault, once its context exists and `CNT >= 1` (R133). -/
theorem exec_of_operandViolation (hw : i.wellFormed s.dither.length = true) (h0 : s.cnt ≠ 0)
    (h : operandViolation s.owned s.cnt.toNat (streamsOf i s) = some f) : exec i s = .fault f := by
  have hi : ∀ c, i ≠ .dclr c := by
    rintro c rfl
    cases h
  rw [exec_eq_runCommand hi, runCommand, contextViolation_eq_none.2 hw]
  simp only [if_neg h0, h]

/-- The stride check comes first. -/
theorem exec_of_strideViolation (hw : i.wellFormed s.dither.length = true) (h0 : s.cnt ≠ 0)
    (h : (streamsOf i s).findSome? strideViolation = some f) : exec i s = .fault f :=
  exec_of_operandViolation hw h0 (by simp [operandViolation, h])

/-- With legal strides a stream's alignment is reported. -/
theorem exec_of_alignViolation (hw : i.wellFormed s.dither.length = true) (h0 : s.cnt ≠ 0)
    (hstride : ∀ st ∈ streamsOf i s, strideViolation st = none)
    (h : ∃ st ∈ streamsOf i s, alignViolation st ≠ none) :
    ∃ st ∈ streamsOf i s, ∃ f, alignViolation st = some f ∧ exec i s = .fault f := by
  obtain ⟨st, hst, f, hf, hfind⟩ := exists_findSome?_eq_some h
  exact ⟨st, hst, f, hf, exec_of_operandViolation hw h0 (by
    simp only [operandViolation, List.findSome?_eq_none_iff.2 hstride, hfind, Option.none_or, Option.some_or])⟩

/-- With legal, aligned streams an address beyond 2^32 is reported. -/
theorem exec_of_wrapViolation (hw : i.wellFormed s.dither.length = true) (h0 : s.cnt ≠ 0)
    (hstride : ∀ st ∈ streamsOf i s, strideViolation st = none)
    (halign : ∀ st ∈ streamsOf i s, alignViolation st = none)
    (h : ∃ st ∈ streamsOf i s, wrapViolation s.cnt.toNat st ≠ none) :
    ∃ st ∈ streamsOf i s, ∃ f, wrapViolation s.cnt.toNat st = some f ∧ exec i s = .fault f := by
  obtain ⟨st, hst, f, hf, hfind⟩ := exists_findSome?_eq_some h
  exact ⟨st, hst, f, hf, exec_of_operandViolation hw h0 (by
    simp only [operandViolation, List.findSome?_eq_none_iff.2 hstride, List.findSome?_eq_none_iff.2 halign,
      hfind, Option.none_or, Option.some_or])⟩

/-- Where all other checks pass a foreign byte is reported. -/
theorem exec_of_extentViolation (hw : i.wellFormed s.dither.length = true) (h0 : s.cnt ≠ 0)
    (hstride : ∀ st ∈ streamsOf i s, strideViolation st = none)
    (halign : ∀ st ∈ streamsOf i s, alignViolation st = none)
    (hwrap : ∀ st ∈ streamsOf i s, wrapViolation s.cnt.toNat st = none)
    (h : ∃ st ∈ streamsOf i s, extentViolation s.owned s.cnt.toNat st ≠ none) :
    ∃ st ∈ streamsOf i s, ∃ f, extentViolation s.owned s.cnt.toNat st = some f ∧ exec i s = .fault f := by
  obtain ⟨st, hst, f, hf, hfind⟩ := exists_findSome?_eq_some h
  exact ⟨st, hst, f, hf, exec_of_operandViolation hw h0 (by
    simp only [operandViolation, List.findSome?_eq_none_iff.2 hstride, List.findSome?_eq_none_iff.2 halign,
      List.findSome?_eq_none_iff.2 hwrap, hfind, Option.none_or])⟩

/-- The stride check names the source stream first (R173): a stream's stride is reported unless that of a source
stream before it is. -/
theorem findSome?_strideViolation {st : Stream} (hst : st ∈ streamsOf i s) (hf : strideViolation st = some f)
    (hsrc : st.which = .source ∨ ∀ a ∈ streamsOf i s, a.which = .source → strideViolation a = none) :
    (streamsOf i s).findSome? strideViolation = some f := by
  obtain ⟨src, d, heq, hsource, hdest, -⟩ := streamsOf_eq_append (ne_dclr_of_mem_streamsOf hst) s
  rw [heq] at hst hsrc ⊢
  obtain hmem | hmem := List.mem_append.1 hst
  · rw [Option.mem_toList] at hmem
    simp [hmem, hf]
  · obtain rfl : st = d := List.mem_singleton.1 hmem
    have hnone : src.toList.findSome? strideViolation = none := List.findSome?_eq_none_iff.2 fun a ha => by
      obtain h | h := hsrc
      · rw [hdest] at h
        cases h
      · exact h a (List.mem_append_left _ ha) (hsource a (Option.mem_toList.1 ha))
    simp [List.findSome?_append, hnone, hf]

/-- With `CNT = 0` only the context is checked (R133, step 3). -/
theorem contextViolation_of_exec_fault (h0 : s.cnt = 0) (h : exec i s = .fault f) :
    contextViolation i s = some f := by
  by_cases hi : ∃ c, i = .dclr c
  · obtain ⟨c, rfl⟩ := hi
    simp only [exec, execDclr] at h
    split at h
    · next hc => cases h; exact hc
    · cases h
  · rw [exec_eq_runCommand (not_exists.1 hi), runCommand, if_pos h0] at h
    split at h
    · next hc => cases h; exact hc
    · cases h

/-- The context check reports nothing but `BadContext` (R65). -/
theorem contextViolation_eq_some (h : contextViolation i s = some f) : ∃ c, f = .badContext c := by
  unfold contextViolation at h
  split at h
  · cases h
  · next c _ =>
    split at h
    · cases h
    · exact ⟨c, (Option.some.inj h).symm⟩

end

/-- Every element of a legal stream stands at a multiple of its width (R46). -/
theorem element_mod_width {i : Instr} {s : State} {st : Stream} (hst : st ∈ streamsOf i s)
    (hl : StreamLegal s.owned s.cnt.toNat st) (k : Nat) : st.element k % st.width = 0 := by
  obtain ⟨-, hbase, hstride, -⟩ := hl
  obtain ⟨-, hfixed⟩ := width_pos_and_stride_of_mem_streamsOf hst
  have hmod : st.width ∣ st.stride := by
    cases hr : st.fromRegister with
    | true => exact Nat.dvd_of_mod_eq_zero (hstride hr)
    | false => rw [hfixed hr]
  exact Nat.mod_eq_zero_of_dvd ((Nat.dvd_of_mod_eq_zero hbase).add (hmod.mul_left k))

end Sys2Proof.Machine
end

