-- ==== Sys2Proof/Proofs/OtherAgents.lean ====
section
/-! SUPPORT. What other agents do while a command runs (R54, R180): which actions conflict with it, in terms of the
bytes of its elements, and what the step makes of an action that does and of one that does not. -/

namespace Sys2Proof.Machine

theorem Stream.covers_eq_true {st : Stream} {cnt a : Nat} :
    st.covers cnt a = true ↔ ∃ k < cnt, st.element k ≤ a ∧ a < st.element k + st.width := by
  simp [Stream.covers]

theorem Stream.covers_eq_false {st : Stream} {cnt a : Nat} :
    st.covers cnt a = false ↔ ∀ k < cnt, a < st.element k ∨ st.element k + st.width ≤ a := by
  rw [← Bool.not_eq_true, Stream.covers_eq_true]
  simp only [not_exists, not_and, not_lt]
  exact forall₂_congr fun k _ => by omega

/-! ### Which actions conflict -/

/-- The action is one that R54 forbids on every stream: a read by an agent that is no SFC, or a write, of the byte
at `a`. -/
def Touches (o : Overlap) (a : Word) : Prop := o = .memRead a ∨ ∃ v, o = .memWrite a v

/-- Such an action conflicts with every stream (R54). -/
theorem conflicts_of_touches {i : Instr} {s : State} {o : Overlap} {a : Word} (h : Touches o a) :
    conflicts i s o = (streamsOf i s).any fun st => st.covers s.cnt.toNat a.toNat := by
  obtain rfl | ⟨v, rfl⟩ := h <;> rfl

theorem conflicts_touches_eq_true {i : Instr} {s : State} {o : Overlap} {a : Word} (h : Touches o a) :
    conflicts i s o = true ↔ ∃ st ∈ streamsOf i s, ∃ k < s.cnt.toNat,
      st.element k ≤ a.toNat ∧ a.toNat < st.element k + st.width := by
  simp only [conflicts_of_touches h, List.any_eq_true, Stream.covers_eq_true]

theorem conflicts_touches_eq_false {i : Instr} {s : State} {o : Overlap} {a : Word} (h : Touches o a) :
    conflicts i s o = false ↔ ∀ st ∈ streamsOf i s, ∀ k < s.cnt.toNat,
      a.toNat < st.element k ∨ st.element k + st.width ≤ a.toNat := by
  simp only [conflicts_of_touches h, List.any_eq_false, Bool.not_eq_true, Stream.covers_eq_false]

/-- A read by another SFC conflicts with the destination only (R180). -/
theorem conflicts_instanceRead {i : Instr} {s : State} {a : Word} :
    conflicts i s (.instanceRead a) = true ↔ ∃ k < s.cnt.toNat,
      destElement i s k ≤ a.toNat ∧ a.toNat < destElement i s k + destWidth i := by
  by_cases hi : ∃ c, i = .dclr c
  · obtain ⟨c, rfl⟩ := hi
    refine iff_of_false (by simp [conflicts, streamsOf]) ?_
    rintro ⟨k, -, hle, hlt⟩
    simp only [destWidth, Nat.add_zero] at hlt
    omega
  · obtain ⟨src, d, heq, hsource, hdest, hwidth, helement⟩ := streamsOf_eq_append (not_exists.1 hi) s
    have hsrc : (src.toList.any fun st => decide (st.which = .destination) && st.covers s.cnt.toNat a.toNat)
        = false := List.any_eq_false.2 fun st hst => by simp [hsource st (Option.mem_toList.1 hst)]
    simp only [conflicts, heq, List.any_append, hsrc, List.any_cons, List.any_nil, hdest, decide_true,
      Bool.true_and, Bool.or_false, Bool.false_or, Stream.covers_eq_true, hwidth, helement]

theorem conflicts_instanceRead_eq_false {i : Instr} {s : State} {a : Word} :
    conflicts i s (.instanceRead a) = false ↔ Unstored i s a.toNat := by
  rw [← Bool.not_eq_true, conflicts_instanceRead]
  simp only [not_exists, not_and, not_lt]
  exact forall₂_congr fun k _ => by omega

/-- Another command conflicts on the context in use, which a command over streams has with `CNT >= 1` only (R173). -/
theorem conflicts_context {i : Instr} {s : State} {x : CtxNum} :
    conflicts i s (.context x) = true ↔ usedContext i = some x ∧ (s.cnt ≠ 0 ∨ i = .dclr x) := by
  simp only [conflicts, decide_eq_true_eq, contextInUse_eq_some, streamsOf_eq_nil]
  refine and_congr_right fun hu => imp_iff_not_or.trans (or_congr_right ⟨?_, fun h => ⟨x, h⟩⟩)
  rintro ⟨c, rfl⟩
  rw [Option.some.inj hu]

theorem conflicts_context_eq_false {i : Instr} {s : State} {x : CtxNum} :
    conflicts i s (.context x) = false ↔ usedContext i ≠ some x ∨ (s.cnt = 0 ∧ i ≠ .dclr x) := by
  rw [← Bool.not_eq_true, conflicts_context]
  tauto

/-! ### What the step makes of an action -/

section
variable {s t : State} {c : Word} {i : Instr} {o : Overlap}

/-- A command that completes and that an action conflicts with is the violation `ConcurrentAccess`. -/
theorem step_of_conflict (hc : s.cmd = some c) (hd : decode c = .ok i) (hr : Overlap.reset ∉ s.during)
    (ht : exec i s.retire = .next t) (ho : o ∈ s.during) (hconf : conflicts i s o = true) :
    step s = .fault .concurrentAccess := by
  rw [step_cmd hc, issue_of_decode hd hr]
  exact runIssued_conflict ht (List.any_eq_true.2 ⟨o, ho, hconf⟩)

/-- With one action that does not conflict, the command is followed by what the action leaves behind. -/
theorem step_of_no_conflict (hc : s.cmd = some c) (hd : decode c = .ok i) (ht : exec i s.retire = .next t)
    (hdur : s.during = [o]) (hr : o ≠ .reset) (hconf : conflicts i s o = false) :
    step s = .next (applyOverlap t o) := by
  rw [step_cmd hc, issue_of_decode hd (by simpa [hdur] using hr.symm)]
  exact runIssued_eq_next.2 ⟨t, ht, by simpa [hdur] using hconf, by simp [hdur]⟩

end

end Sys2Proof.Machine
end

