-- ==== Sys2Proof/Proofs/ForeignBytes.lean ====
section
/-! SUPPORT. Which bytes of `MEM` a command reads and writes (R48, R49). One run keeps every byte outside its
destination elements. Two runs whose memories agree on `Owned` stay in step: every element lies in `Owned`, so it
loads the same values in both and stores the same value in both. -/

namespace Sys2Proof.Machine

/-! ### One run: what a store leaves alone -/

/-- A byte outside the stored element reads as before, and memory stays canonical. -/
theorem StoresOne.readByte_eq {a w b : Nat} {s t : State} (h : StoresOne a w s t)
    (ha : a + w ≤ Config.addressSpace) (hm : Memory.wf s.mem = true) (hb : b < a ∨ a + w ≤ b) :
    Memory.wf t.mem = true ∧ Memory.readByte t.mem b = Memory.readByte s.mem b := by
  obtain ⟨u, v, rfl, -, hu⟩ := h
  have hmem : u.mem = s.mem := by rw [hu]
  rw [State.store_mem, hmem]
  exact ⟨Memory.write_wf ha hm, Memory.readByte_write_outside ha hm hb⟩

/-- A command keeps every byte outside its destination elements. -/
theorem exec_readByte_of_unstored {i : Instr} {s t : State} {a : Nat} (hm : Memory.wf s.mem = true)
    (h : exec i s = .next t) (ha : Unstored i s a) : Memory.readByte t.mem a = Memory.readByte s.mem a := by
  obtain ⟨c, -, -, rfl⟩ | ⟨hi, hl, hloop⟩ := exec_next_cases h
  · rfl
  · have hkept := forElements_keeps
      (P := fun _ u => KeepsFrame s u ∧ Memory.wf u.mem = true ∧
        Memory.readByte u.mem a = Memory.readByte s.mem a)
      ⟨KeepsFrame.refl s, hm, rfl⟩ (fun k u v _ hk ⟨hf, hwf, hread⟩ hv => ?_) hloop
    · obtain ⟨-, -, hread⟩ := hkept
      exact hread
    · have hstore := elementOf_storesOne hv
      rw [hf.destElement_eq] at hstore
      obtain ⟨hwf', hread'⟩ := hstore.readByte_eq (destElement_le_of_legal hi hl (by omega)) hwf (ha k (by omega))
      exact ⟨hf.trans hstore.keepsFrame, hwf', hread'.trans hread⟩

/-! ### Two runs: results in step -/

/-- Two results in step: next states related by `R`, or the same fault, or the same refusal. -/
inductive SameAnswer (R : State → State → Prop) : Result → Result → Prop where
  | next {t t' : State} (h : R t t') : SameAnswer R (.next t) (.next t')
  | fault (f : Fault) : SameAnswer R (.fault f) (.fault f)
  | refused (r : Refusal) : SameAnswer R (.refused r) (.refused r)

theorem SameAnswer.andThen {R : State → State → Prop} {r r' : Result} {f f' : State → Result}
    (h : SameAnswer R r r') (hf : ∀ t t', R t t' → SameAnswer R (f t) (f' t')) :
    SameAnswer R (andThen r f) (andThen r' f') := by
  cases h with
  | next ht => exact hf _ _ ht
  | fault e => exact .fault e
  | refused e => exact .refused e

theorem SameAnswer.of_next {R : State → State → Prop} {r : Result} {t : State} (h : SameAnswer R (.next t) r) :
    ∃ t', r = .next t' ∧ R t t' := by
  cases h with
  | next ht => exact ⟨_, rfl, ht⟩

theorem SameAnswer.of_fault {R : State → State → Prop} {r : Result} {f : Fault}
    (h : SameAnswer R (.fault f) r) : r = .fault f := by
  cases h with
  | fault => rfl

/-- Two states that every element keeps in step, the loop keeps in step. -/
theorem forElements_sameAnswer {R : State → State → Prop} {el : Nat → State → Result} {n i : Nat}
    (hel : ∀ k u u', i ≤ k → k < i + n → R u u' → SameAnswer R (el k u) (el k u')) {s s' : State} (hs : R s s') :
    SameAnswer R (forElements el n i s) (forElements el n i s') := by
  induction n generalizing i s s' with
  | zero => exact .next hs
  | succ n ih =>
    exact (hel i s s' le_rfl (by omega) hs).andThen fun t t' ht =>
      ih (fun k u u' h₁ h₂ => hel k u u' (by omega) (by omega)) ht

/-! ### Two runs: memories that agree on `Owned` -/

/-- An element of `w` bytes at `a` in the address space, all of it in `Owned`. -/
def OwnedElement (owned : List Extent) (a w : Nat) : Prop :=
  a + w ≤ Config.addressSpace ∧ ∀ j < w, ownedByte owned (a + j) = true

/-- The states `u` and `u'` that two runs of a command have come to, the one from `s` and the other from `s` with the
memory `m`: they differ in memory only, agree on the bytes in `Owned`, and hold every other byte as at the start. -/
structure InStep (s : State) (m : Memory) (u u' : State) : Prop where
  frame : KeepsFrame s u
  same : u' = { u with mem := u'.mem }
  wf : Memory.wf u.mem = true
  wf' : Memory.wf u'.mem = true
  agree : ∀ a, ownedByte s.owned a = true → Memory.readByte u'.mem a = Memory.readByte u.mem a
  kept : ∀ a, ownedByte s.owned a = false →
    Memory.readByte u.mem a = Memory.readByte s.mem a ∧ Memory.readByte u'.mem a = Memory.readByte m a

section
variable {s : State} {m : Memory} {u u' : State} {a w v : Nat}

/-- An element in `Owned` loads the same value in both runs. -/
theorem InStep.load_eq (h : InStep s m u u') (ha : OwnedElement s.owned a w) : u'.load a w = u.load a w :=
  Memory.read_congr fun j hj => h.agree _ (ha.2 j hj)

/-- The same value stored at an element in `Owned` keeps the runs in step. -/
theorem InStep.store (h : InStep s m u u') (ha : OwnedElement s.owned a w) :
    InStep s m (u.store a w v) (u'.store a w v) := by
  obtain ⟨hle, hown⟩ := ha
  have outside : ∀ b, ownedByte s.owned b = false → b < a ∨ a + w ≤ b := fun b hb => by
    by_contra hin
    have hj := hown (b - a) (by omega)
    rw [Nat.add_sub_cancel' (by omega), hb] at hj
    cases hj
  refine ⟨h.frame.trans rfl, ?_, Memory.write_wf hle h.wf, Memory.write_wf hle h.wf', fun b hb => ?_,
    fun b hb => ?_⟩
  · rw [h.same]
    rfl
  · by_cases hin : b < a ∨ a + w ≤ b
    · simp only [State.store_mem, Memory.readByte_write_outside hle h.wf hin,
        Memory.readByte_write_outside hle h.wf' hin, h.agree b hb]
    · obtain ⟨j, rfl⟩ := Nat.exists_eq_add_of_le (show a ≤ b by omega)
      simp only [State.store_mem, Memory.readByte_write_inside hle h.wf (show j < w by omega),
        Memory.readByte_write_inside hle h.wf' (show j < w by omega)]
  · simp only [State.store_mem, Memory.readByte_write_outside hle h.wf (outside b hb),
      Memory.readByte_write_outside hle h.wf' (outside b hb)]
    exact h.kept b hb

/-- Moving the contexts and the draw index alike keeps the runs in step. -/
theorem InStep.withContexts (h : InStep s m u u') (ds : List DitherCtx) (n : Nat) :
    InStep s m { u with dither := ds, rndIdx := n } { u' with dither := ds, rndIdx := n } :=
  ⟨h.frame.trans rfl, by rw [h.same], h.wf, h.wf', h.agree, h.kept⟩

/-! ### Two runs: elements -/

/-- The sample of an element in `Owned` is scaled alike in both runs. -/
theorem InStep.scaledSample_eq (h : InStep s m u u') {k : Nat} (ha : OwnedElement s.owned (srcFixed 4 u k) 4)
    (kk : Container) : scaledSample kk k u' = scaledSample kk k u := by
  have hsrc : srcFixed 4 u' k = srcFixed 4 u k := by rw [h.same]; rfl
  simp only [scaledSample, loadSample, hsrc, h.load_eq ha]

theorem InStep.drawn (h : InStep s m u u') : InStep s m u.drawn u'.drawn := by
  have hu' : u'.drawn = { u' with dither := u.dither, rndIdx := u.rndIdx + 1 } := by rw [h.same]; rfl
  rw [hu']
  exact h.withContexts u.dither (u.rndIdx + 1)

theorem InStep.setContext (h : InStep s m u u') (c : CtxNum) (d : DitherCtx) :
    InStep s m (u.setContext c d) (u'.setContext c d) := by
  have hu' : u'.setContext c d = { u' with dither := u.dither.set c.toNat d, rndIdx := u.rndIdx } := by
    rw [h.same]; rfl
  rw [hu']
  exact h.withContexts (u.dither.set c.toNat d) u.rndIdx

/-- `QUANT` does not look at memory: it answers nothing in both runs, or the same value and states in step (R108). -/
theorem InStep.quantise (h : InStep s m u u') (md : DitherMode) (c : CtxNum) (x : Word) :
    (quantise md c x u = none ∧ quantise md c x u' = none) ∨
    ∃ y t t', quantise md c x u = some (y, t) ∧ quantise md c x u' = some (y, t') ∧ InStep s m t t' := by
  have hdraw : u'.nextDraw = u.nextDraw := by rw [h.same]; rfl
  have hctx : u'.context c = u.context c := by rw [h.same]; rfl
  cases md with
  | none => exact .inr ⟨_, u, u', rfl, rfl, h⟩
  | rect =>
    simp only [Machine.quantise, hdraw]
    cases quantRect x u.nextDraw with
    | none => exact .inl ⟨rfl, rfl⟩
    | some y => exact .inr ⟨y, _, _, rfl, rfl, h.drawn⟩
  | tri =>
    simp only [Machine.quantise, hdraw, hctx]
    cases quantTri x u.nextDraw (u.context c) with
    | none => exact .inl ⟨rfl, rfl⟩
    | some p => exact .inr ⟨p.1, _, _, rfl, rfl, h.drawn.setContext c p.2⟩
  | shp =>
    simp only [Machine.quantise, hdraw, hctx]
    cases quantShp x u.nextDraw (u.context c) with
    | none => exact .inl ⟨rfl, rfl⟩
    | some p => exact .inr ⟨p.1, _, _, rfl, rfl, h.drawn.setContext c p.2⟩

end

/-! ### Two runs: each command's element -/

section
variable {s : State} {m : Memory} {u u' : State} {a a' w v v' k : Nat}

theorem InStep.srcFixed_eq (h : InStep s m u u') : srcFixed w u' k = srcFixed w u k := by rw [h.same]; rfl

theorem InStep.srcStrided_eq (h : InStep s m u u') : srcStrided u' k = srcStrided u k := by rw [h.same]; rfl

theorem InStep.dstFixed_eq (h : InStep s m u u') : dstFixed w u' k = dstFixed w u k := by rw [h.same]; rfl

theorem InStep.dstStrided_eq (h : InStep s m u u') : dstStrided u' k = dstStrided u k := by rw [h.same]; rfl

/-- Storing equal values at equal addresses is the same answer. -/
theorem InStep.store_sameAnswer (h : InStep s m u u') (hown : OwnedElement s.owned a w) (ha : a' = a)
    (hv : v' = v) : SameAnswer (InStep s m) (.next (u.store a w v)) (.next (u'.store a' w v')) := by
  subst ha hv
  exact .next (h.store hown)

theorem InStep.convertElement (h : InStep s m u u') (kk : Container) (md : DitherMode) (c : CtxNum)
    (hsrc : OwnedElement s.owned (srcFixed 4 u k) 4)
    (hdst : OwnedElement s.owned (dstStrided u k) (Container.bytes kk)) :
    SameAnswer (InStep s m) (convertElement kk md c k u) (convertElement kk md c k u') := by
  simp only [Machine.convertElement, h.scaledSample_eq hsrc]
  cases scaledSample kk k u with
  | none => exact .fault _
  | some x =>
    obtain ⟨hq, hq'⟩ | ⟨y, t, t', hq, hq', ht⟩ := h.quantise md c x
    · simp only [hq, hq']
      exact .fault _
    · simp only [hq, hq']
      exact ht.store_sameAnswer hdst h.dstStrided_eq rfl

theorem InStep.mergeElement16 (h : InStep s m u u') (hsrc : OwnedElement s.owned (srcFixed 4 u k) 4)
    (hdst : OwnedElement s.owned (dstStrided u k) 2) :
    SameAnswer (InStep s m) (mergeElement16 k u) (mergeElement16 k u') := by
  simp only [Machine.mergeElement16, h.scaledSample_eq hsrc, h.dstStrided_eq, h.load_eq hdst]
  cases scaledSample .int16 k u with
  | none => exact .fault _
  | some x => exact .next (h.store hdst)

theorem InStep.mergeElement24 (h : InStep s m u u') (hsrc : OwnedElement s.owned (srcFixed 4 u k) 4)
    (hdst : OwnedElement s.owned (dstStrided u k) 4) :
    SameAnswer (InStep s m) (mergeElement24 k u) (mergeElement24 k u') := by
  simp only [Machine.mergeElement24, h.scaledSample_eq hsrc, h.dstStrided_eq, h.load_eq hdst]
  cases scaledSample .int24 k u with
  | none => exact .fault _
  | some x => exact .next (h.store hdst)

theorem InStep.floatElement16 (h : InStep s m u u') (hsrc : OwnedElement s.owned (srcStrided u k) 2)
    (hdst : OwnedElement s.owned (dstFixed 4 u k) 4) :
    SameAnswer (InStep s m) (floatElement16 k u) (floatElement16 k u') :=
  h.store_sameAnswer hdst h.dstFixed_eq (by rw [h.srcStrided_eq, h.load_eq hsrc])

theorem InStep.floatElement24 (h : InStep s m u u') (hsrc : OwnedElement s.owned (srcStrided u k) 4)
    (hdst : OwnedElement s.owned (dstFixed 4 u k) 4) :
    SameAnswer (InStep s m) (floatElement24 k u) (floatElement24 k u') :=
  h.store_sameAnswer hdst h.dstFixed_eq (by rw [h.srcStrided_eq, h.load_eq hsrc])

theorem InStep.fillElement (h : InStep s m u u') (hdst : OwnedElement s.owned (dstStrided u k) w) :
    SameAnswer (InStep s m) (fillElement w k u) (fillElement w k u') :=
  h.store_sameAnswer hdst h.dstStrided_eq (by rw [h.same])

theorem InStep.copyElement (h : InStep s m u u') (hsrc : OwnedElement s.owned (srcStrided u k) w)
    (hdst : OwnedElement s.owned (dstStrided u k) w) :
    SameAnswer (InStep s m) (copyElement w k u) (copyElement w k u') :=
  h.store_sameAnswer hdst h.dstStrided_eq (by rw [h.srcStrided_eq, h.load_eq hsrc])

theorem InStep.mergeCopyStrided (h : InStep s m u u') (hsrc : OwnedElement s.owned (srcStrided u k) w)
    (hdst : OwnedElement s.owned (dstStrided u k) w) :
    SameAnswer (InStep s m) (mergeCopyStrided w k u) (mergeCopyStrided w k u') :=
  h.store_sameAnswer hdst h.dstStrided_eq
    (by rw [h.srcStrided_eq, h.dstStrided_eq, h.load_eq hsrc, h.load_eq hdst])

theorem InStep.mergeCopyFixed (h : InStep s m u u') (hsrc : OwnedElement s.owned (srcFixed w u k) w)
    (hdst : OwnedElement s.owned (dstFixed w u k) w) :
    SameAnswer (InStep s m) (mergeCopyFixed w k u) (mergeCopyFixed w k u') :=
  h.store_sameAnswer hdst h.dstFixed_eq
    (by rw [h.srcFixed_eq, h.dstFixed_eq, h.load_eq hsrc, h.load_eq hdst])

end

/-- Element `k` of every stream of the command lies in `Owned`. -/
def OwnedStreams (owned : List Extent) (i : Instr) (u : State) (k : Nat) : Prop :=
  ∀ st ∈ streamsOf i u, OwnedElement owned (st.element k) st.width

section
variable {owned : List Extent} {i : Instr} {u : State} {k w : Nat}

theorem OwnedStreams.srcFixed (h : OwnedStreams owned i u k) (hst : fixedSource u w ∈ streamsOf i u) :
    OwnedElement owned (srcFixed w u k) w := by
  rw [Machine.srcFixed, Nat.mul_comm]
  exact h _ hst

theorem OwnedStreams.srcStrided (h : OwnedStreams owned i u k) (hst : stridedSource u w ∈ streamsOf i u) :
    OwnedElement owned (srcStrided u k) w :=
  h _ hst

/-- The destination element too; that of `DCLR` is empty. -/
theorem OwnedStreams.dest (h : OwnedStreams owned i u k) :
    OwnedElement owned (destElement i u k) (destWidth i) := by
  by_cases hi : ∃ c, i = .dclr c
  · obtain ⟨c, rfl⟩ := hi
    exact ⟨Nat.zero_le _, fun j hj => absurd hj (Nat.not_lt_zero j)⟩
  · obtain ⟨st, hst, hw, he⟩ := exists_stream_destElement (not_exists.1 hi) u
    rw [← hw, ← he k]
    exact h st hst

end

/-- The element of every command keeps two runs in step, if its streams lie in `Owned`. -/
theorem InStep.elementOf {s : State} {m : Memory} {u u' : State} {i : Instr} {k : Nat} (h : InStep s m u u')
    (hown : OwnedStreams s.owned i u k) : SameAnswer (InStep s m) (elementOf i k u) (elementOf i k u') := by
  have hdst := hown.dest
  cases i with
  | f2i16 c => exact h.convertElement .int16 .none c (hown.srcFixed (by simp [streamsOf])) hdst
  | f2i24 c => exact h.convertElement .int24 .none c (hown.srcFixed (by simp [streamsOf])) hdst
  | f2i16Rect c | f2i24Rect c | f2i16Tri c | f2i24Tri c | f2i16Shp c | f2i24Shp c =>
    exact h.convertElement _ _ c (hown.srcFixed (by simp [streamsOf])) hdst
  | fmrg16 => exact h.mergeElement16 (hown.srcFixed (by simp [streamsOf])) hdst
  | fmrg24 => exact h.mergeElement24 (hown.srcFixed (by simp [streamsOf])) hdst
  | i2f16 => exact h.floatElement16 (hown.srcStrided (by simp [streamsOf])) hdst
  | i2f24 => exact h.floatElement24 (hown.srcStrided (by simp [streamsOf])) hdst
  | fill8 | fill16 | fill32 => exact h.fillElement hdst
  | cpy16 | cpy32 => exact h.copyElement (hown.srcStrided (by simp [streamsOf])) hdst
  | mcpy16 | mcpy32 => exact h.mergeCopyStrided (hown.srcStrided (by simp [streamsOf])) hdst
  | mcpyc16 | mcpyc32 => exact h.mergeCopyFixed (hown.srcFixed (by simp [streamsOf])) hdst
  | dclr c => exact .next h

/-! ### Two runs: whole commands -/

/-- The streams stand where the operand registers say, which no command changes. -/
theorem KeepsFrame.streamsOf_eq {s u : State} (h : KeepsFrame s u) (i : Instr) : streamsOf i u = streamsOf i s := by
  rw [h]
  cases i <;> rfl

/-- Every element of a legal command lies in `Owned` (R48), wherever the command stands. -/
theorem ownedStreams_of_legal {i : Instr} {s u : State} {k : Nat} (h : Legal i s) (hf : KeepsFrame s u)
    (hk : k < s.cnt.toNat) : OwnedStreams s.owned i u k := by
  intro st hst
  rw [hf.streamsOf_eq] at hst
  have hl := h.2 (count_toNat_ne_zero.2 (by omega)) st hst
  refine ⟨element_le_of_streamLegal hl hk, ?_⟩
  obtain ⟨-, -, -, -, hown⟩ := hl
  exact hown k hk

/-- The two runs start in step. -/
theorem InStep.start {s : State} {m : Memory} (hs : Memory.wf s.mem = true) (hm : Memory.wf m = true)
    (hagree : ∀ a, ownedByte s.owned a = true → Memory.readByte m a = Memory.readByte s.mem a) :
    InStep s m s { s with mem := m } :=
  ⟨KeepsFrame.refl s, rfl, hs, hm, hagree, fun _ _ => ⟨rfl, rfl⟩⟩

/-- A command started in step ends in step: the checks do not look at memory, and the elements lie in `Owned`. -/
theorem exec_sameAnswer {i : Instr} {s : State} {m : Memory} (h : InStep s m s { s with mem := m }) :
    SameAnswer (InStep s m) (exec i s) (exec i { s with mem := m }) := by
  have hstreams : streamsOf i { s with mem := m } = streamsOf i s := by cases i <;> rfl
  by_cases hl : Legal i s
  · have hl' : Legal i { s with mem := m } := ⟨hl.1, fun h0 => hstreams ▸ hl.2 h0⟩
    by_cases hi : ∃ c, i = .dclr c
    · obtain ⟨c, rfl⟩ := hi
      rw [exec_dclr (lt_length_of_wellFormed hl.1 rfl), exec_dclr (lt_length_of_wellFormed hl'.1 rfl)]
      exact .next (h.setContext c _)
    · rw [exec_legal (not_exists.1 hi) hl, exec_legal (not_exists.1 hi) hl']
      exact forElements_sameAnswer (fun k u u' _ hk hu =>
        hu.elementOf (ownedStreams_of_legal hl hu.frame (by omega))) h
  · obtain ⟨f, -, hc | ⟨hc, h0, ho⟩⟩ := runCommand_illegal (el := elementOf i) hl
    · rw [exec_of_contextViolation hc, exec_of_contextViolation (s := { s with mem := m }) hc]
      exact .fault f
    · have hw := contextViolation_eq_none.1 hc
      rw [exec_of_operandViolation hw h0 ho,
        exec_of_operandViolation (s := { s with mem := m }) hw h0 (by rw [hstreams]; exact ho)]
      exact .fault f

end Sys2Proof.Machine
end

