-- ==== Sys2Proof/Proofs/MemoryFamily.lean ====
section
/-! The statements about memory (20_memory.md), each a short use of the lemmas above. -/

namespace Sys2Proof.Machine

/-- Settles O44: the two runs stay in step, element by element, because every element of a legal command lies in
`Owned`. -/
theorem foreignBytesAreNeitherReadNorWritten : Obligations.ForeignBytesAreNeitherReadNorWritten := by
  intro i s m hs hm hagree
  have hsame := exec_sameAnswer (i := i) (InStep.start hs hm hagree)
  refine ⟨fun t ht => ?_, fun f hf => ?_⟩
  · rw [ht] at hsame
    obtain ⟨t', ht', h⟩ := hsame.of_next
    exact ⟨t', ht', h.same, fun a => ⟨h.agree a, h.kept a⟩⟩
  · rw [hf] at hsame
    exact hsame.of_fault

/-- Settles O14: which actions conflict, and what the step makes of one that does and of one that does not. -/
theorem concurrentAccessFaults : Obligations.ConcurrentAccessFaults := by
  refine ⟨fun s t c i o hc hd hr ht ho hcases => step_of_conflict hc hd hr ht ho ?_,
    fun s t c i a v hc hd ht hdur hfree => step_of_no_conflict hc hd ht hdur nofun
      ((conflicts_touches_eq_false (.inr ⟨v, rfl⟩)).2 hfree),
    fun s t c i o hc hd ht hdur hcases => ?_⟩
  · obtain ⟨a, ha, hin⟩ | ⟨a, rfl, hin⟩ | ⟨x, rfl, hin⟩ := hcases
    · exact (conflicts_touches_eq_true ha).2 hin
    · exact conflicts_instanceRead.2 hin
    · exact conflicts_context.2 hin
  · obtain ⟨a, rfl, hfree⟩ | ⟨a, rfl, hfree⟩ | ⟨x, rfl, hfree⟩ := hcases
    · exact step_of_no_conflict hc hd ht hdur nofun ((conflicts_touches_eq_false (.inl rfl)).2 hfree)
    · exact step_of_no_conflict hc hd ht hdur nofun (conflicts_instanceRead_eq_false.2 hfree)
    · exact step_of_no_conflict hc hd ht hdur nofun (conflicts_context_eq_false.2 hfree)

/-- Settles O17: the stride check is the first of the operand checks and looks at the source stream first; an element
has at least one byte, so a stride of 0 is too small. -/
theorem smallStrideFaults : Obligations.SmallStrideFaults := by
  refine ⟨fun i s st hw h0 hst hreg hlt hsrc => ?_, fun i s st hw h0 hst hreg hzero => ?_,
    fun i s which stride h0 h => ?_⟩
  · have hf := strideViolation_eq_some.2 ⟨hreg, hlt, rfl⟩
    exact exec_of_strideViolation hw h0 (findSome?_strideViolation hst hf
      (hsrc.imp_right fun h a ha hwhich => strideViolation_eq_none.2 (h a ha hwhich)))
  · obtain ⟨hpos, -⟩ := width_pos_and_stride_of_mem_streamsOf hst
    have hf := strideViolation_eq_some.2 ⟨hreg, by omega, rfl⟩
    obtain ⟨a, -, f, hfa, hfind⟩ := exists_findSome?_eq_some (c := strideViolation) ⟨st, hst, by simp [hf]⟩
    obtain ⟨-, -, rfl⟩ := strideViolation_eq_some.1 hfa
    exact ⟨a.which, a.stride, exec_of_strideViolation hw h0 hfind⟩
  · obtain ⟨c, hc⟩ := contextViolation_eq_some (contextViolation_of_exec_fault h0 h)
    cases hc

/-- Settles O18: the alignment check comes right after the stride check, and a command that completes is legal. -/
theorem misalignedFaults : Obligations.MisalignedFaults := by
  refine ⟨fun i s hw h0 hstride hbad => ?_, fun i s t st k h hst hk => ?_⟩
  · obtain ⟨st, hst, f, hf, hexec⟩ := exec_of_alignViolation hw h0
      (fun st hst => strideViolation_eq_none.2 (hstride st hst))
      (by
        obtain ⟨st, hst, hbad⟩ := hbad
        refine ⟨st, hst, fun hn => ?_⟩
        obtain ⟨hbase, hstep⟩ := alignViolation_eq_none.1 hn
        obtain hb | ⟨hreg, hb⟩ := hbad
        · exact hb hbase
        · exact hb (hstep hreg))
    refine ⟨st, hst, ?_⟩
    obtain ⟨hb, rfl⟩ | ⟨hb, hreg, hstep, rfl⟩ := alignViolation_eq_some.1 hf
    · exact .inl ⟨hb, hexec⟩
    · exact .inr ⟨hb, hreg, hstep, hexec⟩
  · obtain ⟨c, rfl, -⟩ | ⟨-, hl, -⟩ := exec_next_cases h
    · cases hst
    · exact element_mod_width hst (hl.2 (count_toNat_ne_zero.2 (by omega)) st hst) k

/-- Settles O19: with the strides and the alignment legal, the wrap check is the next one. -/
theorem wrappingAddressFaults : Obligations.WrappingAddressFaults := by
  intro i s hw h0 hlegal hbad
  obtain ⟨st, hst, f, hf, hexec⟩ := exec_of_wrapViolation hw h0
    (fun st hst => strideViolation_eq_none.2 (hlegal st hst).1)
    (fun st hst => alignViolation_eq_none.2 (hlegal st hst).2)
    (by
      obtain ⟨st, hst, hbad⟩ := hbad
      exact ⟨st, hst, fun hn => absurd (wrapViolation_eq_none.1 hn) (not_le.2 hbad)⟩)
  obtain ⟨hlong, rfl⟩ := wrapViolation_eq_some.1 hf
  exact ⟨st, hst, hlong, hexec⟩

/-- Settles O20: the extent check is the last one, and it names a foreign byte. -/
theorem foreignByteFaults : Obligations.ForeignByteFaults := by
  intro i s hw h0 hlegal hbad
  obtain ⟨st, hst, f, hf, hexec⟩ := exec_of_extentViolation hw h0
    (fun st hst => have ⟨hstride, _⟩ := hlegal st hst; strideViolation_eq_none.2 hstride)
    (fun st hst => have ⟨_, hbase, hstep, _⟩ := hlegal st hst; alignViolation_eq_none.2 ⟨hbase, hstep⟩)
    (fun st hst => have ⟨_, _, _, hwrap⟩ := hlegal st hst; wrapViolation_eq_none.2 hwrap)
    (by
      obtain ⟨st, hst, k, hk, j, hj, hforeign⟩ := hbad
      refine ⟨st, hst, fun hn => ?_⟩
      have hown := extentViolation_eq_none.1 hn k hk j hj
      rw [hforeign] at hown
      cases hown)
  obtain ⟨k, hk, j, hj, hforeign, rfl⟩ := extentViolation_eq_some hf
  exact ⟨st, hst, k, hk, j, hj, hforeign, hexec⟩

/-- Settles O25: each element stores its own destination element and no other byte. -/
theorem bytesOutsideTheDestinationAreKept : Obligations.BytesOutsideTheDestinationAreKept :=
  fun _ _ _ _ => exec_readByte_of_unstored

/-- Settles O60: the laws of `MEM`, for one element. -/
theorem elementWriteThenRead : Obligations.ElementWriteThenRead :=
  fun _ _ _ _ hm ha hv => ⟨Memory.write_wf ha hm, by rw [Memory.read_write_same_mod ha hm, Nat.mod_eq_of_lt hv],
    fun _ hb => Memory.readByte_write_outside ha hm hb⟩

end Sys2Proof.Machine
end

