-- ==== Sys2Proof/Proofs/CommandWord.lean ====
section
/-! SUPPORT. The command word and its fields (R61): a word is its three parts, the encoder fills them, and a word is a
command's exactly when its parts are. -/

namespace Sys2Proof

/-- The opcode byte `OPB` of a word, bits 7:0: `OPC`, `DM` and `W` (R61, R67). -/
def fieldByte (c : Word) : BitVec 8 := c.extractLsb' 0 8

/-! ### A word and its parts -/

theorem fieldByte_eq_append (c : Word) : fieldByte c = fieldOpc c ++ fieldDm c ++ fieldW c := by
  rw [fieldOpc, fieldDm, fieldW,
    BitVec.extractLsb'_append_extractLsb'_eq_extractLsb' (by decide : 4 = 2 + 2),
    BitVec.extractLsb'_append_extractLsb'_eq_extractLsb' (by decide : 2 = 0 + 2), fieldByte]

/-- `ZERO`, `CTX` and the opcode byte are the whole word. -/
theorem append_fields (c : Word) : fieldZero c ++ fieldCtx c ++ fieldByte c = c := by
  rw [fieldZero, fieldCtx, fieldByte,
    BitVec.extractLsb'_append_extractLsb'_eq_extractLsb' (by decide : 16 = 8 + 8),
    BitVec.extractLsb'_append_extractLsb'_eq_extractLsb' (by decide : 8 = 0 + 8)]
  exact BitVec.extractLsb'_eq_self

theorem fieldOpc_eq (c : Word) : fieldOpc c = (fieldByte c).extractLsb' 4 4 :=
  (BitVec.extractLsb'_extractLsb'_of_le (by decide)).symm

theorem fieldDm_eq (c : Word) : fieldDm c = (fieldByte c).extractLsb' 2 2 :=
  (BitVec.extractLsb'_extractLsb'_of_le (by decide)).symm

theorem fieldW_eq (c : Word) : fieldW c = (fieldByte c).extractLsb' 0 2 :=
  (BitVec.extractLsb'_extractLsb'_of_le (by decide)).symm

/-! ### A command's word -/

@[simp] theorem fieldZero_encode (i : Instr) : fieldZero (encode i) = 0 := by
  rw [encode, fieldZero, BitVec.append_assoc, BitVec.extractLsb'_cast, BitVec.extractLsb'_append_eq_left]

@[simp] theorem fieldCtx_encode (i : Instr) : fieldCtx (encode i) = contextField i := by
  rw [encode, fieldCtx, BitVec.extractLsb'_append_eq_of_le (by decide), BitVec.extractLsb'_append_eq_right]

@[simp] theorem fieldByte_encode (i : Instr) : fieldByte (encode i) = opcodeByte i :=
  BitVec.extractLsb'_append_eq_right

/-- A word is a command's exactly when each of its parts is the command's. -/
theorem encode_eq_iff {i : Instr} {c : Word} :
    encode i = c ↔ fieldZero c = 0 ∧ fieldCtx c = contextField i ∧ fieldByte c = opcodeByte i := by
  constructor
  · rintro rfl
    exact ⟨fieldZero_encode i, fieldCtx_encode i, fieldByte_encode i⟩
  · rintro ⟨hzero, hctx, hbyte⟩
    rw [← append_fields c, hzero, hctx, hbyte, encode]

end Sys2Proof
end

