-- ==== Sys2Proof/Proofs/Decoder.lean ====
section
/-! SUPPORT. The decoder (R61 to R65): the codes of its three tables, which words it accepts, and that it undoes the
encoder. -/

namespace Sys2Proof

/-! ### The codes of the fields -/

/-- The `OPC` value of a class (R62). -/
def OpClass.code : OpClass → BitVec 4
  | .f2i => 1
  | .fmrg => 2
  | .i2f => 3
  | .fill => 4
  | .cpy => 5
  | .mcpy => 6
  | .mcpyc => 7
  | .dclr => 8

/-- The `DM` value of a dither mode (R64). -/
def DitherMode.code : DitherMode → BitVec 2
  | .none => 0
  | .rect => 1
  | .tri => 2
  | .shp => 3

/-- The `W` value of a width (R63). -/
def WidthCode.code : WidthCode → BitVec 2
  | .one => 0
  | .two => 1
  | .four => 2

theorem opClass?_eq_some {b : BitVec 4} {k : OpClass} : opClass? b = some k ↔ b = k.code := by
  cases k <;> revert b <;> decide

theorem opClass?_eq_none {b : BitVec 4} : opClass? b = none ↔ b = 0 ∨ 9 ≤ b.toNat := by
  revert b
  decide

theorem widthCode?_eq_some {b : BitVec 2} {w : WidthCode} : widthCode? b = some w ↔ b = w.code := by
  cases w <;> revert b <;> decide

theorem widthCode?_eq_none {b : BitVec 2} : widthCode? b = none ↔ b = 3 := by
  revert b
  decide

theorem code_ditherMode (b : BitVec 2) : (ditherMode b).code = b := by
  revert b
  decide

/-! ### The commands of a class -/

/-- What class `F2I` decodes to carries the context field and the opcode byte of its mode and width. -/
theorem of_decodeF2I {m : DitherMode} {w : WidthCode} {x : CtxNum} {i : Instr} (h : decodeF2I m w x = .ok i) :
    contextField i = x ∧ opcodeByte i = OpClass.f2i.code ++ m.code ++ w.code := by
  cases m <;> cases w <;> cases h <;> exact ⟨rfl, rfl⟩

/-- The widths of a class (R63, R67): any for a fill, one byte for `DCLR`, two and four for the others. -/
def OpClass.hasWidth : OpClass → WidthCode → Bool
  | .fill, _ => true
  | .dclr, w => w = .one
  | _, w => w ≠ .one

/-- Class `F2I` has its widths, in every mode and with every context field (R65). -/
theorem exists_decodeF2I {m : DitherMode} {w : WidthCode} {x : CtxNum} :
    (∃ i, decodeF2I m w x = .ok i) ↔ OpClass.f2i.hasWidth w = true := by
  cases m <;> cases w <;> simp [decodeF2I, OpClass.hasWidth]

/-- What a class without dither decodes to carries the context field and the opcode byte of its class and width. -/
theorem of_decodePlain {k : OpClass} {w : WidthCode} {x : CtxNum} {i : Instr} (h : decodePlain k w x = .ok i) :
    contextField i = x ∧ opcodeByte i = k.code ++ (0 : BitVec 2) ++ w.code := by
  cases k <;> cases w <;> simp only [decodePlain, reduceCtorEq] at h
  case dclr.one => cases h; exact ⟨rfl, rfl⟩
  all_goals
    split at h
    · next hx => cases h; exact ⟨hx.symm, rfl⟩
    · cases h

/-- A class without dither has its widths, and only `DCLR` a context (R63, R65). -/
theorem exists_decodePlain {k : OpClass} {w : WidthCode} {x : CtxNum} (hk : k ≠ .f2i) :
    (∃ i, decodePlain k w x = .ok i) ↔ k.hasWidth w = true ∧ (k = .dclr ∨ x = 0) := by
  have hctx (j : Instr) : (∃ i, (if x = 0 then .ok j else .error .context : Except Reserved Instr) = .ok i) ↔
      x = 0 := by
    by_cases hx : x = 0#8 <;> simp [hx]
  cases k with
  | f2i => exact absurd rfl hk
  | _ => cases w <;> simp only [decodePlain, hctx, OpClass.hasWidth] <;> simp

/-! ### The decoder -/

/-- What the decoder reads: `ZERO`, the class and the width, then by the class. -/
theorem decode_eq_ok {c : Word} {i : Instr} :
    decode c = .ok i ↔ fieldZero c = 0 ∧ ∃ k w, fieldOpc c = k.code ∧ fieldW c = w.code ∧
      (k = .f2i ∧ decodeF2I (ditherMode (fieldDm c)) w (fieldCtx c) = .ok i ∨
        k ≠ .f2i ∧ fieldDm c = 0 ∧ decodePlain k w (fieldCtx c) = .ok i) := by
  simp only [← opClass?_eq_some, ← widthCode?_eq_some]
  by_cases hz : fieldZero c = 0#16
  · cases hk : opClass? (fieldOpc c) with
    | none => simp [decode, hz, hk]
    | some k =>
      cases hw : widthCode? (fieldW c) with
      | none => cases k <;> simp [decode, hz, hk, hw]
      | some w => cases k <;> by_cases hdm : fieldDm c = 0#2 <;> simp [decode, hz, hk, hw, hdm]
  · simp [decode, hz]

/-- The decoder reads a command back from its word. -/
theorem decode_encode (i : Instr) : decode (encode i) = .ok i := by
  rw [decode, fieldOpc_eq, fieldDm_eq, fieldW_eq, fieldZero_encode, fieldCtx_encode, fieldByte_encode, if_pos rfl]
  cases i <;> simp [opcodeByte, contextField, opClass?, widthCode?, ditherMode, decodeF2I, decodePlain]

/-- A word that decodes is its command's word: the fields the decoder looks at are all of it. -/
theorem encode_of_decode {c : Word} {i : Instr} (h : decode c = .ok i) : encode i = c := by
  obtain ⟨hzero, k, w, hopc, hw, hcases⟩ := decode_eq_ok.1 h
  suffices hfields : contextField i = fieldCtx c ∧ opcodeByte i = fieldOpc c ++ fieldDm c ++ fieldW c by
    obtain ⟨hctx, hbyte⟩ := hfields
    exact encode_eq_iff.2 ⟨hzero, hctx.symm, (fieldByte_eq_append c).trans hbyte.symm⟩
  obtain ⟨rfl, hf2i⟩ | ⟨-, hdm, hplain⟩ := hcases
  · simpa only [hopc, hw, code_ditherMode] using of_decodeF2I hf2i
  · simpa only [hopc, hw, hdm] using of_decodePlain hplain

theorem decode_eq_ok_iff_encode {c : Word} {i : Instr} : decode c = .ok i ↔ encode i = c :=
  ⟨encode_of_decode, fun h => h ▸ decode_encode i⟩

end Sys2Proof
end

