-- ==== Sys2Proof/Proofs/OpcodeMap.lean ====
section
/-! SUPPORT. The opcode map (R67): its rows are the commands' own words with the context field free or zero, so a row
covers a word exactly when the word is that of a command of the row. -/

namespace Sys2Proof

/-! ### The rows as words of commands -/

/-- The commands with a free context field, in the order of the map: "used" and "ignored" (R67). -/
def contextCommands : List (CtxNum → Instr) :=
  [.f2i16, .f2i24, .f2i16Rect, .f2i24Rect, .f2i16Tri, .f2i24Tri, .f2i16Shp, .f2i24Shp, .dclr]

/-- The commands whose context field must be 0, in the order of the map (R67). -/
def plainCommands : List Instr :=
  [.fmrg16, .fmrg24, .i2f16, .i2f24, .fill8, .fill16, .fill32, .cpy16, .cpy32, .mcpy16, .mcpy32, .mcpyc16, .mcpyc32]

/-- The row of a command with a free context field: its word with context 0, the context bits masked out. -/
def contextRow (f : CtxNum → Instr) : OpcodeRow := ⟨mnemonic (f 0), encode (f 0), 0xFFFF00FF⟩

/-- The row of a command whose context field must be 0: its one word. -/
def plainRow (i : Instr) : OpcodeRow := ⟨mnemonic i, encode i, 0xFFFFFFFF⟩

/-- Every row of the map as it is printed is such a row. -/
theorem opcodeRows_cases : ∀ r ∈ opcodeRows, r ∈ contextCommands.map contextRow ∨ r ∈ plainCommands.map plainRow := by
  decide

/-- A row is named by its mnemonic. -/
theorem eq_of_mnemonic_eq : ∀ r ∈ opcodeRows, ∀ r' ∈ opcodeRows, r.mnemonic = r'.mnemonic → r = r' := by
  decide

/-- Commands that differ in a free context field only have one mnemonic and one opcode byte. -/
theorem contextCommands_spec {f : CtxNum → Instr} (hf : f ∈ contextCommands) (x : CtxNum) :
    mnemonic (f x) = mnemonic (f 0) ∧ opcodeByte (f x) = opcodeByte (f 0) ∧ contextField (f x) = x := by
  simp only [contextCommands, List.mem_cons, List.not_mem_nil, or_false] at hf
  rcases hf with rfl | rfl | rfl | rfl | rfl | rfl | rfl | rfl | rfl <;> exact ⟨rfl, rfl, rfl⟩

/-! ### Which words a row covers -/

theorem plainRow_covers {i : Instr} {c : Word} (h : (plainRow i).covers c = true) : encode i = c := by
  have hmask : c &&& 0xFFFFFFFF = encode i := eq_of_beq h
  rw [← hmask]
  exact BitVec.and_allOnes

/-- Masking out the context bits keeps `ZERO` and the opcode byte. -/
theorem fields_of_contextMask (c : Word) :
    fieldZero (c &&& 0xFFFF00FF) = fieldZero c ∧ fieldByte (c &&& 0xFFFF00FF) = fieldByte c := by
  have hzero : BitVec.extractLsb' 16 16 (0xFFFF00FF : Word) = BitVec.allOnes 16 := rfl
  have hbyte : BitVec.extractLsb' 0 8 (0xFFFF00FF : Word) = BitVec.allOnes 8 := rfl
  rw [fieldZero, fieldByte, BitVec.extractLsb'_and, BitVec.extractLsb'_and, hzero, hbyte, BitVec.and_allOnes,
    BitVec.and_allOnes]
  exact ⟨rfl, rfl⟩

theorem contextRow_covers {f : CtxNum → Instr} (hf : f ∈ contextCommands) {c : Word}
    (h : (contextRow f).covers c = true) : encode (f (fieldCtx c)) = c := by
  have hmask : c &&& 0xFFFF00FF = encode (f 0) := eq_of_beq h
  obtain ⟨hzero, hbyte⟩ := fields_of_contextMask c
  obtain ⟨-, hopb, hctx⟩ := contextCommands_spec hf (fieldCtx c)
  refine encode_eq_iff.2 ⟨?_, hctx.symm, ?_⟩
  · rw [← hzero, hmask, fieldZero_encode]
  · rw [← hbyte, hmask, fieldByte_encode, hopb]

/-- A word that a row covers is the word of a command with the row's mnemonic. -/
theorem exists_encode_of_covers {r : OpcodeRow} {c : Word} (hr : r ∈ opcodeRows) (hc : r.covers c = true) :
    ∃ i, encode i = c ∧ mnemonic i = r.mnemonic := by
  obtain hr | hr := opcodeRows_cases r hr
  · obtain ⟨f, hf, rfl⟩ := List.mem_map.1 hr
    obtain ⟨hname, -, -⟩ := contextCommands_spec hf (fieldCtx c)
    exact ⟨f (fieldCtx c), contextRow_covers hf hc, hname⟩
  · obtain ⟨i, -, rfl⟩ := List.mem_map.1 hr
    exact ⟨i, plainRow_covers hc, rfl⟩

/-- The word of every command is a word of its own row. -/
theorem encodesItsRow (i : Instr) : Laws.EncodesItsRow.Statement i := by
  open Laws.EncodesItsRow in
  cases i with
  | f2i16 c => exact f2i16 c
  | f2i24 c => exact f2i24 c
  | f2i16Rect c => exact f2i16Rect c
  | f2i24Rect c => exact f2i24Rect c
  | f2i16Tri c => exact f2i16Tri c
  | f2i24Tri c => exact f2i24Tri c
  | f2i16Shp c => exact f2i16Shp c
  | f2i24Shp c => exact f2i24Shp c
  | fmrg16 => exact fmrg16
  | fmrg24 => exact fmrg24
  | i2f16 => exact i2f16
  | i2f24 => exact i2f24
  | fill8 => exact fill8
  | fill16 => exact fill16
  | fill32 => exact fill32
  | cpy16 => exact cpy16
  | cpy32 => exact cpy32
  | mcpy16 => exact mcpy16
  | mcpy32 => exact mcpy32
  | mcpyc16 => exact mcpyc16
  | mcpyc32 => exact mcpyc32
  | dclr c => exact dclr c

/-- The rows cover the words that decode. -/
theorem exists_covers_iff_decode {c : Word} :
    (∃ r ∈ opcodeRows, r.covers c = true) ↔ ∃ i, decode c = .ok i := by
  simp only [decode_eq_ok_iff_encode]
  constructor
  · rintro ⟨r, hr, hc⟩
    obtain ⟨i, hi, -⟩ := exists_encode_of_covers hr hc
    exact ⟨i, hi⟩
  · rintro ⟨i, rfl⟩
    obtain ⟨r, hr, -, hc⟩ := encodesItsRow i
    exact ⟨r, hr, hc⟩

/-- The row that covers a word names its command. -/
theorem mnemonic_eq_of_covers {c : Word} {i : Instr} {r : OpcodeRow} (hi : decode c = .ok i) (hr : r ∈ opcodeRows)
    (hc : r.covers c = true) : r.mnemonic = mnemonic i := by
  obtain ⟨j, hj, hname⟩ := exists_encode_of_covers hr hc
  obtain rfl : i = j := Except.ok.inj (hi.symm.trans (decode_eq_ok_iff_encode.2 hj))
  exact hname.symm

end Sys2Proof
end

