-- ==== Sys2Proof/Proofs/ReservedWords.lean ====
section
/-! SUPPORT. The reserved words (R68): the list of R68 in terms of the fields names the words that the decoder does not
accept and that no row covers. -/

namespace Sys2Proof

/-- The list of R68, clause by clause. -/
def NamedReserved (c : Word) : Prop :=
  fieldZero c ≠ 0 ∨ fieldOpc c = 0 ∨ 9 ≤ (fieldOpc c).toNat ∨ fieldW c = 3 ∨
  (fieldW c = 0 ∧ fieldOpc c ≠ 4 ∧ fieldOpc c ≠ 8) ∨
  (fieldOpc c = 8 ∧ (fieldW c ≠ 0 ∨ fieldDm c ≠ 0)) ∨ (fieldDm c ≠ 0 ∧ fieldOpc c ≠ 1) ∨
  (fieldCtx c ≠ 0 ∧ 2 ≤ (fieldOpc c).toNat ∧ (fieldOpc c).toNat ≤ 7)

/-- The words the decoder accepts: `ZERO` is 0 and the class has the width; outside `F2I`, `DM` is 0, and `CTX` too
but in `DCLR`. -/
theorem exists_decode_iff {c : Word} :
    (∃ i, decode c = .ok i) ↔ fieldZero c = 0 ∧ ∃ (k : OpClass) (w : WidthCode),
      fieldOpc c = k.code ∧ fieldW c = w.code ∧ k.hasWidth w = true ∧
      (k = .f2i ∨ fieldDm c = 0 ∧ (k = .dclr ∨ fieldCtx c = 0)) := by
  constructor
  · rintro ⟨i, h⟩
    obtain ⟨hz, k, w, hk, hw, ⟨rfl, hi⟩ | ⟨hne, hdm, hi⟩⟩ := decode_eq_ok.1 h
    · exact ⟨hz, _, w, hk, hw, exists_decodeF2I.1 ⟨i, hi⟩, .inl rfl⟩
    · obtain ⟨hwidth, hctx⟩ := (exists_decodePlain hne).1 ⟨i, hi⟩
      exact ⟨hz, k, w, hk, hw, hwidth, .inr ⟨hdm, hctx⟩⟩
  · rintro ⟨hz, k, w, hk, hw, hwidth, hfree⟩
    by_cases hf2i : k = .f2i
    · obtain ⟨i, hi⟩ := exists_decodeF2I.2 (hf2i ▸ hwidth)
      exact ⟨i, decode_eq_ok.2 ⟨hz, k, w, hk, hw, .inl ⟨hf2i, hi⟩⟩⟩
    · obtain ⟨hdm, hctx⟩ := hfree.resolve_left hf2i
      obtain ⟨i, hi⟩ := (exists_decodePlain hf2i).2 ⟨hwidth, hctx⟩
      exact ⟨i, decode_eq_ok.2 ⟨hz, k, w, hk, hw, .inr ⟨hf2i, hdm, hi⟩⟩⟩

/-- What of R68's list is left where `ZERO`, `OPC` and `W` are all in order. -/
theorem namedReserved_iff {c : Word} {k : OpClass} {w : WidthCode} (hz : fieldZero c = 0)
    (hk : fieldOpc c = k.code) (hw : fieldW c = w.code) :
    NamedReserved c ↔ k.hasWidth w = false ∨ (k ≠ .f2i ∧ fieldDm c ≠ 0) ∨
      (k ≠ .f2i ∧ k ≠ .dclr ∧ fieldCtx c ≠ 0) := by
  have hopc : k.code ≠ 0 ∧ ¬ 9 ≤ k.code.toNat := by cases k <;> decide
  have hthree : w.code ≠ 3 := by cases w <;> decide
  have hf2i : k.code = 1 ↔ k = .f2i := by cases k <;> decide
  have hdclr : k.code = 8 ↔ k = .dclr := by cases k <;> decide
  have hmid : 2 ≤ k.code.toNat ∧ k.code.toNat ≤ 7 ↔ k ≠ .f2i ∧ k ≠ .dclr := by cases k <;> decide
  have hwidth : k.hasWidth w = false ↔
      (w.code = 0 ∧ k.code ≠ 4 ∧ k.code ≠ 8) ∨ (k.code = 8 ∧ w.code ≠ 0) := by
    cases k <;> cases w <;> decide
  simp only [NamedReserved, hz, hk, hw, hopc, hthree, hf2i, hdclr, hmid, hwidth, ne_eq, not_true, false_or]
  by_cases hD : k = .dclr
  · subst hD
    simp [OpClass.code]
  · by_cases hF : k = .f2i <;> simp [hD, hF, or_left_comm, and_comm]

/-- The decoder accepts no word of R68's list and every other word. -/
theorem exists_decode_iff_not_namedReserved {c : Word} : (∃ i, decode c = .ok i) ↔ ¬ NamedReserved c := by
  rw [exists_decode_iff]
  constructor
  · rintro ⟨hz, k, w, hk, hw, hwidth, hfree⟩
    rw [namedReserved_iff hz hk hw, hwidth]
    tauto
  · intro h
    have hzero : fieldZero c = 0 := by_contra fun hz => h (.inl hz)
    obtain ⟨k, hk⟩ := Option.ne_none_iff_exists'.1 fun hn : opClass? (fieldOpc c) = none =>
      h (.inr ((opClass?_eq_none.1 hn).imp_right .inl))
    obtain ⟨w, hw⟩ := Option.ne_none_iff_exists'.1 fun hn : widthCode? (fieldW c) = none =>
      h (.inr (.inr (.inr (.inl (widthCode?_eq_none.1 hn)))))
    rw [opClass?_eq_some] at hk
    rw [widthCode?_eq_some] at hw
    rw [namedReserved_iff hzero hk hw, ← Bool.not_eq_true] at h
    exact ⟨hzero, k, w, hk, hw, by tauto⟩

/-- The words that no row covers are those of R68's list. -/
theorem forall_covers_eq_false_iff {c : Word} : (∀ r ∈ opcodeRows, r.covers c = false) ↔ NamedReserved c := by
  rw [← not_iff_not, ← exists_decode_iff_not_namedReserved, ← exists_covers_iff_decode]
  simp

end Sys2Proof
end

