-- ==== Sys2Proof/Proofs/CommandFaults.lean ====
section
/-! SUPPORT. What a command that faults reports (R133, R171): a check's finding or an element that is not finite, and
never `IllegalCommand`, which comes from the decoder alone (R68). -/

namespace Sys2Proof.Machine

/-! ### What a command reports -/

/-- What the operand checks report is a fault of kind 3 to 6 (R171). -/
theorem operandViolation_code {owned : List Extent} {cnt : Nat} {streams : List Stream} {f : Fault}
    (h : operandViolation owned cnt streams = some f) : 3 ≤ f.code ∧ f.code ≤ 6 := by
  have hcheck : ∃ st, strideViolation st = some f ∨ alignViolation st = some f ∨ wrapViolation cnt st = some f ∨
      extentViolation owned cnt st = some f := by
    simp only [operandViolation, Option.or_eq_some_iff] at h
    obtain (h | ⟨-, h⟩) | ⟨-, h | ⟨-, h⟩⟩ := h <;> obtain ⟨st, -, h⟩ := List.exists_of_findSome?_eq_some h
    · exact ⟨st, .inl h⟩
    · exact ⟨st, .inr (.inl h)⟩
    · exact ⟨st, .inr (.inr (.inl h))⟩
    · exact ⟨st, .inr (.inr (.inr h))⟩
  obtain ⟨st, h | h | h | h⟩ := hcheck
  · obtain ⟨-, -, rfl⟩ := strideViolation_eq_some.1 h
    simp [Fault.code]
  · obtain ⟨-, rfl⟩ | ⟨-, -, -, rfl⟩ := alignViolation_eq_some.1 h <;> simp [Fault.code]
  · obtain ⟨-, rfl⟩ := wrapViolation_eq_some.1 h
    simp [Fault.code]
  · obtain ⟨k, -, j, -, -, rfl⟩ := extentViolation_eq_some h
    simp [Fault.code]

/-- A loop that faults does so at one of its elements. -/
theorem forElements_fault {el : Nat → State → Result} {n i : Nat} {s : State} {f : Fault}
    (h : forElements el n i s = .fault f) : ∃ k u, el k u = .fault f := by
  induction n generalizing i s with
  | zero => cases h
  | succ n ih =>
    rw [forElements_succ] at h
    cases hel : el i s with
    | next u => exact ih (by simpa only [hel, andThen_next] using h)
    | fault g => exact ⟨i, s, hel.trans (by simpa only [hel, andThen_fault] using h)⟩
    | refused r => simp only [hel, andThen_refused, reduceCtorEq] at h

/-- A command that faults reports what a check found or an element that is not finite (R133). -/
theorem exec_fault_cases {i : Instr} {s : State} {f : Fault} (h : exec i s = .fault f) :
    contextViolation i s = some f ∨ operandViolation s.owned s.cnt.toNat (streamsOf i s) = some f ∨
      ∃ k, f = .nonFinite k := by
  by_cases hi : ∃ c, i = .dclr c
  · obtain ⟨c, rfl⟩ := hi
    simp only [exec, execDclr] at h
    split at h
    · next hc => cases h; exact .inl hc
    · cases h
  · rw [exec_eq_runCommand (not_exists.1 hi)] at h
    by_cases hl : Legal i s
    · rw [runCommand_legal hl] at h
      obtain ⟨k, u, hel⟩ := forElements_fault h
      obtain ⟨hf, -⟩ := elementOf_fault hel
      exact .inr (.inr ⟨k, hf⟩)
    · obtain ⟨g, hg, hcases⟩ := runCommand_illegal (el := elementOf i) hl
      obtain rfl : f = g := Host.Outcome.fault.inj (h.symm.trans hg)
      exact hcases.imp_right fun ⟨_, _, ho⟩ => .inl ho

/-- A command reports no fault of kind 1: its word was a command's (R171). -/
theorem two_le_code_of_exec_fault {i : Instr} {s : State} {f : Fault} (h : exec i s = .fault f) : 2 ≤ f.code := by
  obtain hc | ho | ⟨k, rfl⟩ := exec_fault_cases h
  · obtain ⟨c, rfl⟩ := contextViolation_eq_some hc
    simp [Fault.code]
  · exact Nat.le_of_succ_le (operandViolation_code ho).1
  · simp [Fault.code]

/-! ### What an issued word reports -/

/-- An issued command that faults reports the command's own fault or a conflict. -/
theorem runIssued_fault {i : Instr} {s : State} {f : Fault} (h : runIssued i s = .fault f) :
    exec i s.retire = .fault f ∨ f = .concurrentAccess := by
  unfold runIssued at h
  cases hu : exec i s.retire with
  | next u =>
    rw [hu, andThen_next] at h
    split at h
    · cases h; exact .inr rfl
    · cases h
  | fault g => exact .inl (by simpa only [hu, andThen_fault] using h)
  | refused r => simp only [hu, andThen_refused, reduceCtorEq] at h

/-- `IllegalCommand` comes from the decoder alone (R68). -/
theorem step_eq_illegalCommand_iff {s : State} {c : Word} (hc : s.cmd = some c) :
    step s = .fault (.illegalCommand c) ↔ ¬ ∃ i, decode c = .ok i := by
  rw [step_cmd hc, issue]
  cases hd : decode c with
  | error e => simp
  | ok i =>
    refine iff_of_false (fun h => ?_) (not_not_intro ⟨i, rfl⟩)
    dsimp only at h
    split at h
    · cases h
    · obtain hexec | hconflict := runIssued_fault h
      · exact absurd (two_le_code_of_exec_fault hexec) (by simp [Fault.code])
      · cases hconflict

end Sys2Proof.Machine
end

