-- ==== Sys2Proof/Proofs/WindowAndRuns.lean ====
section
/-! SUPPORT. Runs of the machine step by step, the accesses that miss the register window (R60), and the commands whose
context field does not matter or is 0 (R65). -/

namespace Sys2Proof.Machine

/-! ### Runs -/

/-- A run starts with a step that goes on. -/
theorem run_succ {s t : State} (k : Nat) (h : step s = .next t) :
    Host.Core.run core (k + 1) s = Host.Core.run core k t := by
  have hcore : core.step s = .next t := h
  simp only [Host.Core.run, hcore]

/-- A run of one step is the step. -/
theorem run_one (s : State) : Host.Core.run core 1 s = step s := by
  change Host.Core.run core 1 s = core.step s
  simp only [Host.Core.run]
  cases core.step s <;> rfl

/-! ### The register window -/

/-- Nothing stands at an offset that is misaligned or beyond `0x18` (R60). -/
theorem windowReg?_eq_none {offset : Nat} (h : offset % 4 ≠ 0 ∨ 0x1C ≤ offset) : windowReg? offset = none := by
  unfold windowReg?
  repeat rw [if_neg (by omega)]

/-- An access that is not one whole aligned word of the window reaches nothing (R60). -/
theorem windowAccess?_eq_none {base addr width : Nat}
    (h : width ≠ 4 ∨ addr < base ∨ (addr - base) % 4 ≠ 0 ∨ base + 0x1C ≤ addr) :
    windowAccess? base addr width = none := by
  refine Option.eq_none_iff_forall_ne_some.2 fun r hr => ?_
  obtain ⟨hw, hb, hreg⟩ := windowAccess?_eq_some.1 hr
  rw [windowReg?_eq_none (by omega)] at hreg
  cases hreg

/-! ### The context field -/

/-- Without dither and with rectangular dither no context is read or written (R65). -/
theorem convertElement_none_context (k : Container) (c c' : CtxNum) :
    convertElement k .none c = convertElement k .none c' := rfl

theorem convertElement_rect_context (k : Container) (c c' : CtxNum) :
    convertElement k .rect c = convertElement k .rect c' := rfl

/-- Two commands with the same element, streams and used context mean the same. -/
theorem exec_congr {i j : Instr} {s : State} (hi : ∀ c, i ≠ .dclr c) (hj : ∀ c, j ≠ .dclr c)
    (he : elementOf i = elementOf j) (hu : usedContext i = usedContext j) (hs : streamsOf i s = streamsOf j s) :
    exec i s = exec j s := by
  rw [exec_eq_runCommand hi, exec_eq_runCommand hj, runCommand, runCommand, contextViolation, contextViolation, he,
    hu, hs]

/-- A command that neither uses nor ignores the context field has 0 there (R65). -/
theorem contextField_eq_zero {i : Instr} (hu : usedContext i = none)
    (hi : ∀ c, i ≠ .f2i16 c ∧ i ≠ .f2i24 c ∧ i ≠ .f2i16Rect c ∧ i ≠ .f2i24Rect c) : contextField i = 0 := by
  cases i with
  | f2i16 c | f2i24 c | f2i16Rect c | f2i24Rect c => simpa using hi c
  | f2i16Tri c | f2i24Tri c | f2i16Shp c | f2i24Shp c | dclr c => cases hu
  | _ => rfl

end Sys2Proof.Machine
end

