-- ==== Sys2Proof/Proofs/EncodingFamily.lean ====
section
/-! The statements about the encoding (30_encoding.md), each a short use of the lemmas above. -/

namespace Sys2Proof.Machine

/-- Settles O1: the decoder undoes the encoder, and the fields it looks at are the whole word. -/
theorem decodeAgreesWithEncode : Obligations.DecodeAgreesWithEncode :=
  fun _ _ => decode_eq_ok_iff_encode

/-- Settles O2: a word that a row covers is the word of a command with the row's mnemonic, and a word has one
command. -/
theorem decoderAcceptsTheOpcodeMap : Obligations.DecoderAcceptsTheOpcodeMap := by
  refine ⟨fun c => exists_covers_iff_decode.symm, fun _ _ _ => mnemonic_eq_of_covers, fun c r hr r' hr' hc hc' => ?_⟩
  obtain ⟨i, hi⟩ := exists_covers_iff_decode.1 ⟨r, hr, hc⟩
  exact eq_of_mnemonic_eq r hr r' hr'
    ((mnemonic_eq_of_covers hi hr hc).trans (mnemonic_eq_of_covers hi hr' hc').symm)

/-- Settles O3: R68's list is what the decoder does not accept, and only the decoder reports `IllegalCommand`. -/
theorem reservedWordsFault : Obligations.ReservedWordsFault := by
  intro c
  have hreserved : (¬ ∃ i, decode c = .ok i) ↔ NamedReserved c := exists_decode_iff_not_namedReserved.not_left
  exact ⟨forall_covers_eq_false_iff, fun s hc => (step_eq_illegalCommand_iff hc).trans hreserved⟩

/-- Settles O8, by induction on the operand list: each pair is one write of an operand register; then come the write
to `CMD` and the command. -/
theorem operandListFormRuns : Obligations.OperandListFormRuns := by
  intro s i operands rest hcmd hduring hhost
  induction operands generalizing s with
  | nil =>
    have hissue := cmdWriteIssuesTheWord s (encode i) rest hcmd hhost
    have hrun := stepRunsTheDecodedCommand { s with cmd := some (encode i), host := rest } (encode i) i rfl
      (decode_encode i) hduring
    rw [← hcmd] at hrun
    rw [List.length_nil, run_succ _ hissue, run_one]
    exact hrun
  | cons p operands ih =>
    obtain ⟨r, v⟩ := p
    have hset : step s = .next (State.writeReg
        { s with host := hostWrites s.sfcBase (ProgramLine.withOperands i operands).writes ++ rest } r v) :=
      step_writeReg hcmd (windowReg?_offset r) hhost
    rw [List.length_cons, Nat.add_right_comm, run_succ _ hset,
      ih _ (by simpa using hcmd) (by simpa using hduring) (by simp)]
    cases r <;> rfl

/-- Settles O4: `ZERO` is the first field the decoder looks at, and the encoder sets it to 0. -/
theorem zeroFieldMustBeZero : Obligations.ZeroFieldMustBeZero :=
  ⟨fun _ hc => if_neg hc, fieldZero_encode⟩

/-- Settles O5: each word is the encoder's. -/
theorem specWordsDecode : Obligations.SpecWordsDecode := by
  simp only [Obligations.SpecWordsDecode, decode_eq_ok_iff_encode]
  decide

/-- Settles O11: the seven offsets, the read of `CMD`, and the accesses that reach no register. -/
theorem registerWindow : Obligations.RegisterWindow := by
  refine ⟨by decide, fun s rest hc hh => ?_, fun s addr width v rest hc hbad => ⟨fun hh => ?_, fun hh => ?_⟩⟩
  · have hcmd : windowReg? 0x18 = some .cmd := rfl
    rw [step_host hc hh]
    simp only [hostEvent, windowRead, windowAccess?_offset, hcmd]
  · rw [step_host hc hh]
    simp only [hostEvent, windowWrite, windowAccess?_eq_none hbad]
  · rw [step_host hc hh]
    simp only [hostEvent, windowRead, windowAccess?_eq_none hbad]

/-- Settles O15: the context check comes first; the four converters look at no context; and the context field of a
word is its command's. -/
theorem contextFieldRules : Obligations.ContextFieldRules := by
  refine ⟨fun i s c hu hlen => exec_of_contextViolation ?_, fun c c' s => ⟨?_, ?_, ?_, ?_⟩,
    fun w i hd hu hi => ?_⟩
  · simp [contextViolation, hu, hlen]
  · exact exec_congr nofun nofun (convertElement_none_context .int16 c c') rfl rfl
  · exact exec_congr nofun nofun (convertElement_none_context .int24 c c') rfl rfl
  · exact exec_congr nofun nofun (convertElement_rect_context .int16 c c') rfl rfl
  · exact exec_congr nofun nofun (convertElement_rect_context .int24 c c') rfl rfl
  · rw [← encode_of_decode hd, fieldCtx_encode]
    exact contextField_eq_zero hu hi

end Sys2Proof.Machine
end

