-- ==== Sys2Proof/Proofs/NonFinite.lean ====
section
/-! SUPPORT. Where a command stops at a value that is not finite (R91, R173): elements do not look at `CNT`, so a
command over `CNT` elements is the one over its first `k` and then element `k`; and the quantisers answer nothing
exactly where one of their operations is not finite. -/

namespace Sys2Proof.Machine

open Sys2Proof.Claims

/-! ### Elements do not look at `CNT` -/

/-- The state with this value in `CNT`. -/
def State.withCnt (n : Word) (s : State) : State := { s with cnt := n }

/-- `QUANT` reads no operand register (R108). -/
theorem quantise_withCnt (m : DitherMode) (c : CtxNum) (x : Word) (n : Word) (s : State) :
    quantise m c x (s.withCnt n) = (quantise m c x s).map fun p => (p.1, p.2.withCnt n) := by
  cases m with
  | none => rfl
  | rect =>
    change (quantRect x s.nextDraw).bind _ = Option.map _ ((quantRect x s.nextDraw).bind _)
    cases quantRect x s.nextDraw <;> rfl
  | tri =>
    change (quantTri x s.nextDraw (s.context c)).bind _ = Option.map _ ((quantTri x s.nextDraw (s.context c)).bind _)
    cases quantTri x s.nextDraw (s.context c) <;> rfl
  | shp =>
    change (quantShp x s.nextDraw (s.context c)).bind _ = Option.map _ ((quantShp x s.nextDraw (s.context c)).bind _)
    cases quantShp x s.nextDraw (s.context c) <;> rfl

/-- Two states that differ at most in `CNT`, the second one holding `n` there. -/
def CntIs (n : Word) (s t : State) : Prop := t = s.withCnt n

theorem convertElement_withCnt (kk : Container) (m : DitherMode) (c : CtxNum) (k : Nat) (n : Word) (s : State) :
    SameAnswer (CntIs n) (convertElement kk m c k s) (convertElement kk m c k (s.withCnt n)) := by
  have hx : scaledSample kk k (s.withCnt n) = scaledSample kk k s := rfl
  simp only [convertElement, hx]
  cases scaledSample kk k s with
  | none => exact .fault _
  | some x =>
    simp only [quantise_withCnt]
    cases quantise m c x s with
    | none => exact .fault _
    | some p => exact .next rfl

theorem mergeElement16_withCnt (k : Nat) (n : Word) (s : State) :
    SameAnswer (CntIs n) (mergeElement16 k s) (mergeElement16 k (s.withCnt n)) := by
  have hx : scaledSample .int16 k (s.withCnt n) = scaledSample .int16 k s := rfl
  simp only [mergeElement16, hx]
  cases scaledSample .int16 k s with
  | none => exact .fault _
  | some x => exact .next rfl

theorem mergeElement24_withCnt (k : Nat) (n : Word) (s : State) :
    SameAnswer (CntIs n) (mergeElement24 k s) (mergeElement24 k (s.withCnt n)) := by
  have hx : scaledSample .int24 k (s.withCnt n) = scaledSample .int24 k s := rfl
  simp only [mergeElement24, hx]
  cases scaledSample .int24 k s with
  | none => exact .fault _
  | some x => exact .next rfl

/-- The element of every command does the same whatever `CNT` holds. -/
theorem elementOf_withCnt (i : Instr) (k : Nat) (n : Word) (s : State) :
    SameAnswer (CntIs n) (elementOf i k s) (elementOf i k (s.withCnt n)) := by
  cases i with
  | fmrg16 => exact mergeElement16_withCnt k n s
  | fmrg24 => exact mergeElement24_withCnt k n s
  | i2f16 | i2f24 | fill8 | fill16 | fill32 | cpy16 | cpy32 | mcpy16 | mcpy32 | mcpyc16 | mcpyc32 | dclr =>
    exact .next rfl
  | f2i16 c => exact convertElement_withCnt .int16 .none c k n s
  | f2i24 c => exact convertElement_withCnt .int24 .none c k n s
  | f2i16Rect c | f2i24Rect c | f2i16Tri c | f2i24Tri c | f2i16Shp c | f2i24Shp c =>
    exact convertElement_withCnt _ _ c k n s

/-- Elements run with one value in `CNT` run alike with another. -/
theorem forElements_withCnt (i : Instr) (m j : Nat) (n : Word) (s : State) :
    SameAnswer (CntIs n) (forElements (elementOf i) m j s) (forElements (elementOf i) m j (s.withCnt n)) :=
  forElements_sameAnswer (fun k u _ _ _ hu => hu ▸ elementOf_withCnt i k n u) rfl

/-! ### The element a command stops at -/

/-- The command with `CNT = k` that completes is the first `k` elements of the command. -/
theorem forElements_of_exec_withCount {i : Instr} {s u : State} {k : Nat} (hi : ∀ c, i ≠ .dclr c)
    (hk : k < s.cnt.toNat) (hu : exec i (withCount s k) = .next u) :
    forElements (elementOf i) k 0 s = .next (u.withCnt s.cnt) := by
  obtain ⟨c, rfl, -⟩ | ⟨-, -, hloop⟩ := exec_next_cases hu
  · exact absurd rfl (hi c)
  · have hcnt : (withCount s k).cnt.toNat = k := Nat.mod_eq_of_lt (hk.trans s.cnt.isLt)
    have hsame := forElements_withCnt i k 0 s.cnt (withCount s k)
    rw [hcnt] at hloop
    rw [hloop] at hsame
    obtain ⟨t, ht, rfl⟩ := hsame.of_next
    exact ht

/-- Where the first `k` elements complete and element `k` faults on what they left, the command faults so (R173: the
lowest element is the one reported). -/
theorem exec_of_element_fault {i : Instr} {s u : State} {k : Nat} {f : Fault} (hi : ∀ c, i ≠ .dclr c)
    (hl : Legal i s) (hk : k < s.cnt.toNat) (hu : exec i (withCount s k) = .next u)
    (hf : elementOf i k u = .fault f) : exec i s = .fault f := by
  have hsame := elementOf_withCnt i k s.cnt u
  rw [hf] at hsame
  have hlast : forElements (elementOf i) (k + 1) 0 s = .fault f := by
    rw [forElements_last, forElements_of_exec_withCount hi hk hu, andThen_next, Nat.zero_add, hsame.of_fault]
  obtain ⟨m, hm⟩ := Nat.exists_eq_add_of_le (show k + 1 ≤ s.cnt.toNat from hk)
  rw [exec_legal hi hl, hm, forElements_add, hlast, andThen_fault]

/-! ### Samples -/

theorem scaledSample_eq_none_of_not_sampleFinite {kk : Container} {k : Nat} {s : State}
    (h : ¬ SampleFinite (Container.factor kk) s k) : scaledSample kk k s = none := by
  refine Option.eq_none_iff_forall_not_mem.2 fun x hx => h ?_
  obtain ⟨b, hb, rfl, hprod⟩ := scaledSample_eq_some.1 hx
  obtain ⟨rfl, hfin⟩ := loadSample_eq_some.1 hb
  exact ⟨hfin, hprod⟩

theorem scaledSample_of_sampleFinite {kk : Container} {k : Nat} {s : State}
    (h : SampleFinite (Container.factor kk) s k) :
    scaledSample kk k s = some (scaled (Container.factor kk) s k) := by
  obtain ⟨hfin, hprod⟩ := h
  exact scaledSample_eq_some.2 ⟨_, loadSample_eq_some.2 ⟨rfl, hfin⟩, rfl, hprod⟩

/-- The command reads floating samples and multiplies them by the scale of the container `kk` (R120, R140, R141). -/
def ReadsSamples (i : Instr) (kk : Container) : Prop :=
  (∃ m c, f2iShape i = some (kk, m, c)) ∨ (i = .fmrg16 ∧ kk = .int16) ∨ (i = .fmrg24 ∧ kk = .int24)

theorem ReadsSamples.ne_dclr {i : Instr} {kk : Container} (h : ReadsSamples i kk) (c : CtxNum) : i ≠ .dclr c := by
  rintro rfl
  simp [ReadsSamples, f2iShape] at h

/-- A float-to-integer element faults where the quantiser answers nothing for its scaled sample. -/
theorem convertElement_fault_of_quantise {kk : Container} {m : DitherMode} {c : CtxNum} {k : Nat} {s : State}
    {x : Word} (hx : scaledSample kk k s = some x) (hq : quantise m c x s = none) :
    convertElement kk m c k s = .fault (.nonFinite k) := by
  simp only [convertElement, hx, hq]

/-- An element of a command that reads floating samples faults where it has no scaled sample. -/
theorem ReadsSamples.elementOf_fault {i : Instr} {kk : Container} {k : Nat} {s : State} (h : ReadsSamples i kk)
    (hx : scaledSample kk k s = none) : elementOf i k s = .fault (.nonFinite k) := by
  obtain ⟨m, c, hs⟩ | ⟨rfl, rfl⟩ | ⟨rfl, rfl⟩ := h
  · simp only [elementOf_f2i hs, convertElement, hx]
  · simp only [elementOf, mergeElement16, hx]
  · simp only [elementOf, mergeElement24, hx]

/-! ### The noise shaper -/

/-- The filter answers its value exactly where every product and every partial sum is finite (R106). -/
theorem noiseFilter_eq_some {d : DitherCtx} {fe : Word} :
    noiseFilter d = some fe ↔ FilterFinite d ∧ fe = filteredError d := by
  simp only [noiseFilter, Option.bind_eq_bind, Option.bind_eq_some_iff, finite?_eq_some, FilterFinite, filteredError,
    DitherCtx.tap, List.forall_mem_cons, List.not_mem_nil, false_imp_iff, implies_true, and_true]
  constructor
  · rintro ⟨_, ⟨rfl, h0⟩, _, ⟨rfl, h1⟩, _, ⟨rfl, h2⟩, _, ⟨rfl, h3⟩, _, ⟨rfl, h4⟩, _, ⟨rfl, h5⟩, _, ⟨rfl, h6⟩,
      _, ⟨rfl, h7⟩, rfl, h8⟩
    exact ⟨⟨h0, h1, h2, h3, h4, h5, h6, h7, h8⟩, rfl⟩
  · rintro ⟨⟨h0, h1, h2, h3, h4, h5, h6, h7, h8⟩, rfl⟩
    exact ⟨_, ⟨rfl, h0⟩, _, ⟨rfl, h1⟩, _, ⟨rfl, h2⟩, _, ⟨rfl, h3⟩, _, ⟨rfl, h4⟩, _, ⟨rfl, h5⟩, _, ⟨rfl, h6⟩,
      _, ⟨rfl, h7⟩, rfl, h8⟩

/-- The noise-shaping quantiser answers exactly where every operation of R106 and R107 is finite, and then the value
and the context of R107. -/
theorem quantShp_eq_some {x : Word} {w : Draw} {d : DitherCtx} {p : Int × DitherCtx} :
    quantShp x w d = some p ↔ ShapingFinite x w d ∧ p = (shapedValue x w d, shapedContext x w d) := by
  simp only [quantShp, Option.bind_eq_bind, Option.bind_eq_some_iff, noiseFilter_eq_some, finite?_eq_some,
    ShapingFinite, List.forall_mem_cons, List.not_mem_nil, false_imp_iff, implies_true, and_true, Option.some.injEq]
  constructor
  · rintro ⟨_, ⟨hfilter, rfl⟩, _, ⟨rfl, h1⟩, _, ⟨rfl, h2⟩, _, ⟨rfl, h3⟩, _, ⟨rfl, h4⟩, rfl⟩
    exact ⟨⟨hfilter, h1, h2, h3, h4⟩, rfl⟩
  · rintro ⟨⟨hfilter, h1, h2, h3, h4⟩, rfl⟩
    exact ⟨_, ⟨hfilter, rfl⟩, _, ⟨rfl, h1⟩, _, ⟨rfl, h2⟩, _, ⟨rfl, h3⟩, _, ⟨rfl, h4⟩, rfl⟩

theorem quantise_shp_eq_none {c : CtxNum} {x : Word} {s : State} (h : ¬ ShapingFinite x s.nextDraw (s.context c)) :
    quantise .shp c x s = none := by
  have hq : quantShp x s.nextDraw (s.context c) = none :=
    Option.eq_none_iff_forall_not_mem.2 fun p hp => h (quantShp_eq_some.1 hp).1
  simp only [quantise, hq, Option.bind_eq_bind, Option.bind_none]

/-- A noise-shaped element faults where its sample is finite and an operation of the shaper is not. -/
theorem elementOf_fault_of_shaping {i : Instr} {kk : Container} {c : CtxNum} {k : Nat} {s : State}
    (hi : f2iShape i = some (kk, .shp, c)) (hx : SampleFinite (Container.factor kk) s k)
    (hs : ¬ ShapingFinite (scaled (Container.factor kk) s k) s.nextDraw (s.context c)) :
    elementOf i k s = .fault (.nonFinite k) := by
  rw [elementOf_f2i hi]
  exact convertElement_fault_of_quantise (scaledSample_of_sampleFinite hx) (quantise_shp_eq_none hs)

end Sys2Proof.Machine
end

