-- ==== Sys2Proof/Proofs/Patterns.lean ====
section
/-! SUPPORT. Binary32 patterns as numbers (R80): the fields of a pattern by division, what significand and scale a
finite pattern can have, and the pattern of `n` units in the last place. -/

namespace Sys2Proof.Machine

/-! ### The fields of a pattern -/

theorem signBit_eq_decide (b : Word) : signBit b = decide (2 ^ 31 ≤ b.toNat) := by
  have hb : b.toNat < 2 ^ 32 := b.isLt
  rw [signBit, BitVec.getLsbD, Nat.testBit_eq_decide_div_mod_eq, decide_eq_decide]
  omega

theorem expField_eq (b : Word) : expField b = b.toNat / 2 ^ 23 % 2 ^ 8 := by
  rw [expField, BitVec.extractLsb'_toNat, Nat.shiftRight_eq_div_pow]

theorem fracField_eq (b : Word) : fracField b = b.toNat % 2 ^ 23 := by
  rw [fracField, BitVec.extractLsb'_toNat, Nat.shiftRight_zero]

theorem isFinite_iff {b : Word} : isFinite b = true ↔ expField b ≠ 255 := by
  simp [isFinite]

/-! ### Significand and scale -/

theorem significand_lt (b : Word) : significand b < 2 ^ 24 := by
  rw [significand, fracField_eq]
  split <;> omega

theorem neg_149_le_scale (b : Word) : -149 ≤ scale b := by
  rw [scale]
  split <;> omega

/-- Only the smallest scale has subnormal significands. -/
theorem le_significand {b : Word} (h : scale b ≠ -149) : 2 ^ 23 ≤ significand b := by
  rw [scale] at h
  rw [significand]
  split at h
  · exact absurd rfl h
  · next h0 =>
    rw [if_neg h0]
    omega

theorem scale_le {b : Word} (h : isFinite b = true) : scale b ≤ 104 := by
  rw [isFinite_iff] at h
  have hlt : expField b < 2 ^ 8 := by
    rw [expField_eq]
    exact Nat.mod_lt _ (by norm_num)
  rw [scale]
  split <;> omega

/-! ### The pattern of `n` units in the last place -/

/-- The pattern of `± n * 2^ulp`, or of the infinity from 2^128 on (R81). -/
def pattern (neg : Bool) (n : Nat) (ulp : Int) : Word :=
  BitVec.ofNat 32 ((if neg then 2 ^ 31 else 0) + magnitudeBits n ulp)

theorem magnitudeBits_le (n : Nat) (ulp : Int) : magnitudeBits n ulp ≤ 255 * 2 ^ 23 := by
  simp only [magnitudeBits]
  split <;> omega

theorem toNat_pattern (neg : Bool) (n : Nat) (ulp : Int) :
    (pattern neg n ulp).toNat = (if neg then 2 ^ 31 else 0) + magnitudeBits n ulp := by
  have h := magnitudeBits_le n ulp
  rw [pattern, BitVec.toNat_ofNat, Nat.mod_eq_of_lt]
  split <;> omega

theorem signBit_pattern (neg : Bool) (n : Nat) (ulp : Int) : signBit (pattern neg n ulp) = neg := by
  have h := magnitudeBits_le n ulp
  rw [signBit_eq_decide, toNat_pattern]
  cases neg
  · simpa using by omega
  · simp

theorem expField_pattern (neg : Bool) (n : Nat) (ulp : Int) :
    expField (pattern neg n ulp) = magnitudeBits n ulp / 2 ^ 23 := by
  have h := magnitudeBits_le n ulp
  rw [expField_eq, toNat_pattern]
  split <;> omega

theorem fracField_pattern (neg : Bool) (n : Nat) (ulp : Int) :
    fracField (pattern neg n ulp) = magnitudeBits n ulp % 2 ^ 23 := by
  rw [fracField_eq, toNat_pattern]
  split <;> omega

theorem isFinite_pattern {neg : Bool} {n : Nat} {ulp : Int} :
    isFinite (pattern neg n ulp) = true ↔ (ulp + 149).toNat * 2 ^ 23 + n < 255 * 2 ^ 23 := by
  rw [isFinite_iff, expField_pattern]
  simp only [magnitudeBits]
  split <;> omega

/-- A finite pattern made of at most 2^24 units, of fewer than 2^23 only at the smallest unit, has these units for its
significand; 2^24 of them are 2^23 of the next unit (R81). -/
theorem significand_scale_pattern {neg : Bool} {n : Nat} {ulp : Int} (hulp : -149 ≤ ulp)
    (hnormal : ulp ≠ -149 → 2 ^ 23 ≤ n) (hn : n ≤ 2 ^ 24) (hfin : isFinite (pattern neg n ulp) = true) :
    (significand (pattern neg n ulp) = n ∧ scale (pattern neg n ulp) = ulp) ∨
    (n = 2 ^ 24 ∧ significand (pattern neg n ulp) = 2 ^ 23 ∧ scale (pattern neg n ulp) = ulp + 1) := by
  rw [isFinite_pattern] at hfin
  rw [significand, scale, expField_pattern, fracField_pattern]
  simp only [magnitudeBits, if_neg (Nat.not_le.2 hfin)]
  split <;> omega

/-- A finite pattern is that of its own significand, scale and sign. -/
theorem pattern_significand_scale {b : Word} (h : isFinite b = true) :
    pattern (signBit b) (significand b) (scale b) = b := by
  have hb : b.toNat < 2 ^ 32 := b.isLt
  rw [isFinite_iff, expField_eq] at h
  have hmag : magnitudeBits (significand b) (scale b) = b.toNat % 2 ^ 31 := by
    simp only [magnitudeBits, significand, scale, expField_eq, fracField_eq]
    split <;> split <;> omega
  refine BitVec.eq_of_toNat_eq ?_
  rw [toNat_pattern, hmag, signBit_eq_decide]
  simp only [decide_eq_true_eq]
  split <;> omega

theorem zeroOf_eq_pattern (neg : Bool) : zeroOf neg = pattern neg 0 (-149) := by
  cases neg <;> rfl

/-! ### Values -/

/-- `x` with a sign. -/
def applySign (neg : Bool) (x : ℚ) : ℚ := if neg then -x else x

theorem abs_applySign (neg : Bool) (x : ℚ) : |applySign neg x| = |x| := by
  cases neg <;> simp [applySign]

theorem applySign_eq_zero {neg : Bool} {x : ℚ} : applySign neg x = 0 ↔ x = 0 := by
  cases neg <;> simp [applySign]

@[simp] theorem applySign_zero (neg : Bool) : applySign neg 0 = 0 := applySign_eq_zero.2 rfl

@[simp] theorem applySign_applySign (neg : Bool) (x : ℚ) : applySign neg (applySign neg x) = x := by
  cases neg <;> simp [applySign]

theorem applySign_mul_right (neg : Bool) (x y : ℚ) : applySign neg (x * y) = applySign neg x * y := by
  cases neg <;> simp [applySign]

theorem applySign_mul (s t : Bool) (x y : ℚ) : applySign s x * applySign t y = applySign (s != t) (x * y) := by
  cases s <;> cases t <;> simp [applySign]

theorem applySign_div (s t : Bool) (x y : ℚ) : applySign s x / applySign t y = applySign (s != t) (x / y) := by
  cases s <;> cases t <;> simp [applySign, neg_div, div_neg]

/-- The distance to a signed number is that to its magnitude, with the sign moved over. -/
theorem abs_sub_applySign (neg : Bool) (x v : ℚ) : |v - applySign neg x| = |applySign neg v - x| := by
  cases neg
  · rfl
  · simp only [applySign, if_true, sub_neg_eq_add]
    rw [← abs_neg, neg_add']

theorem applySign_decide_natAbs (m : Int) : applySign (decide (m < 0)) (m.natAbs : ℚ) = m := by
  rw [Nat.cast_natAbs]
  by_cases h : m < 0
  · simp [applySign, h, abs_of_neg h]
  · simp [applySign, h, abs_of_nonneg (not_lt.1 h)]

theorem value_eq_applySign (b : Word) : value b = applySign (signBit b) (significand b * (2 : ℚ) ^ scale b) := by
  cases h : signBit b <;> simp [value, signedSig, applySign, h]

theorem abs_value (b : Word) : |value b| = significand b * (2 : ℚ) ^ scale b := by
  rw [value_eq_applySign, abs_applySign, abs_of_nonneg (by positivity)]

theorem value_eq_zero_iff {b : Word} : value b = 0 ↔ significand b = 0 := by
  rw [value_eq_applySign, applySign_eq_zero]
  simp [zpow_ne_zero]

/-- A value as an integer times a power of two that is no larger than its scale. -/
theorem value_eq_units {b : Word} {e : Int} (h : e ≤ scale b) :
    value b = (signedSig b * (2 ^ (scale b - e).toNat : Nat) : Int) * (2 : ℚ) ^ e := by
  obtain ⟨j, hj⟩ := Int.le.dest h
  rw [value, ← hj, add_sub_cancel_left, Int.toNat_natCast, zpow_add₀ two_ne_zero, zpow_natCast]
  push_cast
  ring

theorem signedSig_natAbs (b : Word) : (signedSig b).natAbs = significand b := by
  rw [signedSig]
  split <;> simp

theorem decide_signedSig_neg {b : Word} (h : significand b ≠ 0) : decide (signedSig b < 0) = signBit b := by
  rw [signedSig]
  cases signBit b <;> simp; omega

/-- A significand at a smaller scale is below every normal number. -/
theorem mul_zpow_lt_normal {m : Nat} {u ulp : Int} (hm : m < 2 ^ 24) (h : u < ulp) :
    (m : ℚ) * 2 ^ u < 2 ^ 23 * 2 ^ ulp := by
  have hm' : (m : ℚ) < 2 ^ 24 := by exact_mod_cast hm
  calc (m : ℚ) * 2 ^ u < 2 ^ 24 * 2 ^ u := by gcongr
    _ = 2 ^ 23 * 2 ^ (u + 1) := by rw [zpow_add_one₀ two_ne_zero]; ring
    _ ≤ 2 ^ 23 * 2 ^ ulp := by
      gcongr
      · norm_num
      · omega

/-- A finite value is below 2^128 by at least one unit in the last place. -/
theorem abs_value_lt {b : Word} (h : isFinite b = true) : |value b| < 2 ^ 128 - 2 ^ 103 := by
  have hsig : (significand b : ℚ) ≤ 2 ^ 24 - 1 := by
    have := significand_lt b
    rw [le_sub_iff_add_le]
    exact_mod_cast this
  calc |value b| = significand b * (2 : ℚ) ^ scale b := abs_value b
    _ ≤ (2 ^ 24 - 1) * (2 : ℚ) ^ (104 : Int) := by
      refine mul_le_mul hsig (zpow_le_zpow_right₀ (by norm_num) (scale_le h)) (by positivity) (by norm_num)
    _ < 2 ^ 128 - 2 ^ 103 := by norm_num

/-- A finite pattern of `n` units in the last place has that value. -/
theorem value_pattern {neg : Bool} {n : Nat} {ulp : Int} (hulp : -149 ≤ ulp) (hnormal : ulp ≠ -149 → 2 ^ 23 ≤ n)
    (hn : n ≤ 2 ^ 24) (hfin : isFinite (pattern neg n ulp) = true) :
    value (pattern neg n ulp) = applySign neg (n * (2 : ℚ) ^ ulp) := by
  rw [value_eq_applySign, signBit_pattern]
  obtain ⟨hsig, hscale⟩ | ⟨rfl, hsig, hscale⟩ := significand_scale_pattern hulp hnormal hn hfin
  · rw [hsig, hscale]
  · rw [hsig, hscale, zpow_add_one₀ (by norm_num)]
    congr 1
    push_cast
    ring

/-! ### The negated pattern -/

theorem signBit_fneg (b : Word) : signBit (fneg b) = !signBit b := by
  simp [signBit, fneg]

theorem expField_fneg (b : Word) : expField (fneg b) = expField b := by
  simp [expField, fneg, BitVec.extractLsb'_xor]

theorem fracField_fneg (b : Word) : fracField (fneg b) = fracField b := by
  simp [fracField, fneg, BitVec.extractLsb'_xor]

theorem significand_fneg (b : Word) : significand (fneg b) = significand b := by
  rw [significand, significand, expField_fneg, fracField_fneg]

theorem scale_fneg (b : Word) : scale (fneg b) = scale b := by
  rw [scale, scale, expField_fneg]

theorem signedSig_fneg (b : Word) : signedSig (fneg b) = -signedSig b := by
  rw [signedSig, signedSig, signBit_fneg, significand_fneg]
  cases signBit b <;> simp

theorem value_fneg (b : Word) : value (fneg b) = -value b := by
  rw [value, value, signedSig_fneg, scale_fneg]
  push_cast
  ring

end Sys2Proof.Machine
end

