-- ==== Sys2Proof/Proofs/Rounding.lean ====
section
/-! SUPPORT. Rounding half to even, and the one rounding of R81: what `rnd32` makes of a positive number, in terms of
the number and the unit in the last place. -/

namespace Sys2Proof.Machine

/-! ### Half to even -/

/-- `n` is the integer nearest `y`, on a tie the even one (R81, R85). -/
def IsHalfEven (y : ℚ) (n : Int) : Prop := |(n : ℚ) - y| ≤ 1 / 2 ∧ (|(n : ℚ) - y| = 1 / 2 → n % 2 = 0)

/-- The rule by which the model rounds a quotient: by the size of the rest of the division and, on a tie, the
parity. -/
theorem isHalfEven_of_ediv (m : Int) {d : Int} (hd : 0 < d) :
    IsHalfEven ((m : ℚ) / d)
      (if 2 * (m % d) < d then m / d else if d < 2 * (m % d) then m / d + 1
        else if m / d % 2 = 0 then m / d else m / d + 1) := by
  have hd' : (0 : ℚ) < d := by exact_mod_cast hd
  have hy : (m : ℚ) / d = (m / d : Int) + ((m % d : Int) : ℚ) / d := by
    have hm : (d : ℚ) * (m / d : Int) + (m % d : Int) = m := by exact_mod_cast Int.mul_ediv_add_emod m d
    rw [div_eq_iff hd'.ne', add_mul, div_mul_cancel₀ _ hd'.ne', mul_comm, hm]
  have hr0 := Int.emod_nonneg m hd.ne'
  have hr1 := Int.emod_lt_of_pos m hd
  rw [hy]
  generalize m / d = q at *
  generalize m % d = r at *
  have hfrac0 : (0 : ℚ) ≤ r / d := div_nonneg (by exact_mod_cast hr0) hd'.le
  have hfrac1 : (r : ℚ) / d < 1 := (div_lt_one hd').2 (by exact_mod_cast hr1)
  have below : (r : ℚ) / d < 1 / 2 ↔ 2 * r < d := by
    rw [div_lt_div_iff₀ hd' two_pos, one_mul, mul_comm]
    exact_mod_cast Iff.rfl
  have above : (1 : ℚ) / 2 < r / d ↔ d < 2 * r := by
    rw [div_lt_div_iff₀ two_pos hd', one_mul, mul_comm (r : ℚ)]
    exact_mod_cast Iff.rfl
  have down : |(q : ℚ) - (q + r / d)| = r / d := by rw [abs_sub_comm, add_sub_cancel_left, abs_of_nonneg hfrac0]
  have up : |((q + 1 : Int) : ℚ) - (q + r / d)| = 1 - r / d := by
    rw [Int.cast_add, Int.cast_one, add_sub_add_left_eq_sub, abs_of_pos (sub_pos.2 hfrac1)]
  unfold IsHalfEven
  split_ifs with hlt hgt heven
  · have := below.2 hlt
    exact ⟨by rw [down]; exact this.le, fun h => absurd (down ▸ h) this.ne⟩
  · have := above.2 hgt
    exact ⟨by rw [up]; linarith, fun h => by rw [up] at h; linarith⟩
  · exact ⟨by rw [down]; exact not_lt.1 (mt above.1 hgt), fun _ => heven⟩
  · have := not_lt.1 (mt below.1 hlt)
    exact ⟨by rw [up]; linarith, fun _ => by omega⟩

theorem isHalfEven_divHalfEven (num : Nat) {den : Nat} (h : den ≠ 0) :
    IsHalfEven ((num : ℚ) / den) (divHalfEven num den : Nat) := by
  have hround := isHalfEven_of_ediv num (d := den) (by omega)
  rw [Int.cast_natCast, Int.cast_natCast] at hround
  convert hround using 1
  simp only [divHalfEven]
  split_ifs <;> omega

theorem isHalfEven_roundShift (m : Int) (k : Nat) : IsHalfEven ((m : ℚ) / (2 ^ k : Nat)) (roundShift m k) :=
  isHalfEven_of_ediv m (d := (2 ^ k : Nat)) (by positivity)

theorem isHalfEven_int (k : Int) : IsHalfEven k k := by
  rw [IsHalfEven, sub_self, abs_zero]
  norm_num

section
variable {y : ℚ} {n k : Int}

theorem IsHalfEven.bounds (h : IsHalfEven y n) : y - 1 / 2 ≤ n ∧ (n : ℚ) ≤ y + 1 / 2 := by
  obtain ⟨hle, -⟩ := h
  rw [abs_le] at hle
  exact ⟨by linarith, by linarith⟩

/-- An integer is half away or more from what rounds to another integer. -/
theorem IsHalfEven.half_le (h : IsHalfEven y n) (hk : k ≠ n) : 1 / 2 ≤ |(k : ℚ) - y| := by
  obtain ⟨hle, -⟩ := h
  have hdist : (1 : ℚ) ≤ |(k : ℚ) - n| := by exact_mod_cast Int.one_le_abs (sub_ne_zero.2 hk)
  have htri : |(k : ℚ) - n| ≤ |(k : ℚ) - y| + |(n : ℚ) - y| := by
    rw [abs_sub_comm (n : ℚ) y]
    exact abs_sub_le _ _ _
  linarith

/-- No integer is nearer, and another one as near makes it even. -/
theorem IsHalfEven.nearest (h : IsHalfEven y n) (k : Int) :
    |(n : ℚ) - y| ≤ |(k : ℚ) - y| ∧ (|(n : ℚ) - y| = |(k : ℚ) - y| → k ≠ n → n % 2 = 0) := by
  by_cases hk : k = n
  · exact ⟨by rw [hk], fun _ hne => absurd hk hne⟩
  · have hhalf := h.half_le hk
    obtain ⟨hle, heven⟩ := h
    exact ⟨hle.trans hhalf, fun heq _ => heven (le_antisymm hle (heq ▸ hhalf))⟩

/-- An integer rounds to itself. -/
theorem IsHalfEven.eq_of_int (h : IsHalfEven (k : ℚ) n) : n = k := by
  by_contra hne
  have := h.half_le (Ne.symm hne)
  norm_num at this

/-- An even number is reached from half below it on: the tie goes up to it. -/
theorem IsHalfEven.lt_iff (h : IsHalfEven y n) (hk : k % 2 = 0) : n < k ↔ y < k - 1 / 2 := by
  obtain ⟨hlo, hhi⟩ := h.bounds
  refine ⟨fun hn => ?_, fun hy => by exact_mod_cast (by linarith : (n : ℚ) < k)⟩
  by_contra hy
  rw [not_lt] at hy
  have hn' : (n : ℚ) ≤ k - 1 := by exact_mod_cast Int.le_sub_one_of_lt hn
  obtain rfl : n = k - 1 := by exact_mod_cast (by linarith : (n : ℚ) = k - 1)
  have htie : |((k - 1 : Int) : ℚ) - y| = 1 / 2 := by
    rw [abs_sub_comm, abs_of_nonneg (by linarith)]
    linarith
  have := h.2 htie
  omega

/-- The four cases of R85, by the floor and the rest. -/
theorem IsHalfEven.floor_cases (h : IsHalfEven y n) :
    (y - ⌊y⌋ < 1 / 2 → n = ⌊y⌋) ∧ (1 / 2 < y - ⌊y⌋ → n = ⌊y⌋ + 1) ∧
    (y - ⌊y⌋ = 1 / 2 → ⌊y⌋ % 2 = 0 → n = ⌊y⌋) ∧ (y - ⌊y⌋ = 1 / 2 → ⌊y⌋ % 2 = 1 → n = ⌊y⌋ + 1) := by
  obtain ⟨hlo, hhi⟩ := h.bounds
  have hfloor := Int.floor_le y
  have hceil := Int.lt_floor_add_one y
  have hge : ⌊y⌋ ≤ n := by
    have : ((⌊y⌋ : Int) : ℚ) < (n + 1 : Int) := by push_cast; linarith
    exact Int.lt_add_one_iff.1 (by exact_mod_cast this)
  have hle : n ≤ ⌊y⌋ + 1 := by
    have : (n : ℚ) < (⌊y⌋ + 1 + 1 : Int) := by push_cast; linarith
    exact Int.lt_add_one_iff.1 (by exact_mod_cast this)
  have htie : y - ⌊y⌋ = 1 / 2 → n % 2 = 0 := fun hy => by
    refine h.2 ?_
    obtain rfl | rfl : n = ⌊y⌋ ∨ n = ⌊y⌋ + 1 := by omega
    · rw [abs_sub_comm, hy, abs_of_pos (by norm_num)]
    · rw [abs_of_nonneg (by push_cast; linarith)]
      push_cast
      linarith
  refine ⟨fun hy => ?_, fun hy => ?_, fun hy hpar => ?_, fun hy hpar => ?_⟩
  · have : (n : ℚ) < (⌊y⌋ + 1 : Int) := by push_cast; linarith
    have : n < ⌊y⌋ + 1 := by exact_mod_cast this
    omega
  · have : ((⌊y⌋ : Int) : ℚ) < n := by linarith
    have : ⌊y⌋ < n := by exact_mod_cast this
    omega
  · have := htie hy
    omega
  · have := htie hy
    omega

end

/-! ### The exponent and the units -/

/-- The comparison by which `floorLog2` finds the exponent. -/
theorem zpow_le_div_iff {num den : Nat} (h : den ≠ 0) (k : Int) :
    (2 : ℚ) ^ k ≤ (num : ℚ) / den ↔
      (if 0 ≤ k then decide (den * 2 ^ k.toNat ≤ num) else decide (den ≤ num * 2 ^ (-k).toNat)) = true := by
  have hden : (0 : ℚ) < den := by exact_mod_cast Nat.pos_of_ne_zero h
  split <;> rw [decide_eq_true_eq]
  · next hk =>
    obtain ⟨j, rfl⟩ := Int.eq_ofNat_of_zero_le hk
    rw [le_div_iff₀ hden, mul_comm, Int.toNat_natCast, zpow_natCast]
    norm_cast
  · next hk =>
    obtain ⟨j, hj⟩ := Int.eq_ofNat_of_zero_le (show 0 ≤ -k by omega)
    obtain rfl : k = -j := by omega
    rw [neg_neg, Int.toNat_natCast, zpow_neg, zpow_natCast, ← one_div, div_le_div_iff₀ (by positivity) hden, one_mul]
    norm_cast

/-- The difference of the logarithms is the exponent of a quotient, or one above it. -/
theorem div_log2_bounds {num den : Nat} (hn : num ≠ 0) (hd : den ≠ 0) :
    (2 : ℚ) ^ ((Nat.log2 num : Int) - Nat.log2 den - 1) ≤ (num : ℚ) / den ∧
    (num : ℚ) / den < 2 ^ ((Nat.log2 num : Int) - Nat.log2 den + 1) := by
  have hden : (0 : ℚ) < den := by exact_mod_cast Nat.pos_of_ne_zero hd
  have hnlo : (2 : ℚ) ^ Nat.log2 num ≤ num := by exact_mod_cast Nat.log2_self_le hn
  have hnhi : (num : ℚ) < 2 ^ (Nat.log2 num + 1) := by exact_mod_cast Nat.lt_log2_self
  have hdlo : (2 : ℚ) ^ Nat.log2 den ≤ den := by exact_mod_cast Nat.log2_self_le hd
  have hdhi : (den : ℚ) < 2 ^ (Nat.log2 den + 1) := by exact_mod_cast Nat.lt_log2_self
  constructor
  · rw [sub_sub, zpow_sub₀ two_ne_zero, zpow_natCast]
    exact div_le_div₀ (by positivity) hnlo hden (by exact_mod_cast hdhi.le)
  · rw [sub_add_eq_add_sub, zpow_sub₀ two_ne_zero, zpow_natCast]
    exact div_lt_div₀ (by exact_mod_cast hnhi) hdlo (by positivity) (by positivity)

/-- `floorLog2` decides between the two candidates. -/
theorem floorLog2_eq_ite (num : Nat) {den : Nat} (h : den ≠ 0) (exp : Int) :
    floorLog2 num den exp =
      (if (2 : ℚ) ^ ((Nat.log2 num : Int) - Nat.log2 den) ≤ (num : ℚ) / den then (Nat.log2 num : Int) - Nat.log2 den
        else (Nat.log2 num : Int) - Nat.log2 den - 1) + exp :=
  congrArg (· + exp) (if_congr (zpow_le_div_iff h _).symm rfl rfl)

/-- `floorLog2` is the exponent of the number (R81). -/
theorem floorLog2_spec {num den : Nat} (hn : num ≠ 0) (hd : den ≠ 0) (exp : Int) :
    (2 : ℚ) ^ floorLog2 num den exp ≤ (num : ℚ) / den * 2 ^ exp ∧
    (num : ℚ) / den * 2 ^ exp < 2 ^ (floorLog2 num den exp + 1) := by
  obtain ⟨hlo, hhi⟩ := div_log2_bounds hn hd
  rw [floorLog2_eq_ite num hd, add_right_comm, zpow_add₀ two_ne_zero, zpow_add₀ two_ne_zero _ exp,
    mul_le_mul_iff_left₀ (by positivity), mul_lt_mul_iff_left₀ (by positivity)]
  split
  · next h => exact ⟨h, hhi⟩
  · next h => exact ⟨hlo, by rw [sub_add_cancel]; exact not_le.1 h⟩

theorem isHalfEven_roundToUlp (num : Nat) {den : Nat} (h : den ≠ 0) (exp ulp : Int) :
    IsHalfEven ((num : ℚ) / den * 2 ^ exp / 2 ^ ulp) (roundToUlp num den exp ulp : Nat) := by
  have hden : (den : ℚ) ≠ 0 := by exact_mod_cast h
  rw [mul_div_assoc, ← zpow_sub₀ two_ne_zero, roundToUlp]
  split
  · next hle =>
    have hround := isHalfEven_divHalfEven (num * 2 ^ (exp - ulp).toNat) h
    rwa [Nat.cast_mul, Nat.cast_pow, ← zpow_natCast, Int.toNat_of_nonneg (by omega), mul_div_right_comm] at hround
  · next hlt =>
    have hround := isHalfEven_divHalfEven num (den := den * 2 ^ (ulp - exp).toNat) (by positivity)
    rwa [Nat.cast_mul, Nat.cast_pow, ← zpow_natCast, Int.toNat_of_nonneg (by omega), ← div_div,
      div_eq_mul_inv _ (_ ^ _), Nat.cast_ofNat, ← zpow_neg, neg_sub] at hround

/-! ### One rounding -/

/-- `n` units of `2^ulp` are what the rounding of R81 makes of `x`: the unit is that of the exponent of `x`, or the
smallest one, and the number of units is rounded half to even. -/
structure Rounded (x : ℚ) (n : Nat) (ulp : Int) : Prop where
  nonneg : 0 ≤ x
  ulp_ge : -149 ≤ ulp
  normal : ulp ≠ -149 → 2 ^ 23 ≤ x / 2 ^ ulp
  lt : x / 2 ^ ulp < 2 ^ 24
  halfEven : IsHalfEven (x / 2 ^ ulp) n

/-- `rnd32` rounds a positive number by R81. -/
theorem exists_rounded_rnd32 (neg : Bool) {num den : Nat} (hn : num ≠ 0) (hd : den ≠ 0) (exp : Int) :
    ∃ n ulp, Rounded ((num : ℚ) / den * 2 ^ exp) n ulp ∧ rnd32 neg num den exp = pattern neg n ulp := by
  obtain ⟨hlo, hhi⟩ := floorLog2_spec hn hd exp
  set e := max (floorLog2 num den exp) (-126) with he
  refine ⟨roundToUlp num den exp (e - 23), e - 23, ⟨by positivity, by omega, fun h => ?_, ?_,
    isHalfEven_roundToUlp num hd exp _⟩, ?_⟩
  · have hexp : ((23 : Nat) : Int) + (e - 23) = floorLog2 num den exp := by omega
    rwa [le_div_iff₀ (by positivity), ← zpow_natCast, ← zpow_add₀ two_ne_zero, hexp]
  · rw [div_lt_iff₀ (by positivity), ← zpow_natCast, ← zpow_add₀ two_ne_zero]
    exact hhi.trans_le (zpow_le_zpow_right₀ (by norm_num) (by omega))
  · simp only [rnd32, pattern, ← he]
    cases neg <;> simp

/-- Zero is zero units of the smallest one. -/
theorem rounded_zero : Rounded 0 0 (-149) :=
  ⟨le_rfl, le_rfl, fun h => absurd rfl h, by norm_num, by norm_num [IsHalfEven]⟩

/-- A distance, in units of `2^ulp`. -/
theorem abs_mul_zpow_sub (y x : ℚ) (ulp : Int) : |y * 2 ^ ulp - x| = |y - x / 2 ^ ulp| * 2 ^ ulp := by
  have hpos : (0 : ℚ) < 2 ^ ulp := by positivity
  calc |y * 2 ^ ulp - x| = |(y - x / 2 ^ ulp) * 2 ^ ulp| := by rw [sub_mul, div_mul_cancel₀ _ hpos.ne']
    _ = |y - x / 2 ^ ulp| * 2 ^ ulp := by rw [abs_mul, abs_of_pos hpos]

section
variable {x : ℚ} {n : Nat} {ulp : Int}

theorem Rounded.le (h : Rounded x n ulp) : n ≤ 2 ^ 24 := by
  obtain ⟨-, hhi⟩ := h.halfEven.bounds
  have hlt := h.lt
  have : (n : ℚ) < (2 ^ 24 + 1 : Nat) := by
    push_cast at hhi ⊢
    linarith
  exact Nat.lt_add_one_iff.1 (by exact_mod_cast this)

theorem Rounded.le_of_normal (h : Rounded x n ulp) (hulp : ulp ≠ -149) : 2 ^ 23 ≤ n := by
  obtain ⟨hlo, -⟩ := h.halfEven.bounds
  have hnormal := h.normal hulp
  have : ((2 ^ 23 : Nat) : ℚ) < (n + 1 : Nat) := by
    push_cast at hlo ⊢
    linarith
  exact Nat.lt_add_one_iff.1 (by exact_mod_cast this)

theorem Rounded.value_pattern (h : Rounded x n ulp) {neg : Bool} (hfin : isFinite (pattern neg n ulp) = true) :
    value (pattern neg n ulp) = applySign neg (n * (2 : ℚ) ^ ulp) :=
  Machine.value_pattern h.ulp_ge h.le_of_normal h.le hfin

end

end Sys2Proof.Machine
end

