-- ==== Sys2Proof/Proofs/Operations.lean ====
section
/-! SUPPORT. The rounding of R81 seen from outside: a rounded pattern is a nearest finite one, it overflows from
2^128 - 2^103 on, and it is exact where a pattern holds the number. Then: each operation of R82 and R83 rounds its exact
result once. -/

namespace Sys2Proof.Machine

open Sys2Proof.Claims

/-! ### Overflow -/

section
variable {x : ℚ} {n : Nat} {ulp : Int} {neg : Bool}

/-- The rounded number is finite exactly below half a unit under 2^128 (R81). -/
theorem Rounded.isFinite_iff (h : Rounded x n ulp) :
    isFinite (pattern neg n ulp) = true ↔ x < 2 ^ 128 - 2 ^ 103 := by
  have hx : x = x / 2 ^ ulp * 2 ^ ulp := (div_mul_cancel₀ x (by positivity)).symm
  have hge := h.ulp_ge
  have hle := h.le
  have hlt := h.lt
  rw [isFinite_pattern]
  obtain hulp | rfl | hulp : ulp ≤ 103 ∨ ulp = 104 ∨ 105 ≤ ulp := by omega
  · refine iff_of_true (by omega) ?_
    calc x = x / 2 ^ ulp * 2 ^ ulp := hx
      _ ≤ 2 ^ 24 * 2 ^ (103 : Int) :=
        mul_le_mul hlt.le (zpow_le_zpow_right₀ (by norm_num) hulp) (by positivity) (by norm_num)
      _ < 2 ^ 128 - 2 ^ 103 := by norm_num
  · have hbits : n < 2 ^ 24 ↔ x / 2 ^ (104 : Int) < ((2 ^ 24 : Int) : ℚ) - 1 / 2 := by
      rw [← h.halfEven.lt_iff (by norm_num)]
      norm_cast
    have hthreshold : (2 : ℚ) ^ 128 - 2 ^ 103 = (((2 ^ 24 : Int) : ℚ) - 1 / 2) * 2 ^ (104 : Int) := by norm_num
    rw [hthreshold, ← div_lt_iff₀ (by positivity), ← hbits]
    omega
  · have hnormal := h.normal (by omega)
    have hn := h.le_of_normal (by omega)
    refine iff_of_false (by omega) (not_lt.2 ?_)
    calc (2 : ℚ) ^ 128 - 2 ^ 103 ≤ 2 ^ 23 * 2 ^ (105 : Int) := by norm_num
      _ ≤ x / 2 ^ ulp * 2 ^ ulp :=
        mul_le_mul hnormal (zpow_le_zpow_right₀ (by norm_num) hulp) (by positivity) (by positivity)
      _ = x := hx.symm

/-! ### The nearest pattern -/

/-- A finite value is a whole number of units, or it is below every normal number of these units. -/
theorem exists_units_or_lt (z : Word) (neg : Bool) (ulp : Int) :
    (∃ k : Int, applySign neg (value z) = k * (2 : ℚ) ^ ulp) ∨
    (ulp ≠ -149 ∧ |applySign neg (value z)| < 2 ^ 23 * (2 : ℚ) ^ ulp) := by
  have hscale := neg_149_le_scale z
  by_cases h : ulp ≤ scale z
  · left
    have hval := value_eq_units h
    cases neg
    · exact ⟨_, hval⟩
    · refine ⟨-(signedSig z * (2 ^ (scale z - ulp).toNat : Nat)), ?_⟩
      rw [applySign, if_pos rfl, hval, Int.cast_neg, neg_mul]
  · right
    rw [abs_applySign, abs_value]
    exact ⟨by omega, mul_zpow_lt_normal (significand_lt z) (not_le.1 h)⟩

/-- What is below every normal number of units is farther from a normal number than the number it rounds to. -/
theorem Rounded.lt_of_subnormal (h : Rounded x n ulp) (hulp : ulp ≠ -149) {v : ℚ}
    (hv : |v| < 2 ^ 23 * (2 : ℚ) ^ ulp) : |n * (2 : ℚ) ^ ulp - x| < |v - x| := by
  have hpos : (0 : ℚ) < 2 ^ ulp := by positivity
  have hnormal := h.normal hulp
  obtain ⟨hle, -⟩ := h.halfEven.nearest (2 ^ 23)
  calc |n * (2 : ℚ) ^ ulp - x| = |(n : ℚ) - x / 2 ^ ulp| * 2 ^ ulp := abs_mul_zpow_sub _ _ _
    _ ≤ |2 ^ 23 - x / 2 ^ ulp| * 2 ^ ulp :=
      mul_le_mul_of_nonneg_right (by exact_mod_cast hle) hpos.le
    _ = x - 2 ^ 23 * 2 ^ ulp := by
      rw [abs_sub_comm, abs_of_nonneg (sub_nonneg.2 hnormal), sub_mul, div_mul_cancel₀ _ hpos.ne']
    _ < x - |v| := by gcongr
    _ ≤ |v - x| := by
      rw [abs_sub_comm]
      exact (sub_le_sub_right (le_abs_self x) _).trans (abs_sub_abs_le_abs_sub x v)

/-- The rounded number is no farther from the exact one than any finite pattern, and another one as near makes its
number of units even. -/
theorem Rounded.nearest (h : Rounded x n ulp) (z : Word) (neg : Bool) :
    |n * (2 : ℚ) ^ ulp - x| ≤ |applySign neg (value z) - x| ∧
    (|n * (2 : ℚ) ^ ulp - x| = |applySign neg (value z) - x| → applySign neg (value z) ≠ n * (2 : ℚ) ^ ulp →
      n % 2 = 0) := by
  have hpos : (0 : ℚ) < 2 ^ ulp := by positivity
  obtain ⟨k, hk⟩ | ⟨hulp, hlt⟩ := exists_units_or_lt z neg ulp
  · obtain ⟨hle, heven⟩ := h.halfEven.nearest k
    rw [hk, abs_mul_zpow_sub, abs_mul_zpow_sub]
    refine ⟨mul_le_mul_of_nonneg_right (by exact_mod_cast hle) hpos.le, fun heq hne => ?_⟩
    have hpar := heven (by exact_mod_cast mul_right_cancel₀ hpos.ne' heq) fun hkn => hne (by rw [hkn]; rfl)
    omega
  · have := h.lt_of_subnormal hulp hlt
    exact ⟨this.le, fun heq => absurd heq this.ne⟩

/-- The pattern's significand has the parity of its number of units. -/
theorem Rounded.significand_mod_two (h : Rounded x n ulp) (hfin : isFinite (pattern neg n ulp) = true) :
    significand (pattern neg n ulp) % 2 = n % 2 := by
  obtain ⟨hsig, -⟩ | ⟨rfl, hsig, -⟩ := significand_scale_pattern h.ulp_ge h.le_of_normal h.le hfin
  · rw [hsig]
  · rw [hsig]
    norm_num

/-! ### Exactness -/

/-- Of a number with at most 24 bits nothing is rounded away. -/
theorem Rounded.exact (h : Rounded x n ulp) {m : Nat} {u : Int} (hm : m < 2 ^ 24) (hu : -149 ≤ u)
    (hx : x = m * (2 : ℚ) ^ u) : ulp ≤ u ∧ n * (2 : ℚ) ^ ulp = x := by
  have hpos : (0 : ℚ) < 2 ^ ulp := by positivity
  have hulp : ulp ≤ u := by
    by_contra hlt
    have hnormal := h.normal (by omega)
    rw [le_div_iff₀ hpos, hx] at hnormal
    exact hnormal.not_gt (mul_zpow_lt_normal hm (not_le.1 hlt))
  obtain ⟨j, rfl⟩ := Int.le.dest hulp
  have hunits : x / 2 ^ ulp = ((m * 2 ^ j : Int) : ℚ) := by
    rw [hx, zpow_add₀ two_ne_zero, zpow_natCast, mul_left_comm, mul_div_cancel_left₀ _ hpos.ne']
    push_cast
    rfl
  have hround := h.halfEven
  rw [hunits] at hround
  have hn : ((n : Int) : ℚ) = x / 2 ^ ulp := by rw [hround.eq_of_int, hunits]
  exact ⟨hulp, by rw [← Int.cast_natCast, hn, div_mul_cancel₀ _ hpos.ne']⟩

/-- A significand with a scale, as a pattern has them (R80), is rounded to itself. -/
theorem Rounded.unique (h : Rounded x n ulp) {m : Nat} {u : Int} (hm : m < 2 ^ 24) (hu : -149 ≤ u)
    (hnormal : u ≠ -149 → 2 ^ 23 ≤ m) (hx : x = m * (2 : ℚ) ^ u) : ulp = u ∧ n = m := by
  have hpos : (0 : ℚ) < 2 ^ ulp := by positivity
  obtain ⟨hulp, hexact⟩ := h.exact hm hu hx
  obtain rfl : ulp = u := by
    by_contra hne
    have hge := h.ulp_ge
    have hm' : (2 : ℚ) ^ 23 ≤ m := by exact_mod_cast hnormal (by omega)
    have hlt := h.lt
    rw [div_lt_iff₀ hpos, hx] at hlt
    have : (2 : ℚ) ^ 24 * 2 ^ ulp ≤ m * 2 ^ u := calc
      (2 : ℚ) ^ 24 * 2 ^ ulp = 2 ^ 23 * 2 ^ (ulp + 1) := by rw [zpow_add_one₀ two_ne_zero]; ring
      _ ≤ 2 ^ 23 * 2 ^ u := by
        gcongr
        · norm_num
        · omega
      _ ≤ m * 2 ^ u := by gcongr
    linarith
  refine ⟨rfl, ?_⟩
  rw [hx] at hexact
  exact_mod_cast mul_right_cancel₀ hpos.ne' hexact

end

/-! ### A number and its rounded pattern -/

/-- `r` is what the rounding of R81 makes of `q`; for zero it is a zero of either sign. -/
def RoundsTo (q : ℚ) (r : Word) : Prop :=
  ∃ neg x n ulp, Rounded x n ulp ∧ q = applySign neg x ∧ r = pattern neg n ulp

theorem roundsTo_zeroOf (neg : Bool) : RoundsTo 0 (zeroOf neg) :=
  ⟨neg, 0, 0, -149, rounded_zero, by cases neg <;> simp [applySign], zeroOf_eq_pattern neg⟩

theorem roundsTo_rnd32 (neg : Bool) {num den : Nat} (hn : num ≠ 0) (hd : den ≠ 0) (exp : Int) :
    RoundsTo (applySign neg ((num : ℚ) / den * 2 ^ exp)) (rnd32 neg num den exp) := by
  obtain ⟨n, ulp, h, hr⟩ := exists_rounded_rnd32 neg hn hd exp
  exact ⟨neg, _, n, ulp, h, rfl, hr⟩

section
variable {q : ℚ} {r : Word}

theorem RoundsTo.isFinite_iff (h : RoundsTo q r) : isFinite r = true ↔ |q| < 2 ^ 128 - 2 ^ 103 := by
  obtain ⟨neg, x, n, ulp, hx, rfl, rfl⟩ := h
  rw [hx.isFinite_iff, abs_applySign, abs_of_nonneg hx.nonneg]

/-- A finite rounded pattern is a nearest one, ties to even (R81). -/
theorem RoundsTo.nearest (h : RoundsTo q r) (hfin : isFinite r = true) : Nearest q r := by
  obtain ⟨neg, x, n, ulp, hx, rfl, rfl⟩ := h
  refine ⟨hfin, fun z _ => ?_⟩
  obtain ⟨hle, heven⟩ := hx.nearest z neg
  have hval := hx.value_pattern hfin
  have hdist : |value (pattern neg n ulp) - applySign neg x| = |n * (2 : ℚ) ^ ulp - x| := by
    rw [hval, abs_sub_applySign, applySign_applySign]
  rw [hdist, abs_sub_applySign, hx.significand_mod_two hfin]
  refine ⟨hle, fun heq hne => heven heq fun hz => hne ?_⟩
  rw [hval, ← hz, applySign_applySign]

/-- A number of at most 24 bits is rounded to itself. -/
theorem RoundsTo.exact (h : RoundsTo q r) {m : Nat} {u : Int} (hm : m < 2 ^ 24) (hu : -149 ≤ u)
    (hq : |q| = m * (2 : ℚ) ^ u) (hfin : isFinite r = true) : value r = q := by
  obtain ⟨neg, x, n, ulp, hx, rfl, rfl⟩ := h
  rw [abs_applySign, abs_of_nonneg hx.nonneg] at hq
  rw [hx.value_pattern hfin, (hx.exact hm hu hq).2]

/-- A finite value is rounded to itself (R81). -/
theorem RoundsTo.of_value {b : Word} (h : RoundsTo (value b) r) (hb : isFinite b = true) :
    isFinite r = true ∧ value r = value b := by
  have hfin := h.isFinite_iff.2 (abs_value_lt hb)
  exact ⟨hfin, h.exact (significand_lt b) (neg_149_le_scale b) (abs_value b) hfin⟩

end

/-! ### The operations -/

theorem roundsTo_fmul (a b : Word) : RoundsTo (value a * value b) (fmul a b) := by
  have hq : value a * value b =
      applySign (signBit a != signBit b)
        ((significand a * significand b : Nat) / (1 : Nat) * 2 ^ (scale a + scale b)) := by
    rw [value_eq_applySign, value_eq_applySign, applySign_mul, zpow_add₀ two_ne_zero]
    congr 1
    push_cast
    ring
  simp only [fmul]
  rw [hq]
  split
  · next h0 =>
    simp only [h0, Nat.cast_zero, zero_div, zero_mul, applySign_zero]
    exact roundsTo_zeroOf _
  · next h0 => exact roundsTo_rnd32 _ h0 one_ne_zero _

theorem roundsTo_fdiv (a : Word) {b : Word} (hb : significand b ≠ 0) : RoundsTo (value a / value b) (fdiv a b) := by
  have hq : value a / value b =
      applySign (signBit a != signBit b) ((significand a : Nat) / (significand b : Nat) * 2 ^ (scale a - scale b)) := by
    rw [value_eq_applySign, value_eq_applySign, applySign_div, zpow_sub₀ two_ne_zero, mul_div_mul_comm]
  simp only [fdiv]
  rw [hq]
  split
  · next h0 =>
    simp only [h0, Nat.cast_zero, zero_div, zero_mul, applySign_zero]
    exact roundsTo_zeroOf _
  · next h0 => exact roundsTo_rnd32 _ h0 hb _

/-- An integer times a power of two, rounded. -/
theorem roundsTo_scaled {m : Int} (hm : m ≠ 0) (exp : Int) :
    RoundsTo (m * (2 : ℚ) ^ exp) (rnd32 (decide (m < 0)) m.natAbs 1 exp) := by
  have h := roundsTo_rnd32 (decide (m < 0)) (Int.natAbs_ne_zero.2 hm) one_ne_zero exp
  rwa [Nat.cast_one, div_one, applySign_mul_right, applySign_decide_natAbs] at h

theorem roundsTo_ofScaled (m exp : Int) : RoundsTo (m * (2 : ℚ) ^ exp) (ofScaled m exp) := by
  unfold ofScaled
  split
  · next h0 =>
    rw [h0, Int.cast_zero, zero_mul]
    exact roundsTo_zeroOf false
  · next h0 => exact roundsTo_scaled h0 exp

theorem value_add_value (a b : Word) : value a + value b = exactSum a b * (2 : ℚ) ^ min (scale a) (scale b) := by
  rw [value_eq_units (min_le_left (scale a) (scale b)), value_eq_units (min_le_right (scale a) (scale b)), ← add_mul,
    ← Int.cast_add]
  rfl

theorem roundsTo_fadd (a b : Word) : RoundsTo (value a + value b) (fadd a b) := by
  rw [value_add_value]
  simp only [fadd]
  split
  · next h0 =>
    rw [h0, Int.cast_zero, zero_mul]
    exact roundsTo_zeroOf _
  · next h0 => exact roundsTo_scaled h0 _

theorem roundsTo_fsub (a b : Word) : RoundsTo (value a - value b) (fsub a b) := by
  rw [sub_eq_add_neg, ← value_fneg]
  exact roundsTo_fadd a (fneg b)

theorem roundsTo_i2f (k : Int) : RoundsTo k (i2f k) := by
  have h := roundsTo_ofScaled k 0
  rwa [zpow_zero, mul_one] at h

/-! ### Signs of zeros -/

theorem fmul_of_value_mul_eq_zero {a b : Word} (h : value a * value b = 0) :
    fmul a b = zeroOf (signBit a != signBit b) := by
  rw [mul_eq_zero, value_eq_zero_iff, value_eq_zero_iff, ← Nat.mul_eq_zero] at h
  exact if_pos h

theorem fdiv_of_value_eq_zero {a : Word} (b : Word) (h : value a = 0) : fdiv a b = zeroOf (signBit a != signBit b) :=
  if_pos (value_eq_zero_iff.1 h)

/-- A sum is zero exactly when the integer sum of its operands is. -/
theorem exactSum_eq_zero_iff {a b : Word} : exactSum a b = 0 ↔ value a + value b = 0 := by
  rw [value_add_value, mul_eq_zero, Int.cast_eq_zero, or_iff_left (zpow_ne_zero _ two_ne_zero)]

theorem fadd_of_value_add_eq_zero {a b : Word} (h : value a + value b = 0) :
    fadd a b = if a = 0x80000000 ∧ b = 0x80000000 then 0x80000000 else 0 := by
  have hzero : fadd a b = zeroOf (a = 0x80000000 ∧ b = 0x80000000) := if_pos (exactSum_eq_zero_iff.2 h)
  rw [hzero, zeroOf]
  simp only [decide_eq_true_eq]

/-- A difference of equal operands is +0: not both of the operands of the sum are -0. -/
theorem fsub_self (a : Word) : fsub a a = 0 := by
  rw [fsub, fadd_of_value_add_eq_zero (by rw [value_fneg, add_neg_cancel]), if_neg]
  rintro ⟨rfl, h⟩
  exact absurd h (by decide)

/-! ### `ofScaled`, `i2f` and `ROUND` -/

/-- The pattern of a significand and a scale comes back. -/
theorem ofScaled_signedSig_scale {b : Word} (hb : isFinite b = true) (h0 : significand b ≠ 0) :
    ofScaled (signedSig b) (scale b) = b := by
  have hm : signedSig b ≠ 0 := fun h => h0 (by rw [← signedSig_natAbs, h]; rfl)
  obtain ⟨n, ulp, hround, hr⟩ := exists_rounded_rnd32 (signBit b) h0 one_ne_zero (scale b)
  rw [Nat.cast_one, div_one] at hround
  obtain ⟨rfl, rfl⟩ := hround.unique (significand_lt b) (neg_149_le_scale b) le_significand rfl
  rw [ofScaled, if_neg hm, decide_signedSig_neg h0, signedSig_natAbs, hr, pattern_significand_scale hb]

/-- Integers up to 2^24 in magnitude convert exactly (R83). -/
theorem i2f_exact {k : Int} (hk : |k| ≤ 2 ^ 24) : isFinite (i2f k) = true ∧ value (i2f k) = k := by
  have h := roundsTo_i2f k
  have hk' : |(k : ℚ)| ≤ 2 ^ 24 := by exact_mod_cast hk
  have hfin := h.isFinite_iff.2 (hk'.trans_lt (by norm_num))
  have habs : |(k : ℚ)| = (k.natAbs : Nat) := by rw [Nat.cast_natAbs, Int.cast_abs]
  refine ⟨hfin, ?_⟩
  rw [Int.abs_eq_natAbs] at hk
  obtain hlt | heq : k.natAbs < 2 ^ 24 ∨ k.natAbs = 2 ^ 24 := by omega
  · exact h.exact (u := 0) hlt (by norm_num) (by rw [habs, zpow_zero, mul_one]) hfin
  · exact h.exact (m := 2 ^ 23) (u := 1) (by norm_num) (by norm_num) (by rw [habs, heq]; norm_num) hfin

/-- `ROUND` is the nearest integer, ties to even (R85). -/
theorem isHalfEven_roundToInt (b : Word) : IsHalfEven (value b) (roundToInt b) := by
  rw [roundToInt]
  split
  · next h =>
    rw [value_eq_units h, zpow_zero, mul_one, sub_zero]
    exact isHalfEven_int _
  · next h =>
    have hround := isHalfEven_roundShift (signedSig b) (-scale b).toNat
    rwa [Nat.cast_pow, ← zpow_natCast, Int.toNat_of_nonneg (by omega), zpow_neg, div_inv_eq_mul] at hround

/-- What `ROUND` gives is the value itself, or an integer of no more than 24 bits. -/
theorem roundToInt_eq_value_or_le (b : Word) : (roundToInt b : ℚ) = value b ∨ |roundToInt b| ≤ 2 ^ 24 := by
  have hround := isHalfEven_roundToInt b
  by_cases h : 0 ≤ scale b
  · left
    rw [value_eq_units h, zpow_zero, mul_one] at hround ⊢
    rw [hround.eq_of_int]
  · right
    have hval := mul_zpow_lt_normal (significand_lt b) (not_le.1 h)
    rw [← abs_value, zpow_zero, mul_one] at hval
    obtain ⟨hlo, hhi⟩ := hround.bounds
    rw [abs_lt] at hval
    have : |(roundToInt b : ℚ)| ≤ 2 ^ 24 := abs_le.2 ⟨by linarith, by linarith⟩
    exact_mod_cast this

end Sys2Proof.Machine
end

