-- ==== Sys2Proof/Proofs/Narrowing.lean ====
section
/-! SUPPORT. The integer operations (R87 to R90): what `CLAMP_n` keeps, and `WRAP_n` as a residue. -/

namespace Sys2Proof.Machine

theorem clamp_of_lt {n : Nat} {k : Int} (h : 2 ^ (n - 1) - 1 < k) : clamp n k = 2 ^ (n - 1) - 1 := if_pos h

theorem clamp_of_lt_neg {n : Nat} {k : Int} (h : k < -2 ^ (n - 1)) : clamp n k = -2 ^ (n - 1) := by
  have hpos : (0 : Int) < 2 ^ (n - 1) := by positivity
  rw [clamp, if_neg (by omega), if_pos h]

theorem clamp_of_mem {n : Nat} {k : Int} (hlo : -2 ^ (n - 1) ≤ k) (hhi : k ≤ 2 ^ (n - 1) - 1) : clamp n k = k := by
  rw [clamp, if_neg (not_lt.2 hhi), if_neg (not_lt.2 hlo)]

theorem natCast_wrap (n : Nat) (k : Int) : (wrap n k : Int) = k % 2 ^ n :=
  Int.toNat_of_nonneg (Int.emod_nonneg k (by positivity))

/-- The signed number a pattern stands for is congruent to it (R11). -/
theorem sext_emod (n v : Nat) : sext n v % 2 ^ n = (v : Int) % 2 ^ n := by
  unfold sext
  split
  · push_cast
    exact Int.emod_emod_of_dvd _ dvd_rfl
  · rw [Int.sub_emod_right]
    push_cast
    exact Int.emod_emod_of_dvd _ dvd_rfl

/-- Two's-complement addition with the carry discarded (R88). -/
theorem wrap_sext_add (n a b : Nat) : wrap n (sext n a + sext n b) = (a + b) % 2 ^ n := by
  have h : (wrap n (sext n a + sext n b) : Int) = ((a + b) % 2 ^ n : Nat) := by
    rw [natCast_wrap, Int.add_emod, sext_emod, sext_emod, ← Int.add_emod]
    push_cast
    rfl
  exact_mod_cast h

theorem asr8_eq_floor (c : Int) : asr8 c = ⌊(c : ℚ) / 256⌋ :=
  (Rat.floor_intCast_div_natCast c 256).symm

end Sys2Proof.Machine
end

