-- ==== Sys2Proof/Proofs/PrimitivesFamily.lean ====
section
/-! The statements about the primitive operations (40_primitives.md), each a short use of the lemmas above. -/

namespace Sys2Proof.Machine

open Sys2Proof.Claims

/-- Settles O22: an element without a scaled sample faults, and the first element that faults is the command's fault. -/
theorem nonFiniteSampleFaults : Obligations.NonFiniteSampleFaults := by
  intro i factor c hcmd s u k hl hk hu hbad
  obtain ⟨kk, hkk, rfl⟩ : ∃ kk, ReadsSamples i kk ∧ factor = Container.factor kk := by
    obtain ⟨hi, rfl⟩ | ⟨hi, rfl⟩ := hcmd
    · exact ⟨.int16, by obtain rfl | rfl | rfl | rfl | rfl := hi <;> simp [ReadsSamples, f2iShape], rfl⟩
    · exact ⟨.int24, by obtain rfl | rfl | rfl | rfl | rfl := hi <;> simp [ReadsSamples, f2iShape], rfl⟩
  exact exec_of_element_fault hkk.ne_dclr hl hk hu
    (hkk.elementOf_fault (scaledSample_eq_none_of_not_sampleFinite hbad))

/-- Settles O23: the shaper answers nothing where one of its operations is not finite. -/
theorem nonFiniteShapingFaults : Obligations.NonFiniteShapingFaults := by
  intro i factor c hcmd s u k hl hk hu hx hs
  obtain ⟨rfl, rfl⟩ | ⟨rfl, rfl⟩ := hcmd
  · exact exec_of_element_fault nofun hl hk hu (elementOf_fault_of_shaping (kk := .int16) rfl hx hs)
  · exact exec_of_element_fault nofun hl hk hu (elementOf_fault_of_shaping (kk := .int24) rfl hx hs)

/-- Settles O49: each operation rounds its exact result once. -/
theorem operationsRoundToNearest : Obligations.OperationsRoundToNearest := fun a b _ _ =>
  ⟨(roundsTo_fmul a b).nearest, (roundsTo_fadd a b).nearest, (roundsTo_fsub a b).nearest,
    fun hb => (roundsTo_fdiv a hb).nearest⟩

/-- Settles O50: a number overflows when it is rounded up to 2^128. -/
theorem overflowThreshold : Obligations.OverflowThreshold := fun a b _ _ =>
  ⟨(roundsTo_fmul a b).isFinite_iff, (roundsTo_fadd a b).isFinite_iff, (roundsTo_fsub a b).isFinite_iff,
    fun hb => (roundsTo_fdiv a hb).isFinite_iff⟩

/-- Settles O51: a value is zero exactly when its significand is, and a sum exactly when the integer sum is. -/
theorem signsOfZeroResults : Obligations.SignsOfZeroResults := by
  intro a b _ _
  exact ⟨fmul_of_value_mul_eq_zero, fun ha _ => fdiv_of_value_eq_zero b ha, fadd_of_value_add_eq_zero,
    ⟨rfl, value_fneg b⟩, fsub_self a, by decide⟩

/-- Settles O52: the value's own significand and scale are what it is rounded to. -/
theorem representableValuesAreExact : Obligations.RepresentableValuesAreExact := fun _ => ofScaled_signedSig_scale

/-- Settles O53: what `ROUND` gives is a finite value or an integer of at most 24 bits. -/
theorem integerConversionIsExact : Obligations.IntegerConversionIsExact := by
  refine ⟨fun _ => i2f_exact, fun f hf => ?_, rfl⟩
  obtain heq | hle := roundToInt_eq_value_or_le f
  · have h := roundsTo_i2f (roundToInt f)
    rw [heq] at h ⊢
    exact h.of_value hf
  · exact i2f_exact hle

/-- Settles O54: the four cases say what the nearest integer, ties to even, is. -/
theorem roundIsNearestTiesToEven : Obligations.RoundIsNearestTiesToEven :=
  ⟨fun f _ => (isHalfEven_roundToInt f).floor_cases, by decide, by decide⟩

/-- Settles O57: by the cases of `CLAMP_n` and by residues. -/
theorem integerNarrowing : Obligations.IntegerNarrowing := by
  refine ⟨fun n _ k => ⟨clamp_of_lt, clamp_of_lt_neg, clamp_of_mem⟩, fun n _ k => ⟨natCast_wrap n k, wrap_lt n k⟩,
    fun n _ => wrap_sext_add n, fun _ _ => rfl, asr8_eq_floor, fun c hlo hhi => ?_⟩
  unfold asr8
  omega

end Sys2Proof.Machine
end

