-- ==== Sys2Proof/Proofs/TwoContexts.lean ====
section
/-! SUPPORT. Two runs on different contexts (R113, R114): a relation between contexts that one triangular and one
noise-shaped sample keep, with equal values, is kept by every command, which answers alike in both runs. Equality is
such a relation, and so is the agreement of `prev` and of the five newest errors. -/

namespace Sys2Proof.Machine

open Sys2Proof.Claims

/-! ### Two runs of two commands -/

/-- Two states that the elements of two loops keep in step, the loops keep in step. -/
theorem forElements_sameAnswer_of_two {R : State → State → Prop} {el el' : Nat → State → Result}
    (hel : ∀ k u u', R u u' → SameAnswer R (el k u) (el' k u')) (n i : Nat) {s s' : State} (hs : R s s') :
    SameAnswer R (forElements el n i s) (forElements el' n i s') := by
  induction n generalizing i s s' with
  | zero => exact .next hs
  | succ n ih => exact (hel i s s' hs).andThen fun t t' ht => ih (i + 1) ht

/-- Two commands over streams whose checks see the same and whose elements stay in step answer alike. -/
theorem exec_sameAnswer_of_two {R : State → State → Prop} {i i' : Instr} {s s' : State} (hi : ∀ c, i ≠ .dclr c)
    (hi' : ∀ c, i' ≠ .dclr c) (hctx : contextViolation i' s' = contextViolation i s) (hcnt : s'.cnt = s.cnt)
    (howned : s'.owned = s.owned) (hstreams : streamsOf i' s' = streamsOf i s)
    (hel : contextViolation i s = none → ∀ k u u', R u u' → SameAnswer R (elementOf i k u) (elementOf i' k u'))
    (hs : contextViolation i s = none → R s s') : SameAnswer R (exec i s) (exec i' s') := by
  rw [exec_eq_runCommand hi, exec_eq_runCommand hi']
  simp only [runCommand, hctx, hcnt, howned, hstreams]
  cases hc : contextViolation i s with
  | some f => exact .fault f
  | none =>
    dsimp only
    split
    · exact .next (hs hc)
    · cases operandViolation s.owned s.cnt.toNat (streamsOf i s) with
      | some f => exact .fault f
      | none => exact forElements_sameAnswer_of_two (hel hc) _ _ (hs hc)

/-- Two elements of the same number that complete together answer alike: a fault of an element names only its number
(R171). -/
theorem elementOf_sameAnswer_of_next {R : State → State → Prop} {i i' : Instr} {k : Nat} {u u' : State}
    (h : ∀ t, elementOf i k u = .next t → ∃ t', elementOf i' k u' = .next t' ∧ R t t')
    (h' : ∀ t', elementOf i' k u' = .next t' → ∃ t, elementOf i k u = .next t) :
    SameAnswer R (elementOf i k u) (elementOf i' k u') := by
  cases hu : elementOf i k u with
  | next t =>
    obtain ⟨t', ht', hR⟩ := h t hu
    rw [ht']
    exact .next hR
  | fault f =>
    cases hu' : elementOf i' k u' with
    | next t' =>
      obtain ⟨t, ht⟩ := h' t' hu'
      rw [hu] at ht
      cases ht
    | fault f' =>
      obtain ⟨rfl, -⟩ := elementOf_fault hu
      obtain ⟨rfl, -⟩ := elementOf_fault hu'
      exact .fault _
    | refused r => exact absurd hu' elementOf_not_refused
  | refused r => exact absurd hu elementOf_not_refused

/-! ### Runs that differ in the contexts -/

/-- `s'` is `s` but for the contexts. -/
def SameButContexts (s s' : State) : Prop := s' = s.withContexts s'.dither

theorem SameButContexts.symm {s s' : State} (h : SameButContexts s s') : SameButContexts s' s := by
  rw [SameButContexts, h]
  rfl

/-- The streams do not depend on the contexts. -/
theorem SameButContexts.streamsOf_eq {s s' : State} (h : SameButContexts s s') (i : Instr) :
    streamsOf i s' = streamsOf i s := by
  rw [h]
  cases i <;> rfl

/-- An element that uses no context answers alike whatever the contexts hold. -/
theorem SameButContexts.elementOf {i : Instr} {u u' : State} (h : SameButContexts u u') (hi : usedContext i = none)
    (k : Nat) : SameAnswer SameButContexts (elementOf i k u) (elementOf i k u') := by
  refine elementOf_sameAnswer_of_next (fun t ht => ⟨t.withContexts u'.dither, ?_, rfl⟩)
    (fun t' ht' => ⟨t'.withContexts u.dither, ?_⟩)
  · rw [h]
    exact elementOf_withContexts u'.dither hi ht
  · rw [h.symm]
    exact elementOf_withContexts u.dither hi ht'

/-! ### A relation between contexts that samples keep -/

/-- Related contexts make the same value of a sample and a draw and are related afterwards, in both modes that use a
context (R105, R107). -/
structure KeptBySamples (Q : DitherCtx → DitherCtx → Prop) : Prop where
  symm : ∀ {d e}, Q d e → Q e d
  tri : ∀ {x w d e y d'}, Q d e → quantTri x w d = some (y, d') → ∃ e', quantTri x w e = some (y, e') ∧ Q d' e'
  shp : ∀ {x w d e y d'}, Q d e → quantShp x w d = some (y, d') → ∃ e', quantShp x w e = some (y, e') ∧ Q d' e'

theorem keptBySamples_eq : KeptBySamples Eq where
  symm := Eq.symm
  tri := fun hde h => ⟨_, hde ▸ h, rfl⟩
  shp := fun hde h => ⟨_, hde ▸ h, rfl⟩

/-- `s'` is `s` but for the contexts, and its context `c'` is related to context `c` of `s`; both exist. -/
structure ContextsRelated (Q : DitherCtx → DitherCtx → Prop) (c c' : CtxNum) (s s' : State) : Prop where
  same : SameButContexts s s'
  lt : c.toNat < s.dither.length
  lt' : c'.toNat < s'.dither.length
  rel : Q (s.context c) (s'.context c')

section
variable {Q : DitherCtx → DitherCtx → Prop} {c c' : CtxNum} {u u' : State}

theorem ContextsRelated.symm (hQ : KeptBySamples Q) (h : ContextsRelated Q c c' u u') :
    ContextsRelated Q c' c u' u :=
  ⟨h.same.symm, h.lt', h.lt, hQ.symm h.rel⟩

theorem ContextsRelated.store (h : ContextsRelated Q c c' u u') (a w v : Nat) :
    ContextsRelated Q c c' (u.store a w v) (u'.store a w v) := by
  obtain ⟨hsame, hlt, hlt', hrel⟩ := h
  exact ⟨by rw [SameButContexts, hsame]; rfl, hlt, hlt', hrel⟩

theorem ContextsRelated.drawn (h : ContextsRelated Q c c' u u') : ContextsRelated Q c c' u.drawn u'.drawn := by
  obtain ⟨hsame, hlt, hlt', hrel⟩ := h
  exact ⟨by rw [SameButContexts, hsame]; rfl, hlt, hlt', hrel⟩

/-- Related contexts written in both runs. -/
theorem ContextsRelated.setContext (h : ContextsRelated Q c c' u u') {d e : DitherCtx} (hde : Q d e) :
    ContextsRelated Q c c' (u.setContext c d) (u'.setContext c' e) := by
  obtain ⟨hsame, hlt, hlt', -⟩ := h
  refine ⟨by rw [SameButContexts, hsame]; rfl, by simpa using hlt, by simpa using hlt', ?_⟩
  rwa [State.context_setContext_same _ _ _ hlt, State.context_setContext_same _ _ _ hlt']

/-- `QUANT` in a mode that uses a context (R108): the same value and related contexts. -/
theorem ContextsRelated.quantise (hQ : KeptBySamples Q) (h : ContextsRelated Q c c' u u') {m : DitherMode}
    (hm : m = .tri ∨ m = .shp) {x : Word} {y : Int} {t : State} (hq : quantise m c x u = some (y, t)) :
    ∃ t', quantise m c' x u' = some (y, t') ∧ ContextsRelated Q c c' t t' := by
  have hdraw : u'.nextDraw = u.nextDraw := by rw [h.same]; rfl
  obtain ⟨rfl, -⟩ | ⟨rfl, -⟩ | ⟨rfl, d, hd, rfl⟩ | ⟨rfl, d, hd, rfl⟩ := quantise_cases hq
  · simp at hm
  · simp at hm
  · obtain ⟨e, he, hde⟩ := hQ.tri h.rel hd
    exact ⟨_, by simp only [Machine.quantise, hdraw, he]; rfl, h.drawn.setContext hde⟩
  · obtain ⟨e, he, hde⟩ := hQ.shp h.rel hd
    exact ⟨_, by simp only [Machine.quantise, hdraw, he]; rfl, h.drawn.setContext hde⟩

/-- An element of the float-to-integer loop that completes on one of two related contexts completes on the other. -/
theorem ContextsRelated.convertElement_next (hQ : KeptBySamples Q) (h : ContextsRelated Q c c' u u') {m : DitherMode}
    (hm : m = .tri ∨ m = .shp) {kk : Container} {k : Nat} {t : State} (ht : convertElement kk m c k u = .next t) :
    ∃ t', convertElement kk m c' k u' = .next t' ∧ ContextsRelated Q c c' t t' := by
  obtain ⟨x, y, v, hx, hq, rfl⟩ := Machine.convertElement_next.1 ht
  obtain ⟨v', hq', hv⟩ := h.quantise hQ hm hq
  have hx' : scaledSample kk k u' = some x := by rw [← hx, h.same]; rfl
  have hdst : dstStrided u' k = dstStrided u k := by rw [h.same]; rfl
  exact ⟨_, Machine.convertElement_next.2 ⟨x, y, v', hx', hq', rfl⟩, hdst ▸ hv.store _ _ _⟩

/-- Elements of one mode and container on related contexts answer alike. -/
theorem ContextsRelated.elementOf (hQ : KeptBySamples Q) {i i' : Instr} {kk : Container} {m : DitherMode}
    (hm : m = .tri ∨ m = .shp) (hi : f2iShape i = some (kk, m, c)) (hi' : f2iShape i' = some (kk, m, c'))
    (h : ContextsRelated Q c c' u u') (k : Nat) :
    SameAnswer (ContextsRelated Q c c') (elementOf i k u) (elementOf i' k u') := by
  refine elementOf_sameAnswer_of_next (fun t ht => ?_) (fun t' ht' => ?_)
  · rw [elementOf_f2i hi] at ht
    rw [elementOf_f2i hi']
    exact h.convertElement_next hQ hm ht
  · rw [elementOf_f2i hi'] at ht'
    rw [elementOf_f2i hi]
    obtain ⟨t, ht, -⟩ := (h.symm hQ).convertElement_next hQ hm ht'
    exact ⟨t, ht⟩

end

/-! ### Histories of different sizes -/

/-- Contexts that agree in the five newest errors have the same filtered error (R106). -/
theorem filter_eq_of_sameRecent {d e : DitherCtx} (h : SameRecent d e) :
    filteredError d = filteredError e ∧ (FilterFinite d ↔ FilterFinite e) := by
  obtain ⟨-, -, -, -, -, htap⟩ := h
  simp only [filteredError, FilterFinite, htap 0 (by norm_num), htap 1 (by norm_num), htap 2 (by norm_num),
    htap 3 (by norm_num), htap 4 (by norm_num), and_self]

theorem nextIdx_lt {d : DitherCtx} (h : 0 < d.err.length) : d.nextIdx < d.err.length := Nat.mod_lt _ h

/-- After an error is stored at the next position it is the newest one, and the others are one sample older (R107). -/
theorem tap_set_nextIdx {d : DitherCtx} (hidx : d.idx < d.err.length) (p v : Word) :
    DitherCtx.tap ⟨p, d.err.set d.nextIdx v, d.nextIdx⟩ 0 = v ∧
    ∀ k, k + 1 < d.err.length → DitherCtx.tap ⟨p, d.err.set d.nextIdx v, d.nextIdx⟩ (k + 1) = d.tap k := by
  have hnext := nextIdx_lt (d := d) (by omega)
  simp only [DitherCtx.tap, List.length_set]
  refine ⟨?_, fun k hk => ?_⟩
  · rw [Nat.sub_zero, Nat.add_mod_right, Nat.mod_eq_of_lt hnext]
    simp [hnext]
  · have hpos : (d.nextIdx + d.err.length - (k + 1)) % d.err.length = (d.idx + d.err.length - k) % d.err.length := by
      have hsub : d.nextIdx + d.err.length - (k + 1) = d.nextIdx + (d.err.length - (k + 1)) := by omega
      rw [hsub, DitherCtx.nextIdx, Nat.mod_add_mod]
      congr 1
      omega
    have hne : d.nextIdx ≠ (d.nextIdx + d.err.length - (k + 1)) % d.err.length := by
      obtain hlt | hge := Nat.lt_or_ge d.nextIdx (k + 1)
      · rw [Nat.mod_eq_of_lt (by omega)]
        omega
      · have hsub : d.nextIdx + d.err.length - (k + 1) = (d.nextIdx - (k + 1)) + d.err.length := by omega
        rw [hsub, Nat.add_mod_right, Nat.mod_eq_of_lt (by omega)]
        omega
    simp only [List.getD, List.getElem?_set_ne hne]
    rw [hpos]

/-- The error of R107 stored in both histories is the newest one of both. -/
theorem sameRecent_set_next {d e : DitherCtx} (h : SameRecent d e) (p v : Word) :
    SameRecent ⟨p, d.err.set d.nextIdx v, d.nextIdx⟩ ⟨p, e.err.set e.nextIdx v, e.nextIdx⟩ := by
  obtain ⟨hd8, he8, hd, he, -, htap⟩ := h
  obtain ⟨hdnew, hdold⟩ := tap_set_nextIdx hd p v
  obtain ⟨henew, heold⟩ := tap_set_nextIdx he p v
  refine ⟨by simpa using hd8, by simpa using he8, by simpa using nextIdx_lt (by omega),
    by simpa using nextIdx_lt (by omega), rfl, fun k hk => ?_⟩
  cases k with
  | zero => exact hdnew.trans henew.symm
  | succ k => exact (hdold k (by omega)).trans ((htap k (by omega)).trans (heold k (by omega)).symm)

theorem sameRecent_shapedContext {x : Word} {w : Draw} {d e : DitherCtx} (h : SameRecent d e) :
    (ShapingFinite x w d ↔ ShapingFinite x w e) ∧ shapedValue x w d = shapedValue x w e ∧
      SameRecent (shapedContext x w d) (shapedContext x w e) := by
  obtain ⟨hfe, hfin⟩ := filter_eq_of_sameRecent h
  obtain ⟨-, -, -, -, hprev, -⟩ := id h
  have hxe : shapedSample x d = shapedSample x e := by rw [shapedSample, shapedSample, hfe]
  have hy : shapedValue x w d = shapedValue x w e := by rw [shapedValue, shapedValue, hxe, hprev]
  refine ⟨by rw [ShapingFinite, ShapingFinite, hfin, hxe, hy, hprev], hy, ?_⟩
  rw [Claims.shapedContext, Claims.shapedContext, hxe, hy]
  exact sameRecent_set_next h _ _

/-- What a sample does depends on `prev` and on the five newest errors only (R106). -/
theorem keptBySamples_sameRecent : KeptBySamples SameRecent where
  symm := fun ⟨hd8, he8, hd, he, hprev, htap⟩ => ⟨he8, hd8, he, hd, hprev.symm, fun k hk => (htap k hk).symm⟩
  tri := by
    rintro x w d e y d' ⟨hd8, he8, hd, he, hprev, htap⟩ h
    have hd' := quantTri_context h
    simp only [quantTri, hprev, Option.bind_eq_bind, Option.bind_eq_some_iff, Option.some.injEq, Prod.mk.injEq] at h ⊢
    obtain ⟨diff, hdiff, xq, hxq, hy, -⟩ := h
    exact ⟨_, ⟨diff, hdiff, xq, hxq, hy, rfl⟩, hd' ▸ ⟨hd8, he8, hd, he, rfl, htap⟩⟩
  shp := by
    rintro x w d e y d' h hq
    obtain ⟨hfin, heq⟩ := quantShp_eq_some.1 hq
    obtain ⟨rfl, rfl⟩ := Prod.mk.inj heq
    obtain ⟨hiff, hy, hctx⟩ := sameRecent_shapedContext (x := x) (w := w) h
    exact ⟨_, quantShp_eq_some.2 ⟨hiff.1 hfin, by rw [hy]⟩, hctx⟩

/-- Cleared contexts agree, whatever their history sizes (R111). -/
theorem sameRecent_cleared {d e : DitherCtx} (h : SameRecent d e) : SameRecent d.cleared e.cleared := by
  obtain ⟨hd8, he8, -⟩ := h
  simp only [SameRecent, DitherCtx.cleared, DitherCtx.zero, List.length_replicate]
  refine ⟨hd8, he8, by omega, by omega, trivial, fun k _ => ?_⟩
  simp only [List.getD, List.getElem?_replicate]
  split <;> split <;> rfl

/-! ### Whole commands -/

/-- What two next states of the two runs have in common besides may be added to the relation. -/
theorem SameAnswer.imp {R R' : State → State → Prop} {r r' : Result} (h : SameAnswer R r r')
    (himp : ∀ t t', r = .next t → r' = .next t' → R t t' → R' t t') : SameAnswer R' r r' := by
  cases h with
  | next ht => exact .next (himp _ _ rfl rfl ht)
  | fault f => exact .fault f
  | refused r => exact .refused r

/-- A command other than `DCLR` that uses a context is a triangular or a noise-shaped one (R65). -/
theorem f2iShape_of_usedContext {i : Instr} {c : CtxNum} (hi : ∀ c, i ≠ .dclr c) (h : usedContext i = some c) :
    ∃ kk m, f2iShape i = some (kk, m, c) ∧ (m = .tri ∨ m = .shp) := by
  cases i with
  | f2i16Tri | f2i24Tri | f2i16Shp | f2i24Shp =>
    obtain rfl := Option.some.inj h
    exact ⟨_, _, rfl, by simp⟩
  | dclr c => exact absurd rfl (hi c)
  | _ => cases h

theorem ne_dclr_of_f2iShape {i : Instr} {p : Container × DitherMode × CtxNum} (h : f2iShape i = some p) (c : CtxNum) :
    i ≠ .dclr c := by
  rintro rfl
  cases h

/-- The triangular and the noise-shaped commands use the context of their context field (R65). -/
theorem usedContext_of_mode {i : Instr} {kk : Container} {m : DitherMode} {c : CtxNum}
    (h : f2iShape i = some (kk, m, c)) (hm : m = .tri ∨ m = .shp) : usedContext i = some c := by
  obtain ⟨-, hm'⟩ | ⟨hu, -⟩ := usedContext_of_f2iShape h
  · obtain rfl | rfl := hm <;> simp at hm'
  · exact hu

/-- The context check sees the number of contexts only. -/
theorem contextViolation_congr {i : Instr} {s s' : State} (h : s'.dither.length = s.dither.length) :
    contextViolation i s' = contextViolation i s := by
  simp only [contextViolation, h]

section
variable {s s' : State}

/-- A command that uses no context answers alike on any contexts (R29). -/
theorem SameButContexts.exec {i : Instr} (h : SameButContexts s s') (hlen : s'.dither.length = s.dither.length)
    (hi : usedContext i = none) : SameAnswer SameButContexts (exec i s) (exec i s') := by
  have hnd : ∀ c, i ≠ .dclr c := by
    rintro c rfl
    cases hi
  exact exec_sameAnswer_of_two hnd hnd (contextViolation_congr hlen) (by rw [h]; rfl) (by rw [h]; rfl)
    (h.streamsOf_eq i) (fun _ k _ _ hu => hu.elementOf hi k) (fun _ => h)

/-- A triangular or noise-shaped command on related contexts of two blocks of one number of contexts answers alike. -/
theorem ContextsRelated.exec {Q : DitherCtx → DitherCtx → Prop} {c c' : CtxNum} {i i' : Instr} {kk : Container}
    {m : DitherMode} (hQ : KeptBySamples Q) (h : ContextsRelated Q c c' s s') (hm : m = .tri ∨ m = .shp)
    (hi : f2iShape i = some (kk, m, c)) (hi' : f2iShape i' = some (kk, m, c'))
    (hstreams : streamsOf i' s = streamsOf i s) :
    SameAnswer (ContextsRelated Q c c') (exec i s) (exec i' s') := by
  refine exec_sameAnswer_of_two (ne_dclr_of_f2iShape hi) (ne_dclr_of_f2iShape hi') ?_ (by rw [h.same]; rfl)
    (by rw [h.same]; rfl)
    ((h.same.streamsOf_eq i').trans hstreams) (fun _ k _ _ hr => hr.elementOf hQ hm hi hi' k) (fun _ => h)
  simp only [contextViolation, usedContext_of_mode hi hm, usedContext_of_mode hi' hm, h.lt, h.lt', if_true]

/-- A command that uses context `c` answers alike on two blocks that differ in their history size. -/
theorem exec_sameAnswer_of_usedContext {i : Instr} {c : CtxNum} (h : SameButHistorySize s s')
    (hi : usedContext i = some c) : SameAnswer (ContextsRelated SameRecent c c) (exec i s) (exec i s') := by
  obtain ⟨hsame, hlen, hrecent⟩ := h
  by_cases hc : c.toNat < s.dither.length
  · have hrel : ContextsRelated SameRecent c c s s' := ⟨hsame, hc, hlen ▸ hc, hrecent c hc⟩
    by_cases hnd : ∃ c, i = .dclr c
    · obtain ⟨c, rfl⟩ := hnd
      obtain rfl := Option.some.inj hi
      rw [exec_dclr hrel.lt, exec_dclr hrel.lt']
      exact .next (hrel.setContext (sameRecent_cleared hrel.rel))
    · obtain ⟨kk, m, hshape, hm⟩ := f2iShape_of_usedContext (not_exists.1 hnd) hi
      exact hrel.exec keptBySamples_sameRecent hm hshape hshape rfl
  · have hfault : contextViolation i s = some (.badContext c) := by simp [contextViolation, hi, hc]
    rw [exec_of_contextViolation hfault, exec_of_contextViolation (contextViolation_congr hlen ▸ hfault)]
    exact .fault _

/-- Every command answers alike on two blocks that differ in their history size (R113). -/
theorem exec_sameAnswer_of_sameButHistorySize (i : Instr) (h : SameButHistorySize s s') :
    SameAnswer SameButHistorySize (exec i s) (exec i s') := by
  obtain ⟨hsame, hlen, hrecent⟩ := id h
  cases hi : usedContext i with
  | none =>
    refine (SameButContexts.exec hsame hlen hi).imp fun t t' ht ht' hr => ⟨hr, ?_, fun c hc => ?_⟩
    · rw [exec_dither_eq hi ht, exec_dither_eq hi ht', hlen]
    · rw [exec_length ht] at hc
      rw [State.context_eq_of_dither_eq (exec_dither_eq hi ht), State.context_eq_of_dither_eq (exec_dither_eq hi ht')]
      exact hrecent c hc
  | some c =>
    refine (exec_sameAnswer_of_usedContext h hi).imp fun t t' ht ht' hr => ⟨hr.same, ?_, fun e he => ?_⟩
    · rw [exec_length ht, exec_length ht', hlen]
    · by_cases hec : e = c
      · subst hec
        exact hr.rel
      · rw [exec_length ht] at he
        rw [exec_context_other hi hec ht, exec_context_other hi hec ht']
        exact hrecent e he

end

end Sys2Proof.Machine
end

