-- ==== Sys2Proof/Proofs/ExactVariates.lean ====
section
/-! SUPPORT. The variates of R101 and R102 as numbers: their integers have no more than 24 bits, so the one rounding
they go through is exact. -/

namespace Sys2Proof.Machine

/-- A fraction whose integer has no more than 24 bits is rounded to itself (R81). -/
theorem ofScaled_exact {m exp : Int} (hm : m.natAbs < 2 ^ 24) (hlo : -149 ≤ exp) (hhi : exp ≤ 0) :
    isFinite (ofScaled m exp) = true ∧ value (ofScaled m exp) = m * (2 : ℚ) ^ exp := by
  have h := roundsTo_ofScaled m exp
  have habs : |m * (2 : ℚ) ^ exp| = m.natAbs * (2 : ℚ) ^ exp := by
    rw [abs_mul, abs_of_pos (by positivity : (0 : ℚ) < 2 ^ exp), Nat.cast_natAbs, Int.cast_abs]
  have hfin : isFinite (ofScaled m exp) = true := by
    rw [h.isFinite_iff, habs]
    have hm' : (m.natAbs : ℚ) < 2 ^ 24 := by exact_mod_cast hm
    calc (m.natAbs : ℚ) * 2 ^ exp ≤ 2 ^ 24 * 2 ^ (0 : Int) :=
          mul_le_mul hm'.le (zpow_le_zpow_right₀ (by norm_num) hhi) (by positivity) (by norm_num)
      _ < 2 ^ 128 - 2 ^ 103 := by norm_num
  exact ⟨hfin, h.exact hm hlo habs hfin⟩

/-- The rectangular variate is `w * 2^-24` (R101). -/
theorem value_uniform (w : Draw) : isFinite (uniform w) = true ∧ value (uniform w) = (w.toNat : ℚ) / 2 ^ 24 := by
  obtain ⟨hfin, hval⟩ := ofScaled_exact (m := w.toNat) (exp := -24) w.isLt (by norm_num) (by norm_num)
  refine ⟨hfin, hval.trans ?_⟩
  rw [Int.cast_natCast, div_eq_mul_inv, zpow_neg]
  rfl

/-- The triangular base variate is `(w - 2^23) * 2^-23` (R102). -/
theorem value_triangular (w : Draw) :
    isFinite (triangular w) = true ∧ value (triangular w) = ((w.toNat : ℚ) - 2 ^ 23) / 2 ^ 23 := by
  have hw : w.toNat < 2 ^ 24 := w.isLt
  obtain ⟨hfin, hval⟩ := ofScaled_exact (m := w.toNat - 2 ^ 23) (exp := -23) (by omega) (by norm_num) (by norm_num)
  refine ⟨hfin, hval.trans ?_⟩
  rw [div_eq_mul_inv, zpow_neg]
  push_cast
  rfl

/-- A draw is a number of 24 bits (R100). -/
theorem draw_bounds (w : Draw) : 0 ≤ (w.toNat : ℚ) ∧ (w.toNat : ℚ) ≤ 2 ^ 24 - 1 := by
  have hw : w.toNat + 1 ≤ 2 ^ 24 := w.isLt
  exact ⟨by positivity, by rw [le_sub_iff_add_le]; exact_mod_cast hw⟩

end Sys2Proof.Machine
end

