-- ==== Sys2Proof/Proofs/Draws.lean ====
section
/-! SUPPORT. The draws of a command (R112): one for each element of a dithered conversion, none for any other; and the
word of `DCLR` (R111). -/

namespace Sys2Proof.Machine

/-- The draws that one sample takes in a mode (R103 to R107). -/
def DitherMode.draws : DitherMode → Nat
  | .none => 0
  | .rect | .tri | .shp => 1

/-- The draws that one element of a command takes. -/
def drawsPerElement (i : Instr) : Nat :=
  match f2iShape i with
  | some (_, m, _) => DitherMode.draws m
  | none => 0

theorem quantise_rndIdx {m : DitherMode} {c : CtxNum} {x : Word} {s t : State} {y : Int}
    (h : quantise m c x s = some (y, t)) : t.rndIdx = s.rndIdx + DitherMode.draws m := by
  obtain ⟨rfl, -, rfl⟩ | ⟨rfl, -, rfl⟩ | ⟨rfl, d, -, rfl⟩ | ⟨rfl, d, -, rfl⟩ := quantise_cases h <;> rfl

theorem elementOf_rndIdx {i : Instr} {k : Nat} {s t : State} (h : elementOf i k s = .next t) :
    t.rndIdx = s.rndIdx + drawsPerElement i := by
  cases hs : f2iShape i with
  | none =>
    obtain ⟨-, hrnd⟩ := elementOf_plain hs h
    simp only [drawsPerElement, hs, hrnd, Nat.add_zero]
  | some p =>
    obtain ⟨kk, m, c⟩ := p
    rw [elementOf_f2i hs] at h
    obtain ⟨x, y, u, -, hq, rfl⟩ := convertElement_next.1 h
    simp only [drawsPerElement, hs, State.store_rndIdx, quantise_rndIdx hq]

/-- A command takes the draws of its `CNT` elements (R112). -/
theorem exec_rndIdx {i : Instr} {s t : State} (h : exec i s = .next t) :
    t.rndIdx = s.rndIdx + s.cnt.toNat * drawsPerElement i := by
  obtain ⟨c, rfl, -, rfl⟩ | ⟨-, -, hl⟩ := exec_next_cases h
  · rfl
  · have hkept := forElements_keeps (P := fun k u => u.rndIdx = s.rndIdx + k * drawsPerElement i) (by simp)
      (fun k u v _ _ hu hv => by rw [elementOf_rndIdx hv, hu, Nat.add_assoc, Nat.succ_mul]) hl
    rwa [Nat.zero_add] at hkept

/-- A command that is no dithered conversion draws nothing. -/
theorem drawsPerElement_eq_zero {i : Instr}
    (h : ∀ c, i ≠ .f2i16Rect c ∧ i ≠ .f2i24Rect c ∧ i ≠ .f2i16Tri c ∧ i ≠ .f2i24Tri c ∧ i ≠ .f2i16Shp c ∧
      i ≠ .f2i24Shp c) : drawsPerElement i = 0 := by
  cases i with
  | f2i16Rect c | f2i24Rect c | f2i16Tri c | f2i24Tri c | f2i16Shp c | f2i24Shp c => simpa using h c
  | _ => rfl

/-- The word of `DCLR` is its opcode byte with the context number in bits 15:8 (R67). -/
theorem encode_dclr (c : CtxNum) : encode (.dclr c) = BitVec.ofNat 32 (0x80 + 256 * c.toNat) := by
  have hc : c.toNat < 2 ^ 8 := c.isLt
  have hword : (encode (.dclr c)).toNat = c.toNat <<< 8 ||| 0x80 := by
    rw [encode, contextField, opcodeByte, BitVec.toNat_append, BitVec.toNat_append]
    simp
  refine BitVec.eq_of_toNat_eq ?_
  rw [hword, ← Nat.shiftLeft_add_eq_or_of_lt (by norm_num), Nat.shiftLeft_eq, BitVec.toNat_ofNat]
  omega

end Sys2Proof.Machine
end

