-- ==== Sys2Proof/Proofs/SamplesAhead.lean ====
section
/-! SUPPORT. The samples a float-to-integer command has still to read (R120): where no element is stored over a later
sample they stand as at the start. -/

namespace Sys2Proof.Machine

open Sys2Proof.Claims

/-- A float-to-integer command stores at `DSTRIDE`, in its container's width (R52). -/
theorem dest_of_f2iShape {i : Instr} {kk : Container} {m : DitherMode} {c : CtxNum}
    (h : f2iShape i = some (kk, m, c)) (s : State) (k : Nat) :
    destElement i s k = dstStrided s k ∧ destWidth i = Container.bytes kk := by
  cases i <;> simp only [f2iShape, Option.some.injEq, Prod.mk.injEq, reduceCtorEq] at h <;>
    obtain ⟨rfl, rfl, rfl⟩ := h <;> exact ⟨rfl, rfl⟩

/-- The samples from element `k` on stand in memory as they stood at the start of the command. -/
structure SamplesAhead (s : State) (k : Nat) (u : State) : Prop where
  frame : KeepsFrame s u
  wf : Memory.wf u.mem = true
  ahead : ∀ j, k ≤ j → j < s.cnt.toNat → sampleWord u j = sampleWord s j

theorem SamplesAhead.start {s : State} (h : Memory.wf s.mem = true) : SamplesAhead s 0 s :=
  ⟨KeepsFrame.refl s, h, fun _ _ _ => rfl⟩

/-- An element that stores over no later sample leaves the later samples as they stood. -/
theorem SamplesAhead.elementOf {i : Instr} {kk : Container} {m : DitherMode} {c : CtxNum} {s u v : State} {k : Nat}
    (h : SamplesAhead s k u) (hi : f2iShape i = some (kk, m, c)) (hl : Legal i s)
    (hsrc : SourceIntact (Container.bytes kk) s) (hk : k < s.cnt.toNat) (hv : elementOf i k u = .next v) :
    SamplesAhead s (k + 1) v := by
  obtain ⟨hdest, hwidth⟩ := dest_of_f2iShape hi s k
  have hstore := elementOf_storesOne hv
  have haddr := destElement_le_of_legal (ne_dclr_of_f2iShape hi) hl hk
  have hframe := h.frame.trans hstore.keepsFrame
  rw [h.frame.destElement_eq] at hstore
  obtain ⟨hwf, -⟩ := hstore.readByte_eq haddr h.wf (b := destElement i s k + destWidth i) (.inr le_rfl)
  refine ⟨hframe, hwf, fun j hj hjn => ?_⟩
  have hu : srcFixed 4 u j = srcFixed 4 s j := by rw [h.frame]; rfl
  have hvj : srcFixed 4 v j = srcFixed 4 s j := by rw [hframe]; rfl
  have hread : v.load (srcFixed 4 s j) 4 = u.load (srcFixed 4 s j) 4 := by
    refine Memory.read_congr fun b hb => (hstore.readByte_eq haddr h.wf ?_).2
    have := hsrc j hjn k (by omega)
    rw [hdest, hwidth]
    omega
  rw [← h.ahead j (by omega) hjn, sampleWord, sampleWord, hu, hvj, hread]

end Sys2Proof.Machine
end

