-- ==== Sys2Proof/Proofs/NominalShaping.lean ====
section
/-! SUPPORT. The noise shaper on nominal audio (R106, R107). Below 2^24 one rounding moves a number by at most one half,
so with samples in [-1, 1] and errors within 4 every operation stays below 2^24: the quantiser answers, and the error it
stores is the difference of the variates and four halves, which is within 4 again. -/

namespace Sys2Proof.Machine

open Sys2Proof.Claims

/-! ### Roundings below 2^24 -/

/-- The unit of a number below 2^24 is at most 1. -/
theorem Rounded.ulp_nonpos {x : ℚ} {n : Nat} {ulp : Int} (h : Rounded x n ulp) (hx : x < 2 ^ 24) : ulp ≤ 0 := by
  by_contra hulp
  have hnormal := h.normal (by omega)
  rw [le_div_iff₀ (by positivity)] at hnormal
  have hpow : (2 : ℚ) ^ (1 : Int) ≤ 2 ^ ulp := zpow_le_zpow_right₀ (by norm_num) (by omega)
  linarith

theorem RoundsTo.abs_sub_le_half {q : ℚ} {r : Word} (h : RoundsTo q r) (hq : |q| < 2 ^ 24) :
    isFinite r = true ∧ |value r - q| ≤ 1 / 2 := by
  have hfin := h.isFinite_iff.2 (hq.trans (by norm_num))
  obtain ⟨neg, x, n, ulp, hx, rfl, rfl⟩ := h
  rw [abs_applySign, abs_of_nonneg hx.nonneg] at hq
  obtain ⟨hhalf, -⟩ := hx.halfEven
  have hunit : (2 : ℚ) ^ ulp ≤ 2 ^ (0 : Int) := zpow_le_zpow_right₀ (by norm_num) (hx.ulp_nonpos hq)
  refine ⟨hfin, ?_⟩
  rw [hx.value_pattern hfin, abs_sub_applySign, applySign_applySign, abs_mul_zpow_sub]
  calc |(n : ℚ) - x / 2 ^ ulp| * 2 ^ ulp ≤ 1 / 2 * 2 ^ (0 : Int) := mul_le_mul hhalf hunit (by positivity) (by norm_num)
    _ = 1 / 2 := by norm_num

/-- A finite pattern whose value is at most `B` in magnitude. -/
def FiniteWithin (B : ℚ) (b : Word) : Prop := isFinite b = true ∧ |value b| ≤ B

section
variable {A B : ℚ} {a b : Word}

theorem FiniteWithin.mono (h : FiniteWithin A b) (hAB : A ≤ B) : FiniteWithin B b := ⟨h.1, h.2.trans hAB⟩

/-- A rounded number is at most one half larger than the number. -/
theorem RoundsTo.finiteWithin {q : ℚ} (h : RoundsTo q b) (hq : |q| ≤ B) (hB : B < 2 ^ 24) :
    FiniteWithin (B + 1 / 2) b := by
  obtain ⟨hfin, herr⟩ := h.abs_sub_le_half (hq.trans_lt hB)
  have htri := abs_sub_abs_le_abs_sub (value b) q
  exact ⟨hfin, by linarith⟩

theorem FiniteWithin.fmul (ha : FiniteWithin A a) (hb : FiniteWithin B b) (h : A * B < 2 ^ 24) :
    FiniteWithin (A * B + 1 / 2) (fmul a b) := by
  refine (roundsTo_fmul a b).finiteWithin ?_ h
  rw [abs_mul]
  exact mul_le_mul ha.2 hb.2 (abs_nonneg _) ((abs_nonneg _).trans ha.2)

theorem FiniteWithin.fadd (ha : FiniteWithin A a) (hb : FiniteWithin B b) (h : A + B < 2 ^ 24) :
    FiniteWithin (A + B + 1 / 2) (fadd a b) :=
  (roundsTo_fadd a b).finiteWithin ((abs_add_le _ _).trans (add_le_add ha.2 hb.2)) h

theorem FiniteWithin.fsub (ha : FiniteWithin A a) (hb : FiniteWithin B b) (h : A + B < 2 ^ 24) :
    FiniteWithin (A + B + 1 / 2) (fsub a b) :=
  (roundsTo_fsub a b).finiteWithin ((abs_sub _ _).trans (add_le_add ha.2 hb.2)) h

end

/-! ### The operands of a noise-shaped sample -/

/-- A significand has 24 bits. -/
theorem abs_value_le_of_scale_le {b : Word} {e : Int} (h : scale b ≤ e) : |value b| ≤ 2 ^ 24 * (2 : ℚ) ^ e := by
  have hsig : (significand b : ℚ) ≤ 2 ^ 24 := by exact_mod_cast (significand_lt b).le
  rw [abs_value]
  exact mul_le_mul hsig (zpow_le_zpow_right₀ (by norm_num) h) (by positivity) (by norm_num)

/-- A value in the range of R27 is within 1. -/
theorem finiteWithin_of_prevInRange {b : Word} (h : prevInRange b = true) : FiniteWithin 1 b := by
  rw [prevInRange, Bool.or_eq_true, decide_eq_true_eq, beq_iff_eq] at h
  obtain h | rfl := h
  · have hexp : expField b ≤ 126 := by
      rw [expField_eq]
      omega
    have hscale : scale b ≤ -24 := by
      rw [scale]
      split <;> omega
    exact ⟨isFinite_iff.2 (by omega), (abs_value_le_of_scale_le hscale).trans_eq (by norm_num)⟩
  · have hsig : significand 0xBF800000 = 2 ^ 23 := by decide
    have hscale : scale 0xBF800000 = -23 := by decide
    exact ⟨by decide, by rw [abs_value, hsig, hscale]; norm_num⟩

/-- The filter's coefficients are below 4 (R84). -/
theorem finiteWithin_coefficient {b : Word}
    (h : b ∈ [Config.c0, Config.c1, Config.c2, Config.c3, Config.c4]) : FiniteWithin 4 b := by
  have hfields : isFinite b = true ∧ scale b ≤ -22 := by
    revert b
    simp only [List.forall_mem_cons]
    exact ⟨by decide, by decide, by decide, by decide, by decide, nofun⟩
  obtain ⟨hfin, hscale⟩ := hfields
  exact ⟨hfin, (abs_value_le_of_scale_le hscale).trans_eq (by norm_num)⟩

/-- The larger of the two scales is 8388607 (R84). -/
theorem finiteWithin_factor (kk : Container) : FiniteWithin 8388607 (Container.factor kk) := by
  cases kk with
  | int16 =>
    have hsig : significand Config.k16 = 32767 * 2 ^ 9 := by decide
    have hscale : scale Config.k16 = -9 := by decide
    exact ⟨by decide, by rw [Container.factor, abs_value, hsig, hscale]; norm_num⟩
  | int24 =>
    have hsig : significand Config.k24 = 8388607 * 2 := by decide
    have hscale : scale Config.k24 = -1 := by decide
    exact ⟨by decide, by rw [Container.factor, abs_value, hsig, hscale]; norm_num⟩

/-! ### One sample -/

/-- A context with `prev` in the range of R27 and every error within 4, as a reset and `DCLR` leave it. -/
def NominalContext (d : DitherCtx) : Prop :=
  prevInRange d.prev = true ∧ ∀ e ∈ d.err, FiniteWithin 4 e

/-- The errors the filter takes are the context's, or 0. -/
theorem NominalContext.tap {d : DitherCtx} (h : NominalContext d) (k : Nat) : FiniteWithin 4 (d.tap k) := by
  rw [DitherCtx.tap, List.getD_eq_getElem?_getD]
  cases he : d.err[(d.idx + d.err.length - k) % d.err.length]? with
  | none => exact ⟨by decide, by norm_num [abs_value, show significand 0 = 0 by decide]⟩
  | some e => exact h.2 e (List.mem_of_getElem? he)

/-- The filter of R106 on errors within 4. -/
theorem NominalContext.filter {d : DitherCtx} (h : NominalContext d) :
    FilterFinite d ∧ FiniteWithin 85 (filteredError d) := by
  have product : ∀ k, ∀ c ∈ [Config.c0, Config.c1, Config.c2, Config.c3, Config.c4],
      FiniteWithin (33 / 2) (fmul (d.tap k) c) := fun k c hc =>
    ((h.tap k).fmul (finiteWithin_coefficient hc) (by norm_num)).mono (by norm_num)
  have h0 := product 0 Config.c0 (by simp)
  have h1 := product 1 Config.c1 (by simp)
  have h2 := product 2 Config.c2 (by simp)
  have h3 := product 3 Config.c3 (by simp)
  have h4 := product 4 Config.c4 (by simp)
  have h01 := h0.fsub h1 (by norm_num)
  have h012 := h01.fadd h2 (by norm_num)
  have h0123 := h012.fsub h3 (by norm_num)
  have hall := h0123.fadd h4 (by norm_num)
  refine ⟨?_, hall.1, hall.2.trans (by norm_num)⟩
  simp only [FilterFinite, List.forall_mem_cons, List.not_mem_nil, false_imp_iff, implies_true, and_true]
  exact ⟨h0.1, h1.1, h2.1, h3.1, h4.1, h01.1, h012.1, h0123.1, hall.1⟩

/-- The new error of R107: the difference of the variates moves the sample, two roundings and `ROUND` move it by one
half each, and so does the rounding of the error. -/
theorem finiteWithin_newError {xe diff : Word} (hxe : FiniteWithin 8388694 xe) (hdiff : FiniteWithin (5 / 2) diff) :
    FiniteWithin 4 (fsub (i2f (roundToInt (fadd xe diff))) xe) := by
  have hsum : |value xe + value diff| < 2 ^ 24 :=
    (abs_add_le _ _).trans_lt ((add_le_add hxe.2 hdiff.2).trans_lt (by norm_num))
  obtain ⟨-, hadd⟩ := (roundsTo_fadd xe diff).abs_sub_le_half hsum
  obtain ⟨hround, -⟩ := isHalfEven_roundToInt (fadd xe diff)
  have hmoved : |(roundToInt (fadd xe diff) : ℚ) - value xe| ≤ 7 / 2 := by
    have hd := hdiff.2
    rw [abs_le] at *
    constructor <;> linarith
  have hy : |roundToInt (fadd xe diff)| ≤ 2 ^ 24 := by
    have hx := hxe.2
    have hq : |(roundToInt (fadd xe diff) : ℚ)| ≤ 2 ^ 24 := by
      rw [abs_le] at *
      constructor <;> linarith
    exact_mod_cast hq
  obtain ⟨-, hval⟩ := i2f_exact hy
  have hrounds := roundsTo_fsub (i2f (roundToInt (fadd xe diff))) xe
  rw [hval] at hrounds
  exact (hrounds.finiteWithin hmoved (by norm_num)).mono (by norm_num)

/-- A noise-shaped sample of nominal audio is finite throughout and leaves the context nominal (R107). -/
theorem NominalContext.shaped {x : Word} {d : DitherCtx} (h : NominalContext d) (hx : FiniteWithin 8388608 x)
    (w : Draw) :
    ShapingFinite x w d ∧ NominalContext (shapedContext x w d) := by
  obtain ⟨hfilter, hfe⟩ := h.filter
  have hxe : FiniteWithin 8388694 (shapedSample x d) := (hx.fsub hfe (by norm_num)).mono (by norm_num)
  have hdiff : FiniteWithin (5 / 2) (fsub (triangular w) d.prev) :=
    ((finiteWithin_of_prevInRange (prevInRange_triangular w)).fsub (finiteWithin_of_prevInRange h.1)
      (by norm_num)).mono (by norm_num)
  have hxq := hxe.fadd hdiff (by norm_num)
  have hnew := finiteWithin_newError hxe hdiff
  refine ⟨⟨hfilter, ?_⟩, prevInRange_triangular w, fun e he => ?_⟩
  · simp only [List.forall_mem_cons, List.not_mem_nil, false_imp_iff, implies_true, and_true]
    exact ⟨hxe.1, hdiff.1, hxq.1, hnew.1⟩
  · obtain he | rfl := List.mem_or_eq_of_mem_set he
    · exact h.2 e he
    · exact hnew

/-! ### The command -/

/-- A sample in [-1, 1] is scaled to at most 8388607 and one half (R120). -/
theorem sampleFinite_of_finiteWithin {kk : Container} {s : State} {k : Nat} (h : FiniteWithin 1 (sampleWord s k)) :
    SampleFinite (Container.factor kk) s k ∧ FiniteWithin 8388608 (scaled (Container.factor kk) s k) := by
  have hx := h.fmul (finiteWithin_factor kk) (by norm_num)
  exact ⟨⟨h.1, hx.1⟩, hx.mono (by norm_num)⟩

/-- Where every operation is finite, `QUANT` in the noise-shaped mode is R107. -/
theorem quantise_shp_eq_some {c : CtxNum} {x : Word} {s : State} (h : ShapingFinite x s.nextDraw (s.context c)) :
    quantise .shp c x s = some (shapedValue x s.nextDraw (s.context c),
      s.drawn.setContext c (shapedContext x s.nextDraw (s.context c))) := by
  simp only [quantise, quantShp_eq_some.2 ⟨h, rfl⟩, Option.bind_eq_bind, Option.bind_some]

/-- An element of a noise-shaped command with its sample in [-1, 1] and a nominal context completes and leaves the
context nominal. -/
theorem elementOf_shp_nominal {i : Instr} {kk : Container} {c : CtxNum} {k : Nat} {u : State}
    (hi : f2iShape i = some (kk, .shp, c)) (hc : c.toNat < u.dither.length) (hx : FiniteWithin 1 (sampleWord u k))
    (hd : NominalContext (u.context c)) : ∃ v, elementOf i k u = .next v ∧ NominalContext (v.context c) := by
  obtain ⟨hfin, hscaled⟩ := sampleFinite_of_finiteWithin (kk := kk) hx
  obtain ⟨hshape, hnext⟩ := hd.shaped hscaled u.nextDraw
  rw [elementOf_f2i hi]
  refine ⟨_, convertElement_next.2 ⟨_, _, _, scaledSample_of_sampleFinite hfin, quantise_shp_eq_some hshape, rfl⟩, ?_⟩
  rwa [State.context_store, State.context_setContext_same u.drawn _ _ hc]

/-- A legal noise-shaped command on samples in [-1, 1], none of them stored over before its turn, and a nominal context
completes and leaves the context nominal. -/
theorem exec_shp_nominal {i : Instr} {kk : Container} {c : CtxNum} {s : State}
    (hi : f2iShape i = some (kk, .shp, c)) (hm : Memory.wf s.mem = true)
    (hl : Legal i s) (hsrc : SourceIntact (Container.bytes kk) s) (hd : NominalContext (s.context c))
    (hx : ∀ k < s.cnt.toNat, FiniteWithin 1 (sampleWord s k)) :
    ∃ t, exec i s = .next t ∧ NominalContext (t.context c) := by
  have hc := lt_length_of_wellFormed hl.1 (usedContext_of_mode hi (.inr rfl))
  rw [exec_legal (ne_dclr_of_f2iShape hi) hl]
  obtain ⟨t, ht, -, -, hnominal⟩ := forElements_completes (n := s.cnt.toNat)
    (P := fun k u => SamplesAhead s k u ∧ u.dither.length = s.dither.length ∧ NominalContext (u.context c))
    ⟨SamplesAhead.start hm, rfl, hd⟩ fun k u _ hk ⟨hahead, hlen, hu⟩ => by
      obtain ⟨v, hv, hnext⟩ := elementOf_shp_nominal hi (hlen ▸ hc)
        (hahead.ahead k le_rfl (by omega) ▸ hx k (by omega)) hu
      exact ⟨v, hv, hahead.elementOf hi hl hsrc (by omega) hv, (elementOf_length hv).trans hlen, hnext⟩
  exact ⟨t, ht, hnominal⟩

end Sys2Proof.Machine
end

