-- ==== Sys2Proof/Proofs/Halves.lean ====
section
/-! SUPPORT. A block cut in two (R110). The streams of the second half are those of the whole, moved on by the elements
of the first; so element `j` of the second half is element `m + j` of the whole, and does the same but for the operand
registers and the element number that a fault names. -/

namespace Sys2Proof.Machine

open Sys2Proof.Claims

/-! ### Completion -/

/-- The next state of a result, if there is one. -/
def completion : Result → Option State
  | .next s => some s
  | .fault _ | .refused _ => none

theorem completion_eq_some {r : Result} {t : State} : completion r = some t ↔ r = .next t := by
  cases r <;> simp [completion]

theorem completion_andThen (r : Result) (f : State → Result) :
    completion (andThen r f) = (completion r).bind fun s => completion (f s) := by
  cases r <;> rfl

/-! ### Streams moved on -/

/-- The stream from its element `m` on. -/
def Stream.advance (m : Nat) (st : Stream) : Stream := { st with base := st.element m }

theorem Stream.element_advance (m j : Nat) (st : Stream) : (st.advance m).element j = st.element (m + j) := by
  simp only [Stream.element, Stream.advance, Nat.add_mul, Nat.add_assoc]

/-- The state with other pointers and another count. -/
def State.withBlock (src dst cnt : Word) (s : State) : State := { s with src := src, dst := dst, cnt := cnt }

theorem toNat_add_ofNat {a : Word} {k : Nat} (h : a.toNat + k < 2 ^ 32) :
    (a + BitVec.ofNat 32 k).toNat = a.toNat + k := by
  rw [BitVec.toNat_add, BitVec.toNat_ofNat, Nat.add_mod_mod, Nat.mod_eq_of_lt h]

section
variable {s : State} {m d w : Nat} {a cnt : Word}

theorem fixedSource_withBlock (hd : d = w) (h : (fixedSource s w).element m < 2 ^ 32) :
    fixedSource (s.withBlock (s.src + BitVec.ofNat 32 (m * d)) a cnt) w = (fixedSource s w).advance m := by
  rw [hd]
  exact congrArg (Stream.mk .source · w false w) (toNat_add_ofNat h)

theorem stridedSource_withBlock (hd : d = s.sstride.toNat) (h : (stridedSource s w).element m < 2 ^ 32) :
    stridedSource (s.withBlock (s.src + BitVec.ofNat 32 (m * d)) a cnt) w = (stridedSource s w).advance m := by
  rw [hd]
  exact congrArg (Stream.mk .source · s.sstride.toNat true w) (toNat_add_ofNat h)

theorem fixedDest_withBlock (hd : d = w) (h : (fixedDest s w).element m < 2 ^ 32) :
    fixedDest (s.withBlock a (s.dst + BitVec.ofNat 32 (m * d)) cnt) w = (fixedDest s w).advance m := by
  rw [hd]
  exact congrArg (Stream.mk .destination · w false w) (toNat_add_ofNat h)

theorem stridedDest_withBlock (hd : d = s.dstride.toNat) (h : (stridedDest s w).element m < 2 ^ 32) :
    stridedDest (s.withBlock a (s.dst + BitVec.ofNat 32 (m * d)) cnt) w = (stridedDest s w).advance m := by
  rw [hd]
  exact congrArg (Stream.mk .destination · s.dstride.toNat true w) (toNat_add_ofNat h)

end

/-- The operands of the second half of a block: both pointers moved on by `m` elements, the rest of the count. -/
def State.secondBlock (i : Instr) (s : State) (m : Nat) : State → State :=
  State.withBlock (s.src + BitVec.ofNat 32 (m * strideOf i s .source))
    (s.dst + BitVec.ofNat 32 (m * strideOf i s .destination)) (BitVec.ofNat 32 (s.cnt.toNat - m))

theorem secondHalf_withCount (i : Instr) (s u : State) (m : Nat) :
    secondHalf i s (withCount u m) m = State.secondBlock i s m u := rfl

/-- Where element `m` of every stream stands in the address space, moving the pointers on moves the streams on. -/
theorem streamsOf_secondBlock {i : Instr} {s : State} {m : Nat} (h : ∀ st ∈ streamsOf i s, st.element m < 2 ^ 32) :
    streamsOf i (State.secondBlock i s m s) = (streamsOf i s).map (Stream.advance m) := by
  have two : ∀ {a b a' b' : Stream}, a = a' → b = b' → [a, b] = [a', b'] := by rintro _ _ _ _ rfl rfl; rfl
  cases i with
  | dclr c => rfl
  | fill8 | fill16 | fill32 => exact congrArg (fun st => [st]) (stridedDest_withBlock rfl (h _ (by simp [streamsOf])))
  | i2f16 | i2f24 =>
    exact two (stridedSource_withBlock rfl (h _ (by simp [streamsOf])))
      (fixedDest_withBlock rfl (h _ (by simp [streamsOf])))
  | mcpyc16 | mcpyc32 =>
    exact two (fixedSource_withBlock rfl (h _ (by simp [streamsOf])))
      (fixedDest_withBlock rfl (h _ (by simp [streamsOf])))
  | cpy16 | cpy32 | mcpy16 | mcpy32 =>
    exact two (stridedSource_withBlock rfl (h _ (by simp [streamsOf])))
      (stridedDest_withBlock rfl (h _ (by simp [streamsOf])))
  | _ =>
    exact two (fixedSource_withBlock rfl (h _ (by simp [streamsOf])))
      (stridedDest_withBlock rfl (h _ (by simp [streamsOf])))

/-! ### The contract of the halves -/

/-- The first `m` elements of a legal stream are a legal stream. -/
theorem StreamLegal.first {owned : List Extent} {n m : Nat} {st : Stream} (h : StreamLegal owned n st) (hm : m ≤ n) :
    StreamLegal owned m st := by
  obtain ⟨hstride, hbase, halign, hlast, hown⟩ := h
  have hmul : (m - 1) * st.stride ≤ (n - 1) * st.stride := Nat.mul_le_mul_right _ (by omega)
  exact ⟨hstride, hbase, halign, by omega, fun k hk => hown k (by omega)⟩

/-- The elements of a legal stream from element `m` on are a legal stream. -/
theorem StreamLegal.rest {i : Instr} {s : State} {m : Nat} {st : Stream} (hst : st ∈ streamsOf i s)
    (h : StreamLegal s.owned s.cnt.toNat st) (hm : m < s.cnt.toNat) :
    StreamLegal s.owned (s.cnt.toNat - m) (st.advance m) := by
  obtain ⟨hstride, -, halign, hlast, hown⟩ := id h
  have hsum : m * st.stride + (s.cnt.toNat - m - 1) * st.stride = (s.cnt.toNat - 1) * st.stride := by
    rw [← Nat.add_mul]
    congr 1
    omega
  refine ⟨hstride, element_mod_width hst h m, halign, ?_, fun k hk j hj => ?_⟩
  · simp only [Stream.advance, Stream.element]
    omega
  · rw [Stream.element_advance]
    exact hown (m + k) (by omega) j hj

theorem legal_withCount {i : Instr} {s : State} {m : Nat} (h : Legal i s) (hm : m ≤ s.cnt.toNat) :
    Legal i (withCount s m) := by
  have hstreams : streamsOf i (withCount s m) = streamsOf i s := by cases i <;> rfl
  have hcnt : (withCount s m).cnt.toNat = m := Nat.mod_eq_of_lt (hm.trans_lt s.cnt.isLt)
  refine ⟨h.1, fun h0 st hst => ?_⟩
  rw [count_toNat_ne_zero, hcnt] at h0
  rw [hstreams] at hst
  rw [hcnt]
  exact (h.2 (count_toNat_ne_zero.2 (by omega)) st hst).first hm

/-! ### Elements with other pointers -/

/-- Element `j` of every stream of the command in the state `u'` stands where element `k` of it stands in `u`. -/
def SameElements (i : Instr) (j : Nat) (u' : State) (k : Nat) (u : State) : Prop :=
  (streamsOf i u').map (Stream.element · j) = (streamsOf i u).map (Stream.element · k)

theorem element_eq_of_pair {a b a' b' : Stream} {j k : Nat}
    (h : [a', b'].map (Stream.element · j) = [a, b].map (Stream.element · k)) :
    a'.element j = a.element k ∧ b'.element j = b.element k := by
  simpa using h

theorem element_fixedSource (s : State) (w k : Nat) : (fixedSource s w).element k = srcFixed w s k :=
  congrArg (_ + ·) (Nat.mul_comm k w)

theorem element_stridedSource (s : State) (w k : Nat) : (stridedSource s w).element k = srcStrided s k := rfl

theorem element_fixedDest (s : State) (w k : Nat) : (fixedDest s w).element k = dstFixed w s k :=
  congrArg (_ + ·) (Nat.mul_comm k w)

theorem element_stridedDest (s : State) (w k : Nat) : (stridedDest s w).element k = dstStrided s k := rfl

/-- Where the streams of a float-reading command stand (R120, R140). -/
theorem addresses_of_fixed_strided {u u' : State} {w w' j k : Nat}
    (h : [fixedSource u' w, stridedDest u' w'].map (Stream.element · j) =
      [fixedSource u w, stridedDest u w'].map (Stream.element · k)) :
    srcFixed w u' j = srcFixed w u k ∧ dstStrided u' j = dstStrided u k := by
  rw [← element_fixedSource, ← element_fixedSource]
  exact element_eq_of_pair h

section
variable (src dst cnt : Word) {j k w : Nat} {u : State}

/-- `QUANT` reads no operand register (R108). -/
theorem quantise_withBlock (m : DitherMode) (c : CtxNum) (x : Word) (u : State) :
    quantise m c x (u.withBlock src dst cnt) = (quantise m c x u).map fun p => (p.1, p.2.withBlock src dst cnt) := by
  have hdraw : (u.withBlock src dst cnt).nextDraw = u.nextDraw := rfl
  have hctx : (u.withBlock src dst cnt).context c = u.context c := rfl
  cases m with
  | none => rfl
  | rect =>
    simp only [quantise, hdraw]
    cases quantRect x u.nextDraw <;> rfl
  | tri =>
    simp only [quantise, hdraw, hctx]
    cases quantTri x u.nextDraw (u.context c) <;> rfl
  | shp =>
    simp only [quantise, hdraw, hctx]
    cases quantShp x u.nextDraw (u.context c) <;> rfl

theorem scaledSample_withBlock (h : srcFixed 4 (u.withBlock src dst cnt) j = srcFixed 4 u k) (kk : Container) :
    scaledSample kk j (u.withBlock src dst cnt) = scaledSample kk k u := by
  simp only [scaledSample, loadSample, h]
  rfl

/-- Equal values stored at equal addresses leave the same but for the operand registers. -/
theorem store_withBlock {a a' v v' : Nat} (ha : a' = a) (hv : v' = v) :
    completion (.next ((u.withBlock src dst cnt).store a' w v')) =
      (completion (.next (u.store a w v))).map (State.withBlock src dst cnt) := by
  rw [ha, hv]
  rfl

theorem convertElement_withBlock (hsrc : srcFixed 4 (u.withBlock src dst cnt) j = srcFixed 4 u k)
    (hdst : dstStrided (u.withBlock src dst cnt) j = dstStrided u k) (kk : Container) (m : DitherMode) (c : CtxNum) :
    completion (convertElement kk m c j (u.withBlock src dst cnt)) =
      (completion (convertElement kk m c k u)).map (State.withBlock src dst cnt) := by
  simp only [convertElement, scaledSample_withBlock src dst cnt hsrc, quantise_withBlock, hdst]
  cases scaledSample kk k u with
  | none => rfl
  | some x =>
    dsimp only
    cases quantise m c x u <;> rfl

theorem mergeElement16_withBlock (hsrc : srcFixed 4 (u.withBlock src dst cnt) j = srcFixed 4 u k)
    (hdst : dstStrided (u.withBlock src dst cnt) j = dstStrided u k) :
    completion (mergeElement16 j (u.withBlock src dst cnt)) =
      (completion (mergeElement16 k u)).map (State.withBlock src dst cnt) := by
  simp only [mergeElement16, scaledSample_withBlock src dst cnt hsrc, hdst]
  cases scaledSample .int16 k u <;> rfl

theorem mergeElement24_withBlock (hsrc : srcFixed 4 (u.withBlock src dst cnt) j = srcFixed 4 u k)
    (hdst : dstStrided (u.withBlock src dst cnt) j = dstStrided u k) :
    completion (mergeElement24 j (u.withBlock src dst cnt)) =
      (completion (mergeElement24 k u)).map (State.withBlock src dst cnt) := by
  simp only [mergeElement24, scaledSample_withBlock src dst cnt hsrc, hdst]
  cases scaledSample .int24 k u <;> rfl

/-- An element does the same wherever its number and the pointers put it, but for the operand registers and for the
number that a fault names. -/
theorem elementOf_withBlock {i : Instr} (h : SameElements i j (u.withBlock src dst cnt) k u) :
    completion (elementOf i j (u.withBlock src dst cnt)) =
      (completion (elementOf i k u)).map (State.withBlock src dst cnt) := by
  have hload : ∀ {a' a : Nat} (w : Nat), a' = a → (u.withBlock src dst cnt).load a' w = u.load a w := by
    rintro a _ w rfl
    rfl
  cases i with
  | dclr c => rfl
  | fill8 | fill16 | fill32 =>
    obtain ⟨hdst, -⟩ := List.cons.inj h
    exact store_withBlock src dst cnt hdst rfl
  | i2f16 | i2f24 =>
    obtain ⟨hsrc, hdst⟩ := element_eq_of_pair h
    rw [element_stridedSource, element_stridedSource] at hsrc
    rw [element_fixedDest, element_fixedDest] at hdst
    exact store_withBlock src dst cnt hdst (by rw [hload _ hsrc])
  | cpy16 | cpy32 =>
    obtain ⟨hsrc, hdst⟩ := element_eq_of_pair h
    exact store_withBlock src dst cnt hdst (hload _ hsrc)
  | mcpy16 | mcpy32 =>
    obtain ⟨hsrc, hdst⟩ := element_eq_of_pair h
    rw [element_stridedSource, element_stridedSource] at hsrc
    rw [element_stridedDest, element_stridedDest] at hdst
    exact store_withBlock src dst cnt hdst (by rw [hload _ hsrc, hload _ hdst])
  | mcpyc16 | mcpyc32 =>
    obtain ⟨hsrc, hdst⟩ := element_eq_of_pair h
    rw [element_fixedSource, element_fixedSource] at hsrc
    rw [element_fixedDest, element_fixedDest] at hdst
    exact store_withBlock src dst cnt hdst (by rw [hload _ hsrc, hload _ hdst])
  | fmrg16 =>
    obtain ⟨hsrc, hdst⟩ := addresses_of_fixed_strided h
    exact mergeElement16_withBlock src dst cnt hsrc hdst
  | fmrg24 =>
    obtain ⟨hsrc, hdst⟩ := addresses_of_fixed_strided h
    exact mergeElement24_withBlock src dst cnt hsrc hdst
  | f2i16 c =>
    obtain ⟨hsrc, hdst⟩ := addresses_of_fixed_strided h
    exact convertElement_withBlock src dst cnt hsrc hdst .int16 .none c
  | f2i24 c =>
    obtain ⟨hsrc, hdst⟩ := addresses_of_fixed_strided h
    exact convertElement_withBlock src dst cnt hsrc hdst .int24 .none c
  | f2i16Rect | f2i24Rect | f2i16Tri | f2i24Tri | f2i16Shp | f2i24Shp =>
    obtain ⟨hsrc, hdst⟩ := addresses_of_fixed_strided h
    exact convertElement_withBlock src dst cnt hsrc hdst _ _ _

end

/-! ### The two halves -/

section
variable {i : Instr} {s : State} {m : Nat}

theorem forElements_keepsFrame {n j : Nat} {u v : State} (h : forElements (elementOf i) n j u = .next v) :
    KeepsFrame u v :=
  forElements_keeps (P := fun _ w => KeepsFrame u w) (KeepsFrame.refl u)
    (fun _ _ _ _ _ hu hv => hu.trans (elementOf_keepsFrame hv)) h

theorem forElements_length {n j : Nat} {u v : State} (h : forElements (elementOf i) n j u = .next v) :
    v.dither.length = u.dither.length :=
  forElements_keeps (P := fun _ w => w.dither.length = u.dither.length) rfl
    (fun _ _ _ _ _ hu hv => (elementOf_length hv).trans hu) h

/-- With a stream moved on, its element `j` is element `m + j` of the whole, wherever the command stands. -/
theorem sameElements_secondBlock {u : State} (h : ∀ st ∈ streamsOf i s, st.element m < 2 ^ 32) (hu : KeepsFrame s u)
    (j : Nat) : SameElements i j (State.secondBlock i s m u) (m + j) u := by
  have hframe : KeepsFrame (State.secondBlock i s m s) (State.secondBlock i s m u) := by rw [hu]; rfl
  simp only [SameElements, hframe.streamsOf_eq, hu.streamsOf_eq, streamsOf_secondBlock h, List.map_map,
    Function.comp_def, Stream.element_advance]

/-- The elements of the second half are those of the whole from element `m` on. -/
theorem completion_forElements_secondBlock (h : ∀ st ∈ streamsOf i s, st.element m < 2 ^ 32) (n j : Nat) {u : State}
    (hu : KeepsFrame s u) :
    completion (forElements (elementOf i) n j (State.secondBlock i s m u)) =
      (completion (forElements (elementOf i) n (m + j) u)).map (State.secondBlock i s m) := by
  induction n generalizing j u with
  | zero => rfl
  | succ n ih =>
    have hel : completion (elementOf i j (State.secondBlock i s m u)) =
        (completion (elementOf i (m + j) u)).map (State.secondBlock i s m) :=
      elementOf_withBlock _ _ _ (sameElements_secondBlock h hu j)
    rw [forElements_succ, forElements_succ, completion_andThen, completion_andThen, hel]
    cases hv : elementOf i (m + j) u with
    | next v => exact ih (j + 1) (hu.trans (elementOf_keepsFrame hv))
    | fault f => rfl
    | refused r => rfl

theorem SameAnswer.of_next_right {R : State → State → Prop} {r : Result} {t' : State}
    (h : SameAnswer R r (.next t')) : ∃ t, r = .next t ∧ R t t' := by
  cases h with
  | next ht => exact ⟨_, rfl, ht⟩

/-- The first half is the first `m` elements of the whole. -/
theorem exec_withCount_eq_next {t : State} (hi : ∀ c, i ≠ .dclr c) (hl : Legal i s) (hm : m ≤ s.cnt.toNat) :
    exec i (withCount s m) = .next t ↔
      ∃ u, forElements (elementOf i) m 0 s = .next u ∧ t = withCount u m := by
  have hcnt : (withCount s m).cnt.toNat = m := Nat.mod_eq_of_lt (hm.trans_lt s.cnt.isLt)
  have hsame : SameAnswer (CntIs (BitVec.ofNat 32 m)) (forElements (elementOf i) m 0 s)
      (forElements (elementOf i) m 0 (withCount s m)) := forElements_withCnt i m 0 _ s
  rw [exec_legal hi (legal_withCount hl hm), hcnt]
  constructor
  · intro h
    rw [h] at hsame
    exact hsame.of_next_right
  · rintro ⟨u, hu, rfl⟩
    rw [hu] at hsame
    obtain ⟨t, ht, rfl⟩ := hsame.of_next
    exact ht

theorem element_lt_of_legal (hl : Legal i s) (hm : m < s.cnt.toNat) : ∀ st ∈ streamsOf i s, st.element m < 2 ^ 32 := by
  intro st hst
  obtain ⟨hpos, -⟩ := width_pos_and_stride_of_mem_streamsOf hst
  have hle := element_le_of_streamLegal (hl.2 (count_toNat_ne_zero.2 (by omega)) st hst) hm
  unfold Config.addressSpace at hle
  omega

/-- The second half of a legal command is legal on what the first half leaves. -/
theorem legal_secondBlock {u : State} (hl : Legal i s) (hm : m < s.cnt.toNat) (hu : KeepsFrame s u)
    (hlen : u.dither.length = s.dither.length) : Legal i (State.secondBlock i s m u) := by
  have hframe : KeepsFrame (State.secondBlock i s m s) (State.secondBlock i s m u) := by rw [hu]; rfl
  have howned : (State.secondBlock i s m u).owned = s.owned := by rw [hu]; rfl
  have hcnt : (State.secondBlock i s m u).cnt.toNat = s.cnt.toNat - m :=
    Nat.mod_eq_of_lt ((Nat.sub_le _ _).trans_lt s.cnt.isLt)
  obtain ⟨hw, hstreams⟩ := hl
  refine ⟨hlen.symm ▸ hw, fun _ st hst => ?_⟩
  rw [hframe.streamsOf_eq, streamsOf_secondBlock (element_lt_of_legal ⟨hw, hstreams⟩ hm)] at hst
  obtain ⟨whole, hwhole, rfl⟩ := List.mem_map.1 hst
  rw [howned, hcnt]
  exact StreamLegal.rest hwhole (hstreams (count_toNat_ne_zero.2 (by omega)) whole hwhole) hm

/-- The second half is the elements of the whole from element `m` on; with nothing left it does nothing. -/
theorem exec_secondBlock_eq_next {u v : State} (hi : ∀ c, i ≠ .dclr c) (hl : Legal i s) (hm : m ≤ s.cnt.toNat)
    (hu : KeepsFrame s u) (hlen : u.dither.length = s.dither.length) :
    exec i (State.secondBlock i s m u) = .next v ↔
      ∃ w, forElements (elementOf i) (s.cnt.toNat - m) m u = .next w ∧ v = State.secondBlock i s m w := by
  have hcnt : (State.secondBlock i s m u).cnt.toNat = s.cnt.toNat - m :=
    Nat.mod_eq_of_lt ((Nat.sub_le _ _).trans_lt s.cnt.isLt)
  obtain rfl | hlt := hm.eq_or_lt
  · have h0 : (State.secondBlock i s s.cnt.toNat u).cnt = 0 := by
      rw [← not_ne_iff, count_toNat_ne_zero, hcnt, Nat.sub_self]
      simp
    rw [exec_of_cnt_eq_zero hi (hlen.symm ▸ hl.1) h0, Nat.sub_self]
    simp [eq_comm]
  · rw [exec_legal hi (legal_secondBlock hl hlt hu hlen), hcnt, ← completion_eq_some,
      completion_forElements_secondBlock (element_lt_of_legal hl hlt) _ _ hu, Option.map_eq_some_iff]
    simp only [completion_eq_some, Nat.add_zero, @eq_comm _ v]

end

end Sys2Proof.Machine
end

