-- ==== Sys2Proof/Proofs/DitherFamily.lean ====
section
/-! The statements about dither (41_dither.md), each a short use of the lemmas above. -/

namespace Sys2Proof.Machine

open Sys2Proof.Claims

/-- Settles O42: the agreement of `prev` and of the five newest errors is kept by every sample, and a command writes no
context but its own. -/
theorem historySizeDoesNotMatter : Obligations.HistorySizeDoesNotMatter := by
  intro i s s' h
  have hsame := exec_sameAnswer_of_sameButHistorySize i h
  refine ⟨fun t ht => ?_, fun f hf => ?_⟩
  · rw [ht] at hsame
    exact hsame.of_next
  · rw [hf] at hsame
    exact hsame.of_fault

/-- Settles O45: on nominal audio every operation of the shaper stays below 2^24. -/
theorem nominalNoiseShapingNeverFaults : Obligations.NominalNoiseShapingNeverFaults := by
  intro c s i w hcmd hm hl hsrc _ _ hprev herr hx
  obtain ⟨rfl, rfl⟩ | ⟨rfl, rfl⟩ := hcmd
  · exact exec_shp_nominal (kk := .int16) rfl hm hl hsrc ⟨hprev, herr⟩ hx
  · exact exec_shp_nominal (kk := .int24) rfl hm hl hsrc ⟨hprev, herr⟩ hx

/-- Settles O41: the element loop is cut where the block is, and either part does the same as a command of its own. -/
theorem twoHalvesMakeTheWhole : Obligations.TwoHalvesMakeTheWhole := by
  intro i s v m hi hl hm
  have hcut := forElements_add (elementOf i) m (s.cnt.toNat - m) 0 s
  rw [Nat.add_sub_cancel' hm, Nat.zero_add] at hcut
  have restore : ∀ {w : State}, KeepsFrame s w →
      { State.secondBlock i s m w with src := s.src, dst := s.dst, cnt := s.cnt } = w := fun hw => by rw [hw]; rfl
  rw [exec_legal hi hl, hcut, andThen_eq_next]
  constructor
  · rintro ⟨u, hu, hv⟩
    have hframe := forElements_keepsFrame hu
    exact ⟨_, _, (exec_withCount_eq_next hi hl hm).2 ⟨u, hu, rfl⟩,
      (exec_secondBlock_eq_next hi hl hm hframe (forElements_length hu)).2 ⟨v, hv, rfl⟩,
      (restore (hframe.trans (forElements_keepsFrame hv))).symm⟩
  · rintro ⟨t, v', ht, hv', rfl⟩
    obtain ⟨u, hu, rfl⟩ := (exec_withCount_eq_next hi hl hm).1 ht
    rw [secondHalf_withCount] at hv'
    have hframe := forElements_keepsFrame hu
    obtain ⟨w, hw, rfl⟩ := (exec_secondBlock_eq_next hi hl hm hframe (forElements_length hu)).1 hv'
    rw [restore (hframe.trans (forElements_keepsFrame hw))]
    exact ⟨u, hu, hw⟩

/-- Settles O43: equality of the values is kept by every sample. -/
theorem equalContextsGiveEqualOutput : Obligations.EqualContextsGiveEqualOutput := by
  intro f hf s c e hc he heq
  have hrel : ContextsRelated Eq c e s s := ⟨rfl, hc, he, heq⟩
  have hsame : SameAnswer (ContextsRelated Eq c e) (exec (f c) s) (exec (f e) s) := by
    obtain rfl | rfl | rfl | rfl := hf <;> exact hrel.exec keptBySamples_eq (by simp) rfl rfl rfl
  refine ⟨fun t ht => ?_, fun q hq => ?_⟩
  · rw [ht] at hsame
    obtain ⟨t', ht', hr⟩ := hsame.of_next
    exact ⟨t', ht', by rw [hr.same]; rfl, by rw [hr.same]; rfl, hr.rel.symm⟩
  · rw [hq] at hsame
    exact hsame.of_fault

/-- Settles O27: an element takes the draws of its mode. -/
theorem drawsPerCommand : Obligations.DrawsPerCommand := by
  refine fun i s t h => ⟨fun ⟨c, hc⟩ => ?_, fun hi => ?_⟩
  · have hone : drawsPerElement i = 1 := by obtain rfl | rfl | rfl | rfl | rfl | rfl := hc <;> rfl
    rw [exec_rndIdx h, hone, Nat.mul_one]
  · rw [exec_rndIdx h, drawsPerElement_eq_zero hi, Nat.mul_zero, Nat.add_zero]

/-- Settles O55: the variate is a fraction of 24 bits. -/
theorem uniformVariateIsExact : Obligations.UniformVariateIsExact := by
  refine ⟨fun w => ?_, by decide, by decide +kernel, by decide +kernel⟩
  obtain ⟨hfin, hval⟩ := value_uniform w
  obtain ⟨hlo, hhi⟩ := draw_bounds w
  rw [hval]
  exact ⟨hfin, rfl, by positivity, by rw [div_le_iff₀ (by positivity)]; linarith⟩

/-- Settles O56: the variate is a fraction of 24 bits with a sign. -/
theorem triangularVariateIsExact : Obligations.TriangularVariateIsExact := by
  refine ⟨fun w => ?_, by decide +kernel, by decide +kernel, by decide, by decide +kernel, by decide +kernel,
    by decide +kernel⟩
  obtain ⟨hfin, hval⟩ := value_triangular w
  obtain ⟨hlo, hhi⟩ := draw_bounds w
  rw [hval]
  exact ⟨hfin, rfl, by rw [le_div_iff₀ (by positivity)]; linarith, by rw [div_le_iff₀ (by positivity)]; linarith⟩

/-- Settles O38: the command's word is its three parts side by side, and its check is the context check alone. -/
theorem dclrClearsOneContext : Obligations.DclrClearsOneContext := by
  intro c s
  refine ⟨encode_dclr c, fun hc => exec_of_contextViolation ?_, exec_dclr⟩
  simp [contextViolation, usedContext, hc]

end Sys2Proof.Machine
end

