-- ==== Sys2Proof/Proofs/Completion.lean ====
section
/-! SUPPORT. How a command can end (R171, R183): it is never refused, inside the contract it completes or stops at an
element that is not finite, and outside it the checks report a violation. -/

namespace Sys2Proof.Machine

/-- A loop whose elements refuse nothing completes or faults at one of its elements. -/
theorem forElements_next_or_fault {el : Nat → State → Result} (hel : ∀ k u r, el k u ≠ .refused r) (n i : Nat)
    (s : State) :
    (∃ t, forElements el n i s = .next t) ∨
    ∃ k u f, i ≤ k ∧ k < i + n ∧ el k u = .fault f ∧ forElements el n i s = .fault f := by
  induction n generalizing i s with
  | zero => exact .inl ⟨s, rfl⟩
  | succ n ih =>
    rw [forElements_succ]
    cases hi : el i s with
    | next u =>
      obtain hnext | ⟨k, v, f, hik, hkn, hf, hfault⟩ := ih (i + 1) u
      · exact .inl hnext
      · exact .inr ⟨k, v, f, by omega, by omega, hf, hfault⟩
    | fault f => exact .inr ⟨i, s, f, le_rfl, by omega, hi, rfl⟩
    | refused r => exact absurd hi (hel i s r)

/-- The command reads floating samples: it converts them to integers or merges them (R120, R140). -/
def ReadsFloats (i : Instr) : Prop := (∃ p, f2iShape i = some p) ∨ i = .fmrg16 ∨ i = .fmrg24

/-- Such a command has a contiguous source of 4-byte elements and a destination at `DSTRIDE` (R52). -/
theorem ReadsFloats.streamsOf_eq {i : Instr} (h : ReadsFloats i) (s : State) :
    ∃ w, streamsOf i s = [fixedSource s 4, stridedDest s w] := by
  obtain ⟨p, hp⟩ | rfl | rfl := h
  · cases i with
    | f2i16 | f2i24 | f2i16Rect | f2i24Rect | f2i16Tri | f2i24Tri | f2i16Shp | f2i24Shp => exact ⟨_, rfl⟩
    | _ => cases hp
  · exact ⟨2, rfl⟩
  · exact ⟨4, rfl⟩

/-- A command inside the contract completes, or it reads floating samples and stops at an element that is not finite
(R91). -/
theorem exec_next_or_nonFinite {i : Instr} {s : State} (h : Legal i s) :
    (∃ t, exec i s = .next t) ∨ ∃ k < s.cnt.toNat, exec i s = .fault (.nonFinite k) ∧ ReadsFloats i := by
  by_cases hi : ∃ c, i = .dclr c
  · obtain ⟨c, rfl⟩ := hi
    exact .inl ⟨_, exec_dclr (lt_length_of_wellFormed h.1 rfl)⟩
  · rw [exec_legal (not_exists.1 hi) h]
    obtain hnext | ⟨k, u, f, -, hk, hf, hfault⟩ :=
      forElements_next_or_fault (fun _ _ _ => elementOf_not_refused) s.cnt.toNat 0 s
    · exact .inl hnext
    · obtain ⟨rfl, hreads⟩ := elementOf_fault hf
      exact .inr ⟨k, by omega, hfault, hreads⟩

/-- A command inside the contract that reads no floating sample completes. -/
theorem exec_completes {i : Instr} {s : State} (h : Legal i s) (hi : ¬ ReadsFloats i) : ∃ t, exec i s = .next t := by
  obtain hnext | ⟨-, -, -, hreads⟩ := exec_next_or_nonFinite h
  · exact hnext
  · exact absurd hreads hi

/-- Outside the contract the checks report a violation of kind 2 to 6 (R133, R171). -/
theorem exec_of_not_legal {i : Instr} {s : State} (h : ¬ Legal i s) :
    ∃ f, exec i s = .fault f ∧ 2 ≤ f.code ∧ f.code ≤ 6 := by
  obtain ⟨f, -, hc | ⟨hc, h0, ho⟩⟩ := runCommand_illegal (el := elementOf i) h
  · obtain ⟨c, rfl⟩ := contextViolation_eq_some hc
    exact ⟨_, exec_of_contextViolation hc, by simp [Fault.code]⟩
  · obtain ⟨hlo, hhi⟩ := operandViolation_code ho
    exact ⟨f, exec_of_operandViolation (contextViolation_eq_none.1 hc) h0 ho, by omega, hhi⟩

/-- No command is refused. -/
theorem exec_ne_refused (i : Instr) (s : State) (r : Refusal) : exec i s ≠ .refused r := by
  intro hr
  have hend : (∃ t, exec i s = .next t) ∨ ∃ f, exec i s = .fault f := by
    by_cases h : Legal i s
    · exact (exec_next_or_nonFinite h).imp_right fun ⟨k, _, hk, _⟩ => ⟨_, hk⟩
    · obtain ⟨f, hf, -⟩ := exec_of_not_legal h
      exact .inr ⟨f, hf⟩
  obtain ⟨t, ht⟩ | ⟨f, hf⟩ := hend
  · cases hr.symm.trans ht
  · cases hr.symm.trans hf

end Sys2Proof.Machine
end

