-- ==== Sys2Proof/Proofs/StoredElements.lean ====
section
/-! SUPPORT. What the destination of a completed command holds (R49, R51): its elements do not overlap, so each holds at
the end what the command stored there, computed from what the elements before it left. -/

namespace Sys2Proof.Machine

open Sys2Proof.Claims

/-! ### Destination elements do not overlap -/

/-- The elements of a legal stream do not overlap: its stride is at least its width (R45). -/
theorem element_add_width_le {i : Instr} {s : State} {st : Stream} {j k : Nat} (hst : st ∈ streamsOf i s)
    (hl : StreamLegal s.owned s.cnt.toNat st) (hjk : j < k) : st.element j + st.width ≤ st.element k := by
  have hstride : st.width ≤ st.stride := by
    cases hr : st.fromRegister with
    | true => exact hl.1 hr
    | false => exact ((width_pos_and_stride_of_mem_streamsOf hst).2 hr).ge
  have hmul : (j + 1) * st.stride ≤ k * st.stride := Nat.mul_le_mul_right _ hjk
  rw [Nat.succ_mul] at hmul
  unfold Stream.element
  omega

/-- The bytes `a` to `a + w - 1` are none of destination element `k`. -/
def Apart (i : Instr) (s : State) (a w k : Nat) : Prop :=
  a + w ≤ destElement i s k ∨ destElement i s k + destWidth i ≤ a

/-- Two destination elements of a legal command are apart. -/
theorem apart_destElement {i : Instr} {s : State} {j k : Nat} (hi : ∀ c, i ≠ .dclr c) (hl : Legal i s)
    (h0 : s.cnt ≠ 0) (hjk : j ≠ k) : Apart i s (destElement i s j) (destWidth i) k := by
  obtain ⟨st, hst, hw, he⟩ := exists_stream_destElement hi s
  have hsl := hl.2 h0 st hst
  rw [Apart, ← hw, ← he j, ← he k]
  exact (Nat.lt_or_gt_of_ne hjk).imp (element_add_width_le hst hsl) (element_add_width_le hst hsl)

/-! ### What a stretch of the element loop leaves alone -/

section
variable {i : Instr} {s u v : State} {k : Nat}

/-- An element keeps memory canonical and every load apart from what it stores. -/
theorem elementOf_load_of_apart (hi : ∀ c, i ≠ .dclr c) (hl : Legal i s) (hu : KeepsFrame s u)
    (hm : Memory.wf u.mem = true) (hk : k < s.cnt.toNat) (hv : elementOf i k u = .next v) :
    Memory.wf v.mem = true ∧ ∀ a w, Apart i s a w k → v.load a w = u.load a w := by
  have hstore := elementOf_storesOne hv
  have haddr := destElement_le_of_legal hi hl hk
  rw [hu.destElement_eq] at hstore
  obtain ⟨hwf, -⟩ := hstore.readByte_eq haddr hm (b := destElement i s k + destWidth i) (.inr le_rfl)
  refine ⟨hwf, fun a w hap => Memory.read_congr fun b hb => (hstore.readByte_eq haddr hm ?_).2⟩
  unfold Apart at hap
  omega

/-- So does a stretch of elements. -/
theorem forElements_load_of_apart {n j : Nat} (hi : ∀ c, i ≠ .dclr c) (hl : Legal i s) (hu : KeepsFrame s u)
    (hm : Memory.wf u.mem = true) (hn : j + n ≤ s.cnt.toNat) (hv : forElements (elementOf i) n j u = .next v) :
    Memory.wf v.mem = true ∧
      ∀ a w, (∀ k, j ≤ k → k < j + n → Apart i s a w k) → v.load a w = u.load a w := by
  induction n generalizing v with
  | zero =>
    cases hv
    exact ⟨hm, fun _ _ _ => rfl⟩
  | succ n ih =>
    rw [forElements_last, andThen_eq_next] at hv
    obtain ⟨x, hx, hv⟩ := hv
    obtain ⟨hmx, hloadx⟩ := ih (by omega) hx
    obtain ⟨hmv, hloadv⟩ :=
      elementOf_load_of_apart hi hl (hu.trans (forElements_keepsFrame hx)) hmx (by omega) hv
    exact ⟨hmv, fun a w hap => (hloadv a w (hap _ (by omega) (by omega))).trans
      (hloadx a w fun k hjk hkn => hap k hjk (by omega))⟩

end

/-! ### What a destination element holds at the end -/

/-- An element stored reads back. -/
theorem State.load_store_same {s : State} {a w v : Nat} (ha : a + w ≤ Config.addressSpace)
    (hm : Memory.wf s.mem = true) (hv : v < 2 ^ (8 * w)) : (s.store a w v).load a w = v := by
  rw [State.load_store_eq, Memory.read_write_same_mod ha hm, Nat.mod_eq_of_lt hv]

section
variable {i : Instr} {s t : State}

/-- A value stored at destination element `k`, wherever the command stands, reads back there. -/
theorem load_store_destElement {u : State} {k v : Nat} (hi : ∀ c, i ≠ .dclr c) (hl : Legal i s)
    (hk : k < s.cnt.toNat) (hu : KeepsFrame s u) (hm : Memory.wf u.mem = true) (hv : v < 2 ^ (8 * destWidth i)) :
    (u.store (destElement i u k) (destWidth i) v).load (destElement i s k) (destWidth i) = v := by
  rw [hu.destElement_eq]
  exact State.load_store_same (destElement_le_of_legal hi hl hk) hm hv

/-- Element `k` of a command that completes: it starts from what the first `k` elements leave, and its destination
element holds at the end what it stored there. -/
theorem exec_element {k : Nat} (hi : ∀ c, i ≠ .dclr c) (hm : Memory.wf s.mem = true) (h : exec i s = .next t)
    (hk : k < s.cnt.toNat) :
    ∃ u v, forElements (elementOf i) k 0 s = .next u ∧ Memory.wf u.mem = true ∧ elementOf i k u = .next v ∧
      t.load (destElement i s k) (destWidth i) = v.load (destElement i s k) (destWidth i) := by
  obtain ⟨c, rfl, -⟩ | ⟨-, hl, hloop⟩ := exec_next_cases h
  · exact absurd rfl (hi c)
  obtain ⟨n, hn⟩ := Nat.exists_eq_add_of_le (show k + 1 ≤ s.cnt.toNat from hk)
  rw [hn, forElements_add, forElements_last, Nat.zero_add, Nat.zero_add, andThen_assoc, andThen_eq_next] at hloop
  obtain ⟨u, hu, hrest⟩ := hloop
  obtain ⟨v, hv, ht⟩ := andThen_eq_next.1 hrest
  have hfu := forElements_keepsFrame hu
  obtain ⟨hmu, -⟩ := forElements_load_of_apart hi hl (KeepsFrame.refl s) hm (by omega) hu
  obtain ⟨hmv, -⟩ := elementOf_load_of_apart hi hl hfu hmu hk hv
  obtain ⟨-, hload⟩ :=
    forElements_load_of_apart hi hl (hfu.trans (elementOf_keepsFrame hv)) hmv (by omega) ht
  exact ⟨u, v, hu, hmu, hv, hload _ _ fun j hj _ =>
    apart_destElement hi hl (count_toNat_ne_zero.2 (by omega)) (by omega)⟩

/-- A command stores in order (R51) the values that its elements store. -/
theorem storesInOrder_of_elements {v : State → Nat → Nat} (hi : ∀ c, i ≠ .dclr c) (hm : Memory.wf s.mem = true)
    (h : exec i s = .next t)
    (hv : ∀ k u u', k < s.cnt.toNat → KeepsFrame s u → Memory.wf u.mem = true → elementOf i k u = .next u' →
      u'.load (destElement i s k) (destWidth i) = v (withCount u k) k) :
    StoresInOrder i s t (destElement i) (destWidth i) v := by
  refine ⟨fun k hk => ?_, fun a ha => exec_readByte_of_unstored hm h ha⟩
  obtain ⟨c, rfl, -⟩ | ⟨-, hl, -⟩ := exec_next_cases h
  · exact absurd rfl (hi c)
  obtain ⟨u, u', hu, hmu, hu', hload⟩ := exec_element hi hm h hk
  exact ⟨withCount u k, (exec_withCount_eq_next hi hl hk.le).2 ⟨u, hu, rfl⟩,
    hload.trans (hv k u u' hk (forElements_keepsFrame hu) hmu hu')⟩

/-- Outside the class `F2I` a command over streams changes memory only (R29, R112). -/
theorem memoryOnly_of_plain (hi : ∀ c, i ≠ .dclr c) (hplain : f2iShape i = none) (h : exec i s = .next t) :
    MemoryOnly s t := by
  obtain ⟨c, rfl, -⟩ | ⟨-, -, hloop⟩ := exec_next_cases h
  · exact absurd rfl (hi c)
  obtain ⟨hdither, hrnd⟩ := forElements_keeps (P := fun _ u => u.dither = s.dither ∧ u.rndIdx = s.rndIdx) ⟨rfl, rfl⟩
    (fun k u v _ _ ⟨hd, hr⟩ hv => have ⟨hd', hr'⟩ := elementOf_plain hplain hv; ⟨hd'.trans hd, hr'.trans hr⟩) hloop
  have hframe := exec_keepsFrame h
  unfold KeepsFrame at hframe
  rwa [hdither, hrnd] at hframe

/-- A command that reads no floating sample, each of whose elements stores the value `v` of the state it finds,
completes, stores these values in order and changes nothing else. -/
theorem exec_storesInOrder {v : State → Nat → Nat} (hi : ∀ c, i ≠ .dclr c) (hreads : ¬ ReadsFloats i)
    (hm : Memory.wf s.mem = true) (hl : Legal i s) (hv : ∀ u k, v u k < 2 ^ (8 * destWidth i))
    (hcnt : ∀ u k n, v (withCount u n) k = v u k)
    (hel : ∀ k u, elementOf i k u = .next (u.store (destElement i u k) (destWidth i) (v u k))) :
    ∃ t, exec i s = .next t ∧ MemoryOnly s t ∧ StoresInOrder i s t (destElement i) (destWidth i) v := by
  obtain ⟨t, ht⟩ := exec_completes hl hreads
  have hplain : f2iShape i = none := Option.eq_none_iff_forall_ne_some.2 fun p hp => hreads (.inl ⟨p, hp⟩)
  refine ⟨t, ht, memoryOnly_of_plain hi hplain ht,
    storesInOrder_of_elements hi hm ht fun k u u' hk hu hmu hu' => ?_⟩
  obtain rfl := Host.Outcome.next.inj ((hel k u).symm.trans hu')
  rw [hcnt]
  exact load_store_destElement hi hl hk hu hmu (hv u k)

end

end Sys2Proof.Machine
end

