-- ==== Sys2Proof/Proofs/FloatToInteger.lean ====
section
/-! SUPPORT. The float-to-integer loop of R120 from its quantiser: where no element is stored over a later sample, and
the quantiser answers for each sample on the draws and contexts the samples before it left, the command completes and
each element is the sample's value, clamped and packed. Then what the quantiser answers in each mode (R103 to R107). -/

namespace Sys2Proof.Machine

open Sys2Proof.Claims

/-! ### The loop -/

/-- `u` is `s` but for memory, this draw index and these contexts. -/
def DitherAt (s : State) (idx : Nat) (ds : List DitherCtx) (u : State) : Prop :=
  u = { s with mem := u.mem, rndIdx := idx, dither := ds }

/-- Sample after sample the quantiser answers `y k` and moves the draw index and the contexts from `idx k` and `ds k`
to `idx (k + 1)` and `ds (k + 1)`, whatever memory holds. -/
structure Quantises (m : DitherMode) (c : CtxNum) (s : State) (x : Nat → Word) (y : Nat → Int) (idx : Nat → Nat)
    (ds : Nat → List DitherCtx) : Prop where
  start : DitherAt s (idx 0) (ds 0) s
  sample : ∀ k < s.cnt.toNat, ∀ u, DitherAt s (idx k) (ds k) u →
    quantise m c (x k) u = some (y k, { u with rndIdx := idx (k + 1), dither := ds (k + 1) })

section
variable {i : Instr} {kk : Container} {m : DitherMode} {c : CtxNum} {s : State} {y : Nat → Int} {idx : Nat → Nat}
  {ds : Nat → List DitherCtx}

/-- One element whose sample stands as at the start. -/
theorem Quantises.elementOf (h : Quantises m c s (scaled (Container.factor kk) s) y idx ds)
    (hi : f2iShape i = some (kk, m, c)) (hx : SamplesFinite (Container.factor kk) s) {k : Nat} {u : State}
    (hk : k < s.cnt.toNat) (hahead : SamplesAhead s k u) (hu : DitherAt s (idx k) (ds k) u) :
    elementOf i k u = .next (State.store { u with rndIdx := idx (k + 1), dither := ds (k + 1) }
      (destElement i s k) (destWidth i) (Container.pack kk (y k))) := by
  obtain ⟨hdest, hwidth⟩ := dest_of_f2iShape hi u k
  have hword := hahead.ahead k le_rfl hk
  have hscaled : scaledSample kk k u = some (scaled (Container.factor kk) s k) := by
    rw [scaledSample_of_sampleFinite (by rw [SampleFinite, hword]; exact hx k hk), scaled, hword]
    rfl
  rw [elementOf_f2i hi, ← hahead.frame.destElement_eq, hdest, hwidth]
  exact convertElement_next.2 ⟨_, _, _, hscaled, h.sample k hk u hu, rfl⟩

/-- The first elements complete, with the later samples, the draw index and the contexts as said. -/
theorem Quantises.forElements (h : Quantises m c s (scaled (Container.factor kk) s) y idx ds)
    (hi : f2iShape i = some (kk, m, c)) (hm : Memory.wf s.mem = true) (hl : Legal i s)
    (hx : SamplesFinite (Container.factor kk) s) (hsrc : SourceIntact (Container.bytes kk) s) {n : Nat}
    (hn : n ≤ s.cnt.toNat) :
    ∃ u, forElements (Machine.elementOf i) n 0 s = .next u ∧ SamplesAhead s n u ∧ DitherAt s (idx n) (ds n) u := by
  have hcomplete := forElements_completes (el := Machine.elementOf i) (n := n)
    (P := fun k u => SamplesAhead s k u ∧ DitherAt s (idx k) (ds k) u) ⟨SamplesAhead.start hm, h.start⟩
    fun k u _ hk ⟨hahead, hu⟩ => by
      have hv := h.elementOf hi hx (by omega) hahead hu
      refine ⟨_, hv, hahead.elementOf hi hl hsrc (by omega) hv, ?_⟩
      unfold DitherAt at hu ⊢
      rw [hu]
      rfl
  rwa [Nat.zero_add] at hcomplete

/-- The command completes, leaves the draw index and the contexts as the last sample leaves them, and stores each
sample's value, clamped and packed (R120). -/
theorem Quantises.exec (h : Quantises m c s (scaled (Container.factor kk) s) y idx ds)
    (hi : f2iShape i = some (kk, m, c)) (hm : Memory.wf s.mem = true) (hl : Legal i s)
    (hx : SamplesFinite (Container.factor kk) s) (hsrc : SourceIntact (Container.bytes kk) s) :
    ∃ t, Machine.exec i s = .next t ∧ DitherAt s (idx s.cnt.toNat) (ds s.cnt.toNat) t ∧
      StoresExactly s t dstStrided (Container.bytes kk) fun k => Container.pack kk (y k) := by
  have hnd := ne_dclr_of_f2iShape hi
  obtain ⟨t, ht, -, hend⟩ := h.forElements hi hm hl hx hsrc le_rfl
  rw [← exec_legal hnd hl] at ht
  have hdest := dest_of_f2iShape hi s
  refine ⟨t, ht, hend, fun k hk => ?_, fun a ha => exec_readByte_of_unstored hm ht fun k hk => ?_⟩
  · obtain ⟨hd, hw⟩ := hdest k
    obtain ⟨u, v, hu, hmu, hv, hload⟩ := exec_element hnd hm ht hk
    obtain ⟨u', hu', hahead, hat⟩ := h.forElements hi hm hl hx hsrc hk.le
    obtain rfl : u = u' := Host.Outcome.next.inj (hu.symm.trans hu')
    obtain rfl := Host.Outcome.next.inj (hv.symm.trans (h.elementOf hi hx hk hahead hat))
    rw [← hd, ← hw, hload]
    exact State.load_store_same (destElement_le_of_legal hnd hl hk) hmu (hw ▸ Container.pack_lt kk (y k))
  · obtain ⟨hd, hw⟩ := hdest k
    rw [hd, hw]
    exact ha k hk

end

/-- In place an element is stored over its own sample only (R134). -/
theorem sourceIntact_of_inPlace {s : State} (hdst : s.dst = s.src) (hstride : s.dstride = 4) :
    dstStrided s = srcFixed 4 s ∧ SourceIntact 4 s := by
  have haddr : ∀ k, dstStrided s k = srcFixed 4 s k := fun k => by
    rw [dstStrided, srcFixed, hdst, hstride, Nat.mul_comm]
    rfl
  refine ⟨funext haddr, fun k _ j hj => .inl ?_⟩
  rw [haddr, srcFixed, srcFixed]
  omega

/-! ### What a sample's element holds -/

/-- A destination element of a completed float-to-integer command holds a value clamped and packed, whatever the mode
and however the streams overlap. -/
theorem exec_f2i_load {i : Instr} {kk : Container} {m : DitherMode} {c : CtxNum} {s t : State} {k : Nat}
    (hi : f2iShape i = some (kk, m, c)) (hm : Memory.wf s.mem = true) (h : exec i s = .next t)
    (hk : k < s.cnt.toNat) : ∃ y, t.load (dstStrided s k) (Container.bytes kk) = Container.pack kk y := by
  have hnd := ne_dclr_of_f2iShape hi
  obtain ⟨c, rfl, -⟩ | ⟨-, hl, -⟩ := exec_next_cases h
  · exact absurd rfl (hnd c)
  obtain ⟨u, v, hu, hmu, hv, hload⟩ := exec_element hnd hm h hk
  have hframe := forElements_keepsFrame hu
  obtain ⟨hd, hw⟩ := dest_of_f2iShape hi s k
  obtain ⟨hdu, -⟩ := dest_of_f2iShape hi u k
  rw [elementOf_f2i hi] at hv
  obtain ⟨x, y, u', -, hq, rfl⟩ := convertElement_next.1 hv
  have hmem : u'.mem = u.mem := by
    obtain ⟨-, -, rfl⟩ | ⟨-, -, rfl⟩ | ⟨-, d, -, rfl⟩ | ⟨-, d, -, rfl⟩ := quantise_cases hq <;> rfl
  refine ⟨y, ?_⟩
  rw [← hd, ← hw, hload, ← hdu, hframe.destElement_eq, ← hw]
  exact State.load_store_same (destElement_le_of_legal hnd hl hk) (hmem ▸ hmu) (hw ▸ Container.pack_lt kk y)

/-- A 32-bit signed number comes back from its pattern (R11, R88). -/
theorem sext_wrap_32 {k : Int} (hlo : -2 ^ 31 ≤ k) (hhi : k < 2 ^ 31) : sext 32 (wrap 32 k) = k := by
  have hw := natCast_wrap 32 k
  unfold sext
  split_ifs <;> omega

theorem clamp_24_bounds (y : Int) : -2 ^ 23 ≤ clamp 24 y ∧ clamp 24 y ≤ 2 ^ 23 - 1 := by
  unfold clamp
  split_ifs <;> omega

/-- A 24-bit sample is clamped to 24 bits and stored in the upper three bytes of its word (R131). -/
theorem pack_int24_leftJustified (y : Int) :
    Container.pack .int24 y % 256 = 0 ∧ -0x80000000 ≤ sext 32 (Container.pack .int24 y) ∧
      sext 32 (Container.pack .int24 y) ≤ 0x7FFFFF00 := by
  obtain ⟨hlo, hhi⟩ := clamp_24_bounds y
  have hw := natCast_wrap 32 (clamp 24 y * 256)
  rw [Container.pack, sext_wrap_32 (by omega) (by omega)]
  omega

/-! ### Without a context -/

section
variable {c : CtxNum} {s : State}

theorem quantises_none (x : Nat → Word) :
    Quantises .none c s x (fun k => roundToInt (x k)) (fun _ => s.rndIdx) (fun _ => s.dither) where
  start := rfl
  sample := fun k _ u hu => by
    have hu' : { u with rndIdx := s.rndIdx, dither := s.dither } = u := by rw [hu]
    rw [hu']
    rfl

/-- The words of `RND` do not change, so sample `k` draws word `k` of those ahead (R112). -/
theorem DitherAt.nextDraw_eq {k : Nat} {ds : List DitherCtx} {u : State} (h : DitherAt s (s.rndIdx + k) ds u) :
    u.nextDraw = drawOf s k := by
  rw [h]
  rfl

theorem quantise_rect_eq_some {x : Word} {u : State} (h : isFinite (fsub x (uniform u.nextDraw)) = true) :
    quantise .rect c x u = some (roundToInt (fsub x (uniform u.nextDraw)), u.drawn) := by
  simp only [quantise, quantRect, finite?_eq_some.2 ⟨rfl, h⟩, Option.bind_eq_bind, Option.bind_some]

theorem quantises_rect {x : Nat → Word}
    (hfin : ∀ k < s.cnt.toNat, isFinite (fsub (x k) (uniform (drawOf s k))) = true) :
    Quantises .rect c s x (fun k => roundToInt (fsub (x k) (uniform (drawOf s k)))) (fun k => s.rndIdx + k)
      (fun _ => s.dither) where
  start := rfl
  sample := fun k hk u hu => by
    rw [quantise_rect_eq_some (by rw [hu.nextDraw_eq]; exact hfin k hk), hu.nextDraw_eq, State.drawn, hu]
    rfl

end

/-! ### With a context -/

section
variable {c : CtxNum} {s : State} {x : Nat → Word}

/-- Writing a context's own value changes nothing. -/
theorem State.set_context_self (hc : c.toNat < s.dither.length) : s.dither.set c.toNat (s.context c) = s.dither := by
  simp [State.context, List.getD, hc]

theorem DitherAt.context_eq {idx : Nat} {d : DitherCtx} {u : State} (hc : c.toNat < s.dither.length)
    (h : DitherAt s idx (s.dither.set c.toNat d) u) : u.context c = d := by
  rw [State.context_eq_of_dither_eq (s := s.setContext c d) (by rw [h]; rfl), State.context_setContext_same _ _ _ hc]

/-- In a mode with a context the contexts of the block are at every sample those of the start but for the one, `d k`,
that the command uses. -/
theorem quantises_of_context {m : DitherMode} {y : Nat → Int} {d : Nat → DitherCtx} (hc : c.toNat < s.dither.length)
    (h0 : d 0 = s.context c)
    (h : ∀ k < s.cnt.toNat, ∀ u : State, u.nextDraw = drawOf s k → u.context c = d k →
      quantise m c (x k) u = some (y k, u.drawn.setContext c (d (k + 1)))) :
    Quantises m c s x y (fun k => s.rndIdx + k) (fun k => s.dither.set c.toNat (d k)) where
  start := by
    unfold DitherAt
    rw [h0, State.set_context_self hc]
    rfl
  sample := fun k hk u hu => by
    rw [h k hk u hu.nextDraw_eq (hu.context_eq hc), State.setContext, State.drawn, hu]
    simp only [List.set_set]
    rfl

/-- Where both operations are finite, `QUANT` in the triangular mode is R105. -/
theorem quantise_tri_eq_some {x : Word} {u : State}
    (hdiff : isFinite (fsub (triangular u.nextDraw) (u.context c).prev) = true)
    (hsum : isFinite (fadd x (fsub (triangular u.nextDraw) (u.context c).prev)) = true) :
    quantise .tri c x u = some (roundToInt (fadd x (fsub (triangular u.nextDraw) (u.context c).prev)),
      u.drawn.setContext c { u.context c with prev := triangular u.nextDraw }) := by
  simp only [quantise, quantTri, finite?_eq_some.2 ⟨rfl, hdiff⟩, finite?_eq_some.2 ⟨rfl, hsum⟩, Option.bind_eq_bind,
    Option.bind_some]

theorem quantises_tri (hc : c.toNat < s.dither.length)
    (hdiff : ∀ k < s.cnt.toNat, isFinite (fsub (triangular (drawOf s k)) (prevBefore s c k)) = true)
    (hsum : ∀ k < s.cnt.toNat,
      isFinite (fadd (x k) (fsub (triangular (drawOf s k)) (prevBefore s c k))) = true) :
    Quantises .tri c s x (fun k => roundToInt (fadd (x k) (fsub (triangular (drawOf s k)) (prevBefore s c k))))
      (fun k => s.rndIdx + k)
      (fun k => s.dither.set c.toNat { s.context c with prev := prevBefore s c k }) :=
  quantises_of_context (d := fun k => { s.context c with prev := prevBefore s c k }) hc rfl
    fun k hk u hdraw hctx => by
      have hprev : (u.context c).prev = prevBefore s c k := by rw [hctx]
      rw [quantise_tri_eq_some (by rw [hdraw, hprev]; exact hdiff k hk) (by rw [hdraw, hprev]; exact hsum k hk),
        hdraw, hctx]
      rfl

theorem quantises_shp {factor : Word} (hc : c.toNat < s.dither.length)
    (hfin : ∀ k < s.cnt.toNat, ShapingFinite (scaled factor s k) (drawOf s k) (contextBefore factor s c k)) :
    Quantises .shp c s (scaled factor s)
      (fun k => shapedValue (scaled factor s k) (drawOf s k) (contextBefore factor s c k)) (fun k => s.rndIdx + k)
      (fun k => s.dither.set c.toNat (contextBefore factor s c k)) :=
  quantises_of_context hc rfl fun k hk u hdraw hctx => by
    rw [quantise_shp_eq_some (by rw [hdraw, hctx]; exact hfin k hk), hdraw, hctx]
    rfl

end

/-! ### No draw makes an operation overflow -/

/-- The largest finite value is an ulp, 2^104, below 2^128 (R80). -/
theorem abs_value_le_max {b : Word} (h : isFinite b = true) : |value b| ≤ 2 ^ 128 - 2 ^ 104 := by
  have hsig : (significand b : ℚ) ≤ 2 ^ 24 - 1 := by
    have := significand_lt b
    rw [le_sub_iff_add_le]
    exact_mod_cast this
  calc |value b| = significand b * (2 : ℚ) ^ scale b := abs_value b
    _ ≤ (2 ^ 24 - 1) * (2 : ℚ) ^ (104 : Int) :=
      mul_le_mul hsig (zpow_le_zpow_right₀ (by norm_num) (scale_le h)) (by positivity) (by norm_num)
    _ = 2 ^ 128 - 2 ^ 104 := by norm_num

/-- A finite value and one within 3 stay finite together: half an ulp of the largest is far more. -/
theorem isFinite_of_roundsTo_near {b r : Word} {q : ℚ} (hb : isFinite b = true) (hr : RoundsTo q r)
    (hq : |q - value b| ≤ 3) : isFinite r = true := by
  rw [hr.isFinite_iff]
  have hmax := abs_value_le_max hb
  have htri := abs_sub_abs_le_abs_sub q (value b)
  calc |q| ≤ 2 ^ 128 - 2 ^ 104 + 3 := by linarith
    _ < 2 ^ 128 - 2 ^ 103 := by norm_num

/-- The rectangular variate is below 1 (R101), so the subtraction of R104 does not overflow. -/
theorem isFinite_fsub_uniform {x : Word} (hx : isFinite x = true) (w : Draw) :
    isFinite (fsub x (uniform w)) = true := by
  refine isFinite_of_roundsTo_near hx (roundsTo_fsub x (uniform w)) ?_
  obtain ⟨hlo, hhi⟩ := draw_bounds w
  have hle : (w.toNat : ℚ) / 2 ^ 24 ≤ 1 := by
    rw [div_le_iff₀ (by positivity)]
    linarith
  rw [sub_sub_cancel_left, abs_neg, (value_uniform w).2, abs_of_nonneg (by positivity)]
  linarith

/-- `prev` stays in the range of R27 from sample to sample. -/
theorem prevInRange_prevBefore {s : State} {c : CtxNum} (h : prevInRange (s.context c).prev = true) (k : Nat) :
    prevInRange (prevBefore s c k) = true := by
  unfold prevBefore
  split
  · exact h
  · exact prevInRange_triangular _

/-- The variates are within 1 (R102, R27), so neither operation of R105 overflows. -/
theorem isFinite_tri {x p : Word} (hx : isFinite x = true) (hp : prevInRange p = true) (w : Draw) :
    isFinite (fsub (triangular w) p) = true ∧ isFinite (fadd x (fsub (triangular w) p)) = true := by
  obtain ⟨hfin, hdiff⟩ : FiniteWithin (1 + 1 + 1 / 2) (fsub (triangular w) p) :=
    (finiteWithin_of_prevInRange (prevInRange_triangular w)).fsub (finiteWithin_of_prevInRange hp) (by norm_num)
  refine ⟨hfin, isFinite_of_roundsTo_near hx (roundsTo_fadd x _) ?_⟩
  rw [add_sub_cancel_left]
  linarith

end Sys2Proof.Machine
end

