-- ==== Sys2Proof/Proofs/SixteenBit.lean ====
section
/-! SUPPORT. The 16-bit conversions as numbers (R132): how far one rounding moves a number of a known size, and from it
how far scaling by `K16` and dividing by it move a sample. -/

namespace Sys2Proof.Machine

/-! ### The error of one rounding -/

/-- The unit of a number below 2^24 units of `2^e` is at most that. -/
theorem Rounded.ulp_le {x : ℚ} {n : Nat} {ulp e : Int} (h : Rounded x n ulp) (he : -149 ≤ e)
    (hx : x < 2 ^ 24 * 2 ^ e) : ulp ≤ e := by
  by_contra hulp
  have hnormal := h.normal (by omega)
  rw [le_div_iff₀ (by positivity)] at hnormal
  have hpow : (2 : ℚ) ^ (e + 1) ≤ 2 ^ ulp := zpow_le_zpow_right₀ (by norm_num) (by omega)
  rw [zpow_add_one₀ two_ne_zero] at hpow
  linarith

/-- A number below 2^24 units of `2^e` is moved by at most half of one. -/
theorem RoundsTo.abs_sub_le {q : ℚ} {r : Word} (h : RoundsTo q r) (e : Int) (hlo : -149 ≤ e) (hhi : e ≤ 0)
    (hq : |q| < 2 ^ 24 * 2 ^ e) : isFinite r = true ∧ |value r - q| ≤ 1 / 2 * 2 ^ e := by
  have hle : (2 : ℚ) ^ e ≤ 2 ^ (0 : Int) := zpow_le_zpow_right₀ (by norm_num) hhi
  have hfin := h.isFinite_iff.2 (by rw [zpow_zero] at hle; linarith)
  obtain ⟨neg, x, n, ulp, hx, rfl, rfl⟩ := h
  rw [abs_applySign, abs_of_nonneg hx.nonneg] at hq
  obtain ⟨hhalf, -⟩ := hx.halfEven
  have hunit : (2 : ℚ) ^ ulp ≤ 2 ^ e := zpow_le_zpow_right₀ (by norm_num) (hx.ulp_le hlo hq)
  refine ⟨hfin, ?_⟩
  rw [hx.value_pattern hfin, abs_sub_applySign, applySign_applySign, abs_mul_zpow_sub]
  exact mul_le_mul hhalf hunit (by positivity) (by norm_num)

/-! ### The scale -/

theorem value_k16 : value Config.k16 = 32767 := by
  have hsig : signedSig Config.k16 = 32767 * 2 ^ 9 := by decide
  have hscale : scale Config.k16 = -9 := by decide
  rw [value, hsig, hscale]
  norm_num

/-- A sample below 2 in magnitude is scaled with an error of at most 2^-9. -/
theorem abs_fmul_k16_sub_le {b : Word} (hb : |value b| < 2) :
    |value (fmul b Config.k16) - value b * 32767| ≤ 1 / 2 ^ 9 := by
  have hround := roundsTo_fmul b Config.k16
  rw [value_k16] at hround
  have hq : |value b * 32767| < 2 ^ 24 * (2 : ℚ) ^ (-8 : Int) := by
    rw [abs_mul]
    norm_num
    linarith
  obtain ⟨-, herr⟩ := hround.abs_sub_le (-8) (by norm_num) (by norm_num) hq
  exact herr.trans_eq (by norm_num)

/-- A 16-bit integer is divided by the scale with an error of at most 2^-24. -/
theorem abs_fdiv_i2f_k16_sub_le {v : Int} (hlo : -32768 ≤ v) (hhi : v ≤ 32767) :
    |value (fdiv (i2f v) Config.k16) - v / 32767| ≤ 1 / 2 ^ 24 := by
  have habs : |v| ≤ 32768 := abs_le.2 ⟨hlo, by omega⟩
  obtain ⟨-, hval⟩ := i2f_exact (habs.trans (by norm_num))
  have hround := roundsTo_fdiv (i2f v) (b := Config.k16) (by decide)
  rw [hval, value_k16] at hround
  have hq : |(v : ℚ) / 32767| < 2 ^ 24 * (2 : ℚ) ^ (-23 : Int) := by
    have habs' : |(v : ℚ)| ≤ 32768 := by exact_mod_cast habs
    rw [abs_div, div_lt_iff₀ (by norm_num)]
    norm_num
    linarith
  obtain ⟨-, herr⟩ := hround.abs_sub_le (-23) (by norm_num) (by norm_num) hq
  exact herr.trans_eq (by norm_num)

/-! ### There and back -/

/-- A number nearer than one half to an integer is rounded to it. -/
theorem roundToInt_eq_of_abs_sub_lt {b : Word} {v : Int} (h : |value b - v| < 1 / 2) : roundToInt b = v := by
  by_contra hne
  have hhalf := (isHalfEven_roundToInt b).half_le (Ne.symm hne)
  rw [abs_sub_comm] at hhalf
  linarith

/-- Scaling the float of a 16-bit integer comes nearer than one half to the integer. -/
theorem roundToInt_fmul_fdiv_i2f {v : Int} (hlo : -32768 ≤ v) (hhi : v ≤ 32767) :
    roundToInt (fmul (fdiv (i2f v) Config.k16) Config.k16) = v := by
  have hdiv := abs_fdiv_i2f_k16_sub_le hlo hhi
  have hlo' : (-32768 : ℚ) ≤ v := by exact_mod_cast hlo
  have hhi' : (v : ℚ) ≤ 32767 := by exact_mod_cast hhi
  have hsmall : |value (fdiv (i2f v) Config.k16)| < 2 := by
    rw [abs_le] at hdiv
    rw [abs_lt]
    constructor <;> linarith
  have hmul := abs_fmul_k16_sub_le hsmall
  refine roundToInt_eq_of_abs_sub_lt ?_
  rw [abs_le] at hdiv hmul
  rw [abs_lt]
  constructor <;> linarith

/-- A sample in [-1, 1] is quantized with an error of at most one half and a rounding, and into the 16-bit range. -/
theorem roundToInt_fmul_k16_bounds {b : Word} (hb : |value b| ≤ 1) :
    |roundToInt (fmul b Config.k16)| ≤ 32767 ∧
      |(roundToInt (fmul b Config.k16) : ℚ) - value b * 32767| ≤ 1 / 2 + 1 / 2 ^ 9 := by
  have hmul := abs_fmul_k16_sub_le (hb.trans_lt (by norm_num))
  obtain ⟨hlo, hhi⟩ := (isHalfEven_roundToInt (fmul b Config.k16)).bounds
  rw [abs_le] at hb hmul
  refine ⟨?_, abs_le.2 ⟨by linarith, by linarith⟩⟩
  have habs : |(roundToInt (fmul b Config.k16) : ℚ)| < 32768 := abs_lt.2 ⟨by linarith, by linarith⟩
  exact Int.lt_add_one_iff.1 (by exact_mod_cast habs)

end Sys2Proof.Machine
end

