-- ==== Sys2Proof/Proofs/ZeroCount.lean ====
section
/-! SUPPORT. A command with `CNT = 0` (R133, R173): nothing conflicts with it, and afterwards memory holds what other
agents wrote meanwhile. -/

namespace Sys2Proof.Machine

/-! ### Bytes that other agents write -/

/-- What another agent leaves behind keeps memory canonical. -/
theorem applyOverlap_wf {s : State} (hm : Memory.wf s.mem = true) (o : Overlap) :
    Memory.wf (applyOverlap s o).mem = true := by
  cases o with
  | memWrite a v => exact Memory.writeByte_wf a.isLt hm
  | _ => exact hm

theorem foldl_applyOverlap_wf {s : State} (hm : Memory.wf s.mem = true) (os : List Overlap) :
    Memory.wf (os.foldl applyOverlap s).mem = true := by
  induction os generalizing s with
  | nil => exact hm
  | cons o os ih => exact ih (applyOverlap_wf hm o)

/-- An action that does not write the byte at `a` leaves it as it was. -/
theorem readByte_applyOverlap {s : State} {a : Word} {o : Overlap} (hm : Memory.wf s.mem = true)
    (h : ∀ v, o ≠ .memWrite a v) :
    Memory.readByte (applyOverlap s o).mem a.toNat = Memory.readByte s.mem a.toNat := by
  cases o with
  | memWrite b v =>
    have hne : a.toNat ≠ b.toNat := fun heq => h v (by rw [BitVec.eq_of_toNat_eq heq])
    rw [applyOverlap, Memory.readByte_writeByte hm, if_neg hne]
  | _ => rfl

theorem readByte_foldl_applyOverlap {s : State} {a : Word} {os : List Overlap} (hm : Memory.wf s.mem = true)
    (h : ∀ v, Overlap.memWrite a v ∉ os) :
    Memory.readByte (os.foldl applyOverlap s).mem a.toNat = Memory.readByte s.mem a.toNat := by
  induction os generalizing s with
  | nil => rfl
  | cons o os ih =>
    rw [List.foldl_cons, ih (applyOverlap_wf hm o) fun v hv => h v (List.mem_cons_of_mem _ hv)]
    exact readByte_applyOverlap hm fun v hv => h v (hv ▸ List.mem_cons_self)

/-- A byte that other agents write holds what was last written to it. -/
theorem readByte_foldl_applyOverlap_last {s : State} {a : Word} {v : Byte} {before after : List Overlap}
    (hm : Memory.wf s.mem = true) (h : ∀ w, Overlap.memWrite a w ∉ after) :
    Memory.readByte ((before ++ .memWrite a v :: after).foldl applyOverlap s).mem a.toNat = v := by
  have hbefore := foldl_applyOverlap_wf hm before
  rw [List.foldl_append, List.foldl_cons, readByte_foldl_applyOverlap (applyOverlap_wf hbefore _) h, applyOverlap,
    Memory.readByte_writeByte hbefore, if_pos rfl]

/-! ### The step -/

/-- With `CNT = 0` nothing conflicts with a command over streams: no byte is one of its elements and its context is not
in use (R173). -/
theorem conflicts_eq_false_of_cnt_eq_zero {i : Instr} {s : State} (hi : ∀ c, i ≠ .dclr c) (h0 : s.cnt = 0)
    (o : Overlap) : conflicts i s o = false := by
  have hnone : ∀ k, ¬ k < s.cnt.toNat := fun k => by simp [h0]
  cases o with
  | memRead a => exact (conflicts_touches_eq_false (.inl rfl)).2 fun _ _ k hk => absurd hk (hnone k)
  | memWrite a v => exact (conflicts_touches_eq_false (.inr ⟨v, rfl⟩)).2 fun _ _ k hk => absurd hk (hnone k)
  | instanceRead a => exact conflicts_instanceRead_eq_false.2 fun k hk => absurd hk (hnone k)
  | context x => exact conflicts_context_eq_false.2 (.inr ⟨h0, hi x⟩)
  | reset => rfl

/-- The step of a command over streams with `CNT = 0` does only what other agents do. -/
theorem step_of_cnt_eq_zero {s : State} {c : Word} {i : Instr} (hc : s.cmd = some c) (hd : decode c = .ok i)
    (hw : i.wellFormed s.dither.length = true) (hi : ∀ c, i ≠ .dclr c) (h0 : s.cnt = 0)
    (hr : Overlap.reset ∉ s.during) : step s = .next (s.during.foldl applyOverlap s.retire) := by
  rw [step_cmd hc, issue_of_decode hd hr]
  refine runIssued_eq_next.2 ⟨_, exec_of_cnt_eq_zero hi hw h0, ?_, rfl⟩
  exact List.any_eq_false.2 fun o _ => by simp [conflicts_eq_false_of_cnt_eq_zero hi h0 o]

end Sys2Proof.Machine
end

