-- ==== Sys2Proof/Proofs/ConvertFamily.lean ====
section
/-! The statements about format conversion (42_convert.md), each a short use of the lemmas above. -/

namespace Sys2Proof.Machine

open Sys2Proof.Claims

/-- Settles O21: an element that faults belongs to a command that reads floating samples; outside the contract a check
reports. -/
theorem legalCommandsCompleteOrAreNonFinite : Obligations.LegalCommandsCompleteOrAreNonFinite :=
  ⟨fun _ s hl => (exec_next_or_nonFinite hl).imp_right fun ⟨k, hk, hf, hreads⟩ => ⟨k, hk, hf, hreads.streamsOf_eq s⟩,
    fun _ _ => exec_of_not_legal, exec_ne_refused⟩

/-- Settles O32: an integer-to-float element stores the quotient, and no later element stores over it. -/
theorem integerToFloatDivides : Obligations.IntegerToFloatDivides :=
  ⟨fun _ hm hl => exec_storesInOrder (i := .i2f16) nofun (by simp [ReadsFloats, f2iShape]) hm hl
      (fun _ _ => BitVec.isLt _) (fun _ _ _ => rfl) (fun _ _ => rfl),
    fun _ hm hl => exec_storesInOrder (i := .i2f24) nofun (by simp [ReadsFloats, f2iShape]) hm hl
      (fun _ _ => BitVec.isLt _) (fun _ _ _ => rfl) (fun _ _ => rfl)⟩

/-- Settles O33: without dither the quantiser is `ROUND` and moves nothing. -/
theorem floatToIntegerWithoutDither : Obligations.FloatToIntegerWithoutDither := fun _ _ hm =>
  ⟨fun hl hx hsrc => (quantises_none _).exec (kk := .int16) rfl hm hl hx hsrc,
    fun hl hx hsrc => (quantises_none _).exec (kk := .int24) rfl hm hl hx hsrc⟩

/-- Settles O34: the subtraction of a variate below 1 does not overflow. -/
theorem floatToIntegerRectangular : Obligations.FloatToIntegerRectangular := by
  intro c s hm
  have hfin : ∀ {factor}, SamplesFinite factor s →
      ∀ k < s.cnt.toNat, isFinite (fsub (scaled factor s k) (uniform (drawOf s k))) = true :=
    fun hx k hk => isFinite_fsub_uniform (hx k hk).2 _
  exact ⟨fun hl hx hsrc => (quantises_rect (hfin hx)).exec (kk := .int16) rfl hm hl hx hsrc,
    fun hl hx hsrc => (quantises_rect (hfin hx)).exec (kk := .int24) rfl hm hl hx hsrc⟩

/-- Settles O35: with `prev` in range no operation overflows, and each sample leaves its variate in `prev`. -/
theorem floatToIntegerTriangular : Obligations.FloatToIntegerTriangular := by
  intro c s hm hprev
  have hquant : ∀ {factor}, c.toNat < s.dither.length → SamplesFinite factor s →
      Quantises .tri c s (scaled factor s) _ _ _ := fun hc hx => quantises_tri hc
      (fun k hk => (isFinite_tri (hx k hk).2 (prevInRange_prevBefore hprev k) (drawOf s k)).1)
      (fun k hk => (isFinite_tri (hx k hk).2 (prevInRange_prevBefore hprev k) (drawOf s k)).2)
  exact ⟨fun hl hx hsrc => (hquant (lt_length_of_wellFormed hl.1 rfl) hx).exec (kk := .int16) rfl hm hl hx hsrc,
    fun hl hx hsrc => (hquant (lt_length_of_wellFormed hl.1 rfl) hx).exec (kk := .int24) rfl hm hl hx hsrc⟩

/-- Settles O36: where every operation is finite the quantiser is the recursion of R107. -/
theorem floatToIntegerNoiseShaped : Obligations.FloatToIntegerNoiseShaped := fun _ _ hm =>
  ⟨fun hl hx hsrc hfin =>
      (quantises_shp (lt_length_of_wellFormed hl.1 rfl) hfin).exec (kk := .int16) rfl hm hl hx hsrc,
    fun hl hx hsrc hfin =>
      (quantises_shp (lt_length_of_wellFormed hl.1 rfl) hfin).exec (kk := .int24) rfl hm hl hx hsrc⟩

/-- Settles O46: in place no element is stored over a later sample. -/
theorem inPlaceConversionTo24 : Obligations.InPlaceConversionTo24 := by
  intro c s hm hl hdst hstride hx
  obtain ⟨haddr, hsrc⟩ := sourceIntact_of_inPlace hdst hstride
  obtain ⟨t, ht, honly, hstores⟩ := (floatToIntegerWithoutDither c s hm).2 hl hx hsrc
  refine ⟨t, ht, honly, ?_⟩
  rwa [StoresExactly, haddr] at hstores

/-- Settles O47: what a 24-bit element stores stands in its destination element at the end. -/
theorem twentyFourBitWordsAreLeftJustified : Obligations.TwentyFourBitWordsAreLeftJustified := by
  intro i c hcmd s t k hm h hk
  obtain ⟨m, hi⟩ : ∃ m, f2iShape i = some (.int24, m, c) := by
    obtain rfl | rfl | rfl | rfl := hcmd <;> exact ⟨_, rfl⟩
  obtain ⟨y, hy⟩ := exec_f2i_load hi hm h hk
  rw [Container.bytes] at hy
  rw [hy]
  exact pack_int24_leftJustified y

/-- Settles O59: a sample in [-1, 1] is not clamped, and rounding to an integer and the two roundings of the floats move
it by little more than half of an LSB. -/
theorem quantizationErrorBelowOneLsb : Obligations.QuantizationErrorBelowOneLsb := by
  intro s _ hs
  obtain ⟨hrange, herr⟩ := roundToInt_fmul_k16_bounds hs
  obtain ⟨hlo, hhi⟩ := abs_le.1 hrange
  rw [clamp_of_mem (by norm_num; omega) (by norm_num; omega)]
  have hdiv := abs_fdiv_i2f_k16_sub_le (by omega) hhi
  rw [abs_le] at herr hdiv
  rw [abs_lt]
  constructor <;> linarith

/-- Settles O16: nothing is checked but the context, nothing conflicts, and what other agents write stands in memory
afterwards. -/
theorem zeroCountDoesNothing : Obligations.ZeroCountDoesNothing := by
  refine ⟨fun i s hw hi h0 => exec_of_cnt_eq_zero hi hw h0, fun s c i hc hd hw hi h0 hr => ?_⟩
  refine ⟨_, step_of_cnt_eq_zero hc hd hw hi h0 hr, rfl, foldl_applyOverlap_frame s.during s.retire, fun hm =>
    ⟨fun a ha => readByte_foldl_applyOverlap (s := s.retire) hm ha, fun a v before after hsplit hlast => ?_⟩⟩
  rw [hsplit]
  exact readByte_foldl_applyOverlap_last (s := s.retire) hm hlast

/-- Settles O58: scaling the float comes nearer than one half to the integer, and a 16-bit integer is not clamped. -/
theorem sixteenBitRoundTripIsIdentity : Obligations.SixteenBitRoundTripIsIdentity := by
  intro v hlo hhi
  rw [roundToInt_fmul_fdiv_i2f hlo hhi]
  exact clamp_of_mem hlo hhi

end Sys2Proof.Machine
end

