-- ==== Sys2Proof/Proofs/Reached.lean ====
section
/-! SUPPORT. The state that the first elements of a legal command leave (R51): the destination element whose turn comes,
and a sample that no element is stored over, still stand in it as at the start. So a command each of whose elements
stores some value in the state it finds completes and stores these values in order. -/

namespace Sys2Proof.Machine

open Sys2Proof.Claims

/-- `u` is what the first `k` elements of the command leave when it starts from `s` (R51). -/
def Reached (i : Instr) (s : State) (k : Nat) (u : State) : Prop := forElements (elementOf i) k 0 s = .next u

/-! ### What still stands as at the start -/

section
variable {i : Instr} {s u : State} {k : Nat}

theorem Reached.keepsFrame (h : Reached i s k u) : KeepsFrame s u := forElements_keepsFrame h

/-- A load apart from the first `k` destination elements gives what it gave at the start. -/
theorem Reached.load_eq (h : Reached i s k u) (hi : ∀ c, i ≠ .dclr c) (hm : Memory.wf s.mem = true)
    (hl : Legal i s) (hk : k ≤ s.cnt.toNat) {a w : Nat} (ha : ∀ j < k, Apart i s a w j) :
    u.load a w = s.load a w := by
  obtain ⟨-, hload⟩ := forElements_load_of_apart hi hl (KeepsFrame.refl s) hm (by omega) h
  exact hload a w fun j _ hj => ha j (by omega)

/-- Destination element `k` is apart from the elements before it (R45). -/
theorem Reached.load_destElement_eq (h : Reached i s k u) (hi : ∀ c, i ≠ .dclr c) (hm : Memory.wf s.mem = true)
    (hl : Legal i s) (hk : k < s.cnt.toNat) :
    u.load (destElement i u k) (destWidth i) = s.load (destElement i s k) (destWidth i) := by
  rw [h.keepsFrame.destElement_eq]
  exact h.load_eq hi hm hl hk.le fun j hj =>
    apart_destElement hi hl (count_toNat_ne_zero.2 (by omega)) hj.ne'

/-- No element is stored over sample `k` before its turn. -/
theorem Reached.sampleWord_eq (h : Reached i s k u) (hi : ∀ c, i ≠ .dclr c) (hm : Memory.wf s.mem = true)
    (hl : Legal i s) (hk : k < s.cnt.toNat) (hdest : destElement i s = dstStrided s)
    (hsrc : SourceIntact (destWidth i) s) : sampleWord u k = sampleWord s k := by
  have haddr : srcFixed 4 u k = srcFixed 4 s k := by rw [h.keepsFrame]; rfl
  rw [sampleWord, sampleWord, haddr, h.load_eq hi hm hl hk.le fun j hj => ?_]
  rw [Apart, hdest]
  exact (hsrc k hk j hj).symm

end

/-! ### Completion -/

/-- A loop completes if each element does on what the elements before it leave. -/
theorem forElements_completes_of_reached {el : Nat → State → Result} {n : Nat} {s : State}
    (h : ∀ k < n, ∀ u, forElements el k 0 s = .next u → ∃ v, el k u = .next v) :
    ∃ t, forElements el n 0 s = .next t := by
  have hcomplete := forElements_completes (el := el) (n := n) (i := 0) (s := s)
    (P := fun k u => forElements el k 0 s = .next u) rfl fun k u _ hk hu => by
      obtain ⟨v, hv⟩ := h k (by omega) u hu
      exact ⟨v, hv, by rw [forElements_last, hu, andThen_next, Nat.zero_add, hv]⟩
  exact hcomplete.imp fun _ ht => ht.1

/-- A legal command outside the class `F2I`, each of whose elements stores the value `v` of the state it finds,
completes, stores these values in order and changes nothing else. -/
theorem exec_storesInOrder_of_reached {i : Instr} {s : State} {v : State → Nat → Nat} (hi : ∀ c, i ≠ .dclr c)
    (hplain : f2iShape i = none) (hm : Memory.wf s.mem = true) (hl : Legal i s)
    (hv : ∀ u k, v u k < 2 ^ (8 * destWidth i)) (hcnt : ∀ u k n, v (withCount u n) k = v u k)
    (hel : ∀ k < s.cnt.toNat, ∀ u, Reached i s k u →
      elementOf i k u = .next (u.store (destElement i u k) (destWidth i) (v u k))) :
    ∃ t, exec i s = .next t ∧ MemoryOnly s t ∧ StoresInOrder i s t (destElement i) (destWidth i) v := by
  obtain ⟨t, ht⟩ := forElements_completes_of_reached fun k hk u hu => ⟨_, hel k hk u hu⟩
  rw [← exec_legal hi hl] at ht
  refine ⟨t, ht, memoryOnly_of_plain hi hplain ht, fun k hk => ?_, fun a ha => exec_readByte_of_unstored hm ht ha⟩
  obtain ⟨u, u', hu, hmu, hu', hload⟩ := exec_element hi hm ht hk
  obtain rfl := Host.Outcome.next.inj ((hel k hk u hu).symm.trans hu')
  refine ⟨withCount u k, (exec_withCount_eq_next hi hl hk.le).2 ⟨u, hu, rfl⟩, hload.trans ?_⟩
  rw [hcnt]
  exact load_store_destElement hi hl hk (forElements_keepsFrame hu) hmu (hv u k)

/-- Values that do not depend on the state an element finds are stored exactly. -/
theorem storesExactly_of_storesInOrder {i : Instr} {s t : State} {addr : State → Nat → Nat} {w : Nat}
    {v : Nat → Nat} (h : StoresInOrder i s t addr w fun _ => v) : StoresExactly s t addr w v := by
  obtain ⟨hstored, hkept⟩ := h
  refine ⟨fun k hk => ?_, hkept⟩
  obtain ⟨_, -, hload⟩ := hstored k hk
  exact hload

end Sys2Proof.Machine
end

