-- ==== Sys2Proof/Proofs/MergeCopy.lean ====
section
/-! SUPPORT. The merge-copies (R142, R143, R155, R156): adding patterns modulo the element width, and the contiguous
merge-copy beside the strided one that runs on the same state with both strides at the element width. -/

namespace Sys2Proof.Machine

open Sys2Proof.Claims

/-- Of a number that is not negative `WRAP_n` keeps the residue (R88). -/
theorem wrap_natCast (n v : Nat) : wrap n v = v % 2 ^ n := by
  have h := natCast_wrap n v
  exact_mod_cast h

/-- One element of a contiguous merge-copy stores the sum of both patterns modulo the width (R142, R143). -/
theorem mergeCopyFixed_eq (w k : Nat) (s : State) :
    mergeCopyFixed w k s = .next (s.store (dstFixed w s k) w
      ((s.load (dstFixed w s k) w + s.load (srcFixed w s k) w) % 2 ^ (8 * w))) := by
  rw [← wrap_natCast, Nat.cast_add]
  rfl

/-- A command that adds the source element at `src` into each destination element completes, adds to what the
destination element held at the start the source element that stands when its turn comes, and changes nothing else. -/
theorem exec_mergesInOrder {i : Instr} {s : State} {src : State → Nat → Nat} (hi : ∀ c, i ≠ .dclr c)
    (hplain : f2iShape i = none) (hm : Memory.wf s.mem = true) (hl : Legal i s)
    (hcnt : ∀ u k n, src (withCount u n) k = src u k)
    (hel : ∀ k u, elementOf i k u = .next (u.store (destElement i u k) (destWidth i)
      ((u.load (destElement i u k) (destWidth i) + u.load (src u k) (destWidth i)) % 2 ^ (8 * destWidth i)))) :
    ∃ t, exec i s = .next t ∧ MemoryOnly s t ∧
      StoresInOrder i s t (destElement i) (destWidth i) fun u k =>
        (s.load (destElement i s k) (destWidth i) + u.load (src u k) (destWidth i)) % 2 ^ (8 * destWidth i) := by
  refine exec_storesInOrder_of_reached hi hplain hm hl (fun _ _ => Nat.mod_lt _ (by positivity))
    (fun u k n => ?_) fun k hk u hu => ?_
  · rw [hcnt]
    rfl
  · rw [hel, hu.load_destElement_eq hi hm hl hk]

/-! ### The contiguous merge-copy and the strided one -/

/-- The state with `w` in both stride registers. -/
def withStrides (w : Nat) (s : State) : State :=
  { s with sstride := BitVec.ofNat 32 w, dstride := BitVec.ofNat 32 w }

/-- Two states that differ at most in the strides, which in the second one are `w`. -/
def StridesAre (w : Nat) (s t : State) : Prop := t = withStrides w s

/-- A state is known from its strides and from what it is with other ones. -/
theorem eq_of_withStrides_eq {w : Nat} {s t : State} (h : withStrides w s = withStrides w t)
    (hs : s.sstride = t.sstride) (hd : s.dstride = t.dstride) : s = t := by
  calc s = { withStrides w s with sstride := s.sstride, dstride := s.dstride } := rfl
    _ = { withStrides w t with sstride := t.sstride, dstride := t.dstride } := by rw [h, hs, hd]
    _ = t := rfl

/-- Two loops whose elements keep two states in step keep them in step. -/
theorem forElements_sameAnswer_of_elements {R : State → State → Prop} {el el' : Nat → State → Result}
    (hel : ∀ k u u', R u u' → SameAnswer R (el k u) (el' k u')) (n i : Nat) {s s' : State} (hs : R s s') :
    SameAnswer R (forElements el n i s) (forElements el' n i s') := by
  induction n generalizing i s s' with
  | zero => exact .next hs
  | succ n ih => exact (hel i s s' hs).andThen fun _ _ ht => ih (i + 1) ht

section
variable {w : Nat} (hw : w < 2 ^ 32) (s : State) (k : Nat)
include hw

theorem srcStrided_withStrides : srcStrided (withStrides w s) k = srcFixed w s k := by
  rw [srcStrided, srcFixed, Nat.mul_comm w k]
  congr 2
  exact Nat.mod_eq_of_lt hw

theorem dstStrided_withStrides : dstStrided (withStrides w s) k = dstFixed w s k := by
  rw [dstStrided, dstFixed, Nat.mul_comm w k]
  congr 2
  exact Nat.mod_eq_of_lt hw

/-- An element of either merge-copy loads the same two patterns and stores the same sum at the same address. -/
theorem mergeCopy_sameAnswer :
    SameAnswer (StridesAre w) (mergeCopyFixed w k s) (mergeCopyStrided w k (withStrides w s)) := by
  simp only [mergeCopyFixed, mergeCopyStrided, srcStrided_withStrides hw, dstStrided_withStrides hw]
  exact .next rfl

/-- A stream whose stride is its element width is legal exactly if the stream is with the width in the stride register:
a stride that is the width passes both checks of it (R45, R46). -/
theorem streamLegal_withStrides (owned : List Extent) (cnt : Nat) :
    (StreamLegal owned cnt (stridedSource (withStrides w s) w) ↔ StreamLegal owned cnt (fixedSource s w)) ∧
    (StreamLegal owned cnt (stridedDest (withStrides w s) w) ↔ StreamLegal owned cnt (fixedDest s w)) := by
  have hstride : (BitVec.ofNat 32 w).toNat = w := Nat.mod_eq_of_lt hw
  simp [StreamLegal, stridedSource, fixedSource, stridedDest, fixedDest, withStrides, Stream.element, hstride]

end

/-- `i` is the contiguous merge-copy of elements of `w` bytes and `j` the strided one. -/
def MergeCopyPair (i j : Instr) (w : Nat) : Prop :=
  i = .mcpyc16 ∧ j = .mcpy16 ∧ w = 2 ∨ i = .mcpyc32 ∧ j = .mcpy32 ∧ w = 4

section
variable {i j : Instr} {w : Nat} {s t : State} (h : MergeCopyPair i j w)
include h

theorem MergeCopyPair.width_lt : w < 2 ^ 32 := by
  obtain ⟨-, -, rfl⟩ | ⟨-, -, rfl⟩ := h <;> norm_num

theorem MergeCopyPair.ne_dclr (c : CtxNum) : i ≠ .dclr c ∧ j ≠ .dclr c := by
  obtain ⟨rfl, rfl, -⟩ | ⟨rfl, rfl, -⟩ := h <;> exact ⟨nofun, nofun⟩

theorem MergeCopyPair.elementOf_eq : elementOf i = mergeCopyFixed w ∧ elementOf j = mergeCopyStrided w := by
  obtain ⟨rfl, rfl, rfl⟩ | ⟨rfl, rfl, rfl⟩ := h <;> exact ⟨rfl, rfl⟩

theorem MergeCopyPair.streamsOf_eq (s : State) :
    streamsOf i s = [fixedSource s w, fixedDest s w] ∧ streamsOf j s = [stridedSource s w, stridedDest s w] := by
  obtain ⟨rfl, rfl, rfl⟩ | ⟨rfl, rfl, rfl⟩ := h <;> exact ⟨rfl, rfl⟩

/-- Neither uses a context (R29). -/
theorem MergeCopyPair.wellFormed (nch : Nat) : i.wellFormed nch = true ∧ j.wellFormed nch = true := by
  obtain ⟨rfl, rfl, -⟩ | ⟨rfl, rfl, -⟩ := h <;> exact ⟨rfl, rfl⟩

/-- Both are inside the contract or neither is. -/
theorem MergeCopyPair.legal_iff : Legal j (withStrides w s) ↔ Legal i s := by
  obtain ⟨hwi, hwj⟩ := h.wellFormed s.dither.length
  obtain ⟨hstreams, -⟩ := h.streamsOf_eq s
  obtain ⟨-, hstreams'⟩ := h.streamsOf_eq (withStrides w s)
  obtain ⟨hsrc, hdst⟩ := streamLegal_withStrides h.width_lt s s.owned s.cnt.toNat
  rw [Legal, Legal, hstreams, hstreams']
  refine and_congr (iff_of_true hwj hwi) (imp_congr_right fun _ => ?_)
  rw [List.forall_mem_cons, List.forall_mem_singleton, List.forall_mem_cons, List.forall_mem_singleton]
  exact and_congr hsrc hdst

/-- Inside the contract both complete in states that differ at most in the strides, or neither completes. -/
theorem MergeCopyPair.exec_sameAnswer (hl : Legal i s) :
    SameAnswer (StridesAre w) (exec i s) (exec j (withStrides w s)) := by
  obtain ⟨hel, hel'⟩ := h.elementOf_eq
  rw [exec_legal (fun c => (h.ne_dclr c).1) hl, exec_legal (fun c => (h.ne_dclr c).2) (h.legal_iff.2 hl), hel, hel']
  exact forElements_sameAnswer_of_elements (fun k u _ hu => hu ▸ mergeCopy_sameAnswer h.width_lt u k) _ _ rfl

/-- A contiguous merge-copy completes exactly as the strided one does, and keeps the strides as it found them. -/
theorem MergeCopyPair.exec_eq_next :
    exec i s = .next t ↔
      exec j (withStrides w s) = .next (withStrides w t) ∧ t.sstride = s.sstride ∧ t.dstride = s.dstride := by
  constructor
  · intro hexec
    obtain ⟨c, hc, -⟩ | ⟨-, hl, -⟩ := exec_next_cases hexec
    · exact absurd hc (h.ne_dclr c).1
    have hsame := h.exec_sameAnswer hl
    rw [hexec] at hsame
    obtain ⟨_, hstrided, rfl⟩ := hsame.of_next
    have hframe := exec_keepsFrame hexec
    exact ⟨hstrided, hframe.readReg_eq .sstride, hframe.readReg_eq .dstride⟩
  · rintro ⟨hstrided, hs, hd⟩
    obtain ⟨c, hc, -⟩ | ⟨-, hl, -⟩ := exec_next_cases hstrided
    · exact absurd hc (h.ne_dclr c).2
    have hsame := h.exec_sameAnswer (h.legal_iff.1 hl)
    rw [hstrided] at hsame
    obtain ⟨u, hexec, hu⟩ := hsame.of_next_right
    have hframe := exec_keepsFrame hexec
    rw [hexec, eq_of_withStrides_eq hu (hs.trans (hframe.readReg_eq .sstride).symm)
      (hd.trans (hframe.readReg_eq .dstride).symm)]

end

end Sys2Proof.Machine
end

