-- ==== Sys2Proof/Proofs/FloatMerge.lean ====
section
/-! SUPPORT. The float merges (R140, R141): where no element is stored over a later sample, each adds its own scaled and
rounded sample to what its slot held at the start. -/

namespace Sys2Proof.Machine

open Sys2Proof.Claims

/-- The float merge into slots of this container (R140, R141). -/
def floatMerge : Container → Instr
  | .int16 => .fmrg16
  | .int24 => .fmrg24

/-- The pattern after merging the rounded sample `y` into the pattern `d`: saturating in 16 bits, wrapping in 32. -/
def mergeInto : Container → Nat → Int → Nat
  | .int16 => mergeInto16
  | .int24 => mergeInto24

section
variable (kk : Container)

theorem floatMerge_ne_dclr (c : CtxNum) : floatMerge kk ≠ .dclr c := by cases kk <;> nofun

theorem f2iShape_floatMerge : f2iShape (floatMerge kk) = none := by cases kk <;> rfl

theorem destElement_floatMerge (s : State) : destElement (floatMerge kk) s = dstStrided s := by cases kk <;> rfl

theorem destWidth_floatMerge : destWidth (floatMerge kk) = Container.bytes kk := by cases kk <;> rfl

theorem mergeInto_lt (d : Nat) (y : Int) : mergeInto kk d y < 2 ^ (8 * Container.bytes kk) := by
  cases kk <;> exact wrap_lt _ _

variable {kk}

/-- An element whose sample and product are finite merges the sample into its slot. -/
theorem elementOf_floatMerge {k : Nat} {u : State} (h : SampleFinite (Container.factor kk) u k) :
    elementOf (floatMerge kk) k u =
      .next (u.store (destElement (floatMerge kk) u k) (destWidth (floatMerge kk))
        (mergeInto kk (u.load (destElement (floatMerge kk) u k) (destWidth (floatMerge kk)))
          (roundToInt (scaled (Container.factor kk) u k)))) := by
  have hx := scaledSample_of_sampleFinite h
  cases kk with
  | int16 => exact mergeElement16_next.2 ⟨_, hx, rfl⟩
  | int24 => exact mergeElement24_next.2 ⟨_, hx, rfl⟩

/-- The command completes, merges each sample into what its slot held at the start, and changes nothing else. -/
theorem exec_floatMerge {s : State} (hm : Memory.wf s.mem = true) (hl : Legal (floatMerge kk) s)
    (hx : SamplesFinite (Container.factor kk) s) (hsrc : SourceIntact (Container.bytes kk) s) :
    ∃ t, exec (floatMerge kk) s = .next t ∧ MemoryOnly s t ∧
      StoresExactly s t dstStrided (Container.bytes kk) fun k =>
        mergeInto kk (s.load (dstStrided s k) (Container.bytes kk))
          (roundToInt (scaled (Container.factor kk) s k)) := by
  have hi := floatMerge_ne_dclr kk
  have hw := destWidth_floatMerge kk
  have hdest : destElement (floatMerge kk) = dstStrided := funext (destElement_floatMerge kk)
  obtain ⟨t, ht, honly, hstores⟩ := exec_storesInOrder_of_reached hi (f2iShape_floatMerge kk) hm hl
    (v := fun _ k => mergeInto kk (s.load (destElement (floatMerge kk) s k) (destWidth (floatMerge kk)))
      (roundToInt (scaled (Container.factor kk) s k)))
    (fun _ _ => hw ▸ mergeInto_lt kk _ _) (fun _ _ _ => rfl) fun k hk u hu => by
      have hword := hu.sampleWord_eq hi hm hl hk (destElement_floatMerge kk s) (hw ▸ hsrc)
      have hfin : SampleFinite (Container.factor kk) u k := by
        rw [SampleFinite, hword]
        exact hx k hk
      rw [elementOf_floatMerge hfin, hu.load_destElement_eq hi hm hl hk, scaled, hword]
      rfl
  rw [hdest, hw] at hstores
  exact ⟨t, ht, honly, storesExactly_of_storesInOrder hstores⟩

end

end Sys2Proof.Machine
end

