-- ==== Sys2Proof/Proofs/MergeFamily.lean ====
section
/-! The statements about the channel merges (43_merge.md), each a short use of the lemmas above. -/

namespace Sys2Proof.Machine

/-- Settles O31: an element adds its source element into its slot, which no element before it stores to. -/
theorem contiguousMergeCopyAddsModulo : Obligations.ContiguousMergeCopyAddsModulo := by
  rintro i w (⟨rfl, rfl⟩ | ⟨rfl, rfl⟩) s hm hl
  · exact exec_mergesInOrder (i := .mcpyc16) (src := srcFixed 2) nofun rfl hm hl (fun _ _ _ => rfl)
      (mergeCopyFixed_eq 2)
  · exact exec_mergesInOrder (i := .mcpyc32) (src := srcFixed 4) nofun rfl hm hl (fun _ _ _ => rfl)
      (mergeCopyFixed_eq 4)

/-- Settles O37: with samples and products finite every element merges its own sample into what its slot held. -/
theorem floatMergeSaturatesAt16AndWrapsAt24 : Obligations.FloatMergeSaturatesAt16AndWrapsAt24 := fun _ hm =>
  ⟨exec_floatMerge (kk := .int16) hm, exec_floatMerge (kk := .int24) hm⟩

/-- Settles O48: element by element both load the same patterns and store the same sum at the same address. -/
theorem contiguousMergeCopyIsTheStridedOne : Obligations.ContiguousMergeCopyIsTheStridedOne :=
  fun _ _ _ hpair _ _ => MergeCopyPair.exec_eq_next hpair

end Sys2Proof.Machine
end

