-- ==== Sys2Proof/Proofs/Buffer.lean ====
section
/-! SUPPORT. The strided fill, copy and merge-copy (R150 to R156): the value that an element of each stores, and from it
what a whole fill or copy stores. -/

namespace Sys2Proof.Machine

open Sys2Proof.Claims

/-- One element of a strided merge-copy stores the sum of both patterns modulo the width (R155, R156). -/
theorem mergeCopyStrided_eq (w k : Nat) (s : State) :
    mergeCopyStrided w k s = .next (s.store (dstStrided s k) w
      ((s.load (dstStrided s k) w + s.load (srcStrided s k) w) % 2 ^ (8 * w))) := by
  rw [← wrap_natCast, Nat.cast_add]
  rfl

section
variable {i : Instr} {s : State} (hi : ∀ c, i ≠ .dclr c) (hplain : f2iShape i = none)
  (hdest : destElement i = dstStrided) (hm : Memory.wf s.mem = true) (hl : Legal i s)
include hi hplain hdest hm hl

/-- A command whose elements are those of a fill completes, stores the low bits of `VAL` in each, and changes nothing
else: no element writes `VAL` (R22). -/
theorem exec_fillsExactly (hel : elementOf i = fillElement (destWidth i)) :
    ∃ t, exec i s = .next t ∧ MemoryOnly s t ∧
      StoresExactly s t dstStrided (destWidth i) fun _ => s.val.toNat % 2 ^ (8 * destWidth i) := by
  obtain ⟨t, ht, honly, hstores⟩ := exec_storesInOrder_of_reached hi hplain hm hl
    (v := fun _ _ => s.val.toNat % 2 ^ (8 * destWidth i))
    (fun _ _ => Nat.mod_lt _ (by positivity)) (fun _ _ _ => rfl) fun k _ u hu => by
      have hval : u.val = s.val := hu.keepsFrame.readReg_eq .val
      rw [hel, fillElement, hval, hdest]
  rw [hdest] at hstores
  exact ⟨t, ht, honly, storesExactly_of_storesInOrder hstores⟩

/-- A command whose elements are those of a strided copy completes, stores in each element the source element that
stands when its turn comes (R51), and changes nothing else. -/
theorem exec_copiesInOrder (hel : elementOf i = copyElement (destWidth i)) :
    ∃ t, exec i s = .next t ∧ MemoryOnly s t ∧
      StoresInOrder i s t dstStrided (destWidth i) fun u k => u.load (srcStrided u k) (destWidth i) := by
  rw [← hdest]
  exact exec_storesInOrder_of_reached hi hplain hm hl (fun _ _ => Memory.read_lt _ _ _) (fun _ _ _ => rfl)
    fun k _ u _ => by rw [hel, copyElement, hdest]

end

end Sys2Proof.Machine
end

