-- ==== Sys2Proof/Proofs/BufferFamily.lean ====
section
/-! The statements about the interleaved buffer commands (44_buffer.md), each a short use of the lemmas above. -/

namespace Sys2Proof.Machine

/-- Settles O28: every element stores the low bits of the same `VAL`. -/
theorem fillStoresValAtEveryStride : Obligations.FillStoresValAtEveryStride := by
  rintro i w (⟨rfl, rfl⟩ | ⟨rfl, rfl⟩ | ⟨rfl, rfl⟩) s hm hl
  · exact exec_fillsExactly (i := .fill8) nofun rfl rfl hm hl rfl
  · exact exec_fillsExactly (i := .fill16) nofun rfl rfl hm hl rfl
  · exact exec_fillsExactly (i := .fill32) nofun rfl rfl hm hl rfl

/-- Settles O29: an element stores the source element it finds, overlapping streams included. -/
theorem copyMovesElementsInOrder : Obligations.CopyMovesElementsInOrder := by
  rintro i w (⟨rfl, rfl⟩ | ⟨rfl, rfl⟩) s hm hl
  · exact exec_copiesInOrder (i := .cpy16) nofun rfl rfl hm hl rfl
  · exact exec_copiesInOrder (i := .cpy32) nofun rfl rfl hm hl rfl

/-- Settles O30: an element adds its source element into its slot, which no element before it stores to. -/
theorem mergeCopyAddsModulo : Obligations.MergeCopyAddsModulo := by
  rintro i w (⟨rfl, rfl⟩ | ⟨rfl, rfl⟩) s hm hl
  · exact exec_mergesInOrder (i := .mcpy16) (src := srcStrided) nofun rfl hm hl (fun _ _ _ => rfl)
      (mergeCopyStrided_eq 2)
  · exact exec_mergesInOrder (i := .mcpy32) (src := srcStrided) nofun rfl hm hl (fun _ _ _ => rfl)
      (mergeCopyStrided_eq 4)

end Sys2Proof.Machine
end

