-- ==== Sys2Proof/Proofs/ExceptionsFamily.lean ====
section
/-! The statement about the idle block (60_exceptions.md), a use of the edge's law. -/

namespace Sys2Proof.Machine

/-- Settles O9: with `CMD` empty and no action of the host left, the step is the idle one. -/
theorem idleBlockHoldsItsState : Obligations.IdleBlockHoldsItsState :=
  fun _ hcmd hhost => step_idle hcmd hhost

end Sys2Proof.Machine
end

