-- ==== Sys2Proof/Proofs/Reset.lean ====
section
/-! SUPPORT. What reset does to the registers and the contexts as they are read (R33, R190), and what it is while a
command stands in `CMD`. -/

namespace Sys2Proof.Machine

theorem State.readReg_applyReset (s : State) (r : OperandReg) : s.applyReset.readReg r = 0 := by
  cases r <;> rfl

/-- Reset clears every context, its history size kept. Past the last one the zero context stands in before and after:
it is its own reset value. -/
theorem State.context_applyReset (s : State) (c : CtxNum) : s.applyReset.context c = (s.context c).cleared :=
  calc s.applyReset.context c
      = (s.dither.map DitherCtx.cleared).getD c.toNat (DitherCtx.zero 0).cleared := rfl
    _ = (s.context c).cleared := List.getD_map _ _ DitherCtx.cleared

/-- A host's reset with `CMD` empty is the reset of everything but the host's list, which loses that action. -/
theorem step_reset {s : State} {rest : List HostEvent} (hc : s.cmd = none) (hh : s.host = .reset :: rest) :
    step s = .next (State.applyReset { s with host := rest }) := by
  rw [step_host hc hh, hostEvent]

/-- A command's word is refused where a reset falls into the command, whatever the command would have answered. -/
theorem issue_of_reset {c : Word} {i : Instr} {s : State} (hd : decode c = .ok i) (hr : Overlap.reset ∈ s.during) :
    issue c s = .refused .resetDuringCommand := by
  simp only [issue, hd, if_pos hr]

end Sys2Proof.Machine
end

