-- ==== Sys2Proof/Proofs/ResetFamily.lean ====
section
/-! The statement about reset (70_reset_and_hazards.md, section 1), assembled from the lemmas above. -/

namespace Sys2Proof.Machine

/-- Settles O12: between commands the step is `State.applyReset`; during one it is `issue`, which looks for a reset
before it runs the command. -/
theorem resetRestoresTheResetValues : Obligations.ResetRestoresTheResetValues := by
  refine ⟨fun s rest hcmd hhost => ?_, fun s c i hcmd hdecode hreset => ?_⟩
  · have hlength : (s.dither.map DitherCtx.cleared).length = s.dither.length := List.length_map ..
    refine ⟨_, step_reset hcmd hhost, State.readReg_applyReset _, rfl, rfl, hlength, fun c _ => ?_,
      rfl, rfl, rfl, rfl, rfl, rfl, rfl⟩
    rw [State.context_applyReset]
    exact ⟨rfl, rfl, rfl⟩
  · rw [step_cmd hcmd, issue_of_reset hdecode hreset]

end Sys2Proof.Machine
end
